-- ==== Sys2Proof/Word.lean ====
section
/-! DEFINITION. The plain data every other file speaks of: bytes, 16-bit positions on the wire, degrees.
spec/00_scope.md R11 (bytes), R14 (DEG is an exact rational, RAW an integer count of 0.01 degree). -/

namespace Sys2Proof

/-- A byte, 0..255 (R11). -/
abbrev Byte := BitVec 8

/-- A 16-bit value as it stands on the wire or at the command port (R78, R114). -/
abbrev Half := BitVec 16

/-- A degree-valued quantity: an exact rational number (R14). -/
abbrev Deg := Rat

/-- A position in the actuator's unit, an integer count of 0.01 degree, unbounded until it is clamped (R14, R193). -/
abbrev Raw := Int

end Sys2Proof
end

