-- ==== Sys2Proof/Config.lean ====
section
/-! DEFINITION. What a deployment or an implementation fixes (spec/00_scope.md R8, R9, R10), and the free
values: constants without a body that stand for what the environment draws or what the spec leaves undefined. -/

namespace Sys2Proof

/-- The two axes, selected by `sel` 0 and 1 (R31, R114). -/
inductive Axis where
  | yaw
  | pitch
deriving DecidableEq, Repr

/-- The value +1 or -1 of `AXCFG[a].SIGN` (R31, R192) and of `CAL_SIGN[a]` (R10, R195). -/
inductive Sign where
  | plus
  | minus
deriving DecidableEq, Repr

/-- The rounding of `100*d` to an integer, a configuration field over four modes (R193, decision D3). -/
inductive RawRound where
  | towardZero
  | nearestEven
  | nearestAway
  | towardMinusInf
deriving DecidableEq, Repr

/-- One entry of the axis configuration file `AXCFG` (R31). -/
structure AxisConfig where
  id : Byte
  min : Deg
  max : Deg
  center : Deg
  sign : Sign
deriving DecidableEq, Repr

/-- Everything a deployment fixes: sampled at reset and constant afterwards (R9, R10, R31; decision D37). -/
structure Deployment where
  /-- `AXCFG[YAW]` -/
  yaw : AxisConfig
  /-- `AXCFG[PITCH]` -/
  pitch : AxisConfig
  /-- `CAL_SIGN[YAW]`, open (R10, R195) -/
  calSignYaw : Sign
  /-- `CAL_SIGN[PITCH]`, open (R10, R195) -/
  calSignPitch : Sign
  /-- `RAW_ROUND` (R10, R193) -/
  rawRound : RawRound
  /-- `FREQ`, the host's tick frequency in Hz (R9) -/
  freq : Rat
  /-- `DEADBAND`, the host's threshold in degrees (R9) -/
  deadband : Deg
  /-- `T_SETTLE` in microseconds, open (R10, decision D18) -/
  tSettle : Nat
deriving DecidableEq, Repr

/-- The entry of one axis (R31). -/
def Deployment.axis (c : Deployment) : Axis → AxisConfig
  | .yaw => c.yaw
  | .pitch => c.pitch

/-- `CAL_SIGN[a]` (R195). -/
def Deployment.calSign (c : Deployment) : Axis → Sign
  | .yaw => c.calSignYaw
  | .pitch => c.calSignPitch

/-- The parameters the source fixes, in one record (R8). Durations are nominal values in microseconds
(R17, R312): the three waits are lower bounds, the read timeout bounds one read. -/
structure Params where
  nAxes : Nat := 2
  baud : Nat := 1500000
  dataBits : Nat := 8
  parityBits : Nat := 0
  stopBits : Nat := 1
  tReadTimeout : Nat := 100000
  tPostWrite : Nat := 50000
  tTorque : Nat := 100000
  tCmdGap : Nat := 1000
  readLen : Nat := 12
  minRspLen : Nat := 7
  rawLimit : Int := 8000
  rawPerDeg : Nat := 100
  addrTorqueMode : Byte := 0x28
  addrCurPos : Byte := 0x2C
  addrTgtPos : Byte := 0x2A
  dataFree : Byte := 0x02
  dataNormal : Byte := 0x00
deriving DecidableEq, Repr

/-- The values of R8. -/
def params : Params := {}

/-- The outcome of one write of the channel (R152): it succeeds, or it fails after `k` bytes reached the line. -/
inductive WriteDraw where
  | ok
  | fail (k : Nat)
deriving DecidableEq, Repr, Inhabited

/-- The outcome of one `MemWrite` (R77): done, or failed with the store then holding `left` (`none` is absent). -/
inductive SaveDraw where
  | ok
  | fail (left : Option (List Byte))
deriving DecidableEq, Repr, Inhabited

/-- The outcome of one `MemRead` of a present store: the whole string (R76), or a failure of the read, which the
ruling D20 of spec/92_eei_decisions.md makes malformed (log entry 4). -/
inductive ReadDraw where
  | whole
  | failed
deriving DecidableEq, Repr, Inhabited

/-- FREE VALUE (R151 `draw ok`): does the n-th draw open the channel. Log entry 3. -/
opaque Config.openDraw : Nat → Bool

/-- FREE VALUE (R152 `draw ok`, `draw k`): outcome of a write. Log entry 3. -/
opaque Config.writeDraw : Nat → WriteDraw

/-- FREE VALUE (R153, R158): the bytes that arrive during a read. Log entry 3. -/
opaque Config.arrivalDraw : Nat → List Byte

/-- FREE VALUE (R77 `draw r`, `draw c`): outcome of a save. Log entry 3. -/
opaque Config.saveDraw : Nat → SaveDraw

/-- FREE VALUE (R35): byte `i` of `RXBUF` at an offset at or beyond `RXLEN` after the n-th draw. Log entry 10. -/
opaque Config.rxTail : Nat → Nat → Byte

end Sys2Proof
end

