-- ==== Sys2Proof/Machine/Operands.lean ====
section
/-! DEFINITION. The pure arithmetic of the block: checksums and byte order (spec/00_scope.md R13,
spec/40_frame_codec.md R131, R132), clamps (R13), degree conversions (spec/43_axis_unit.md R193, R194), the
axis mapping (R191), the offset (R195) and the operand domains (spec/30_encoding.md R110, R114, R116). -/

namespace Sys2Proof.Machine

/-- The sum of the bytes modulo 256, zero for the empty string (R13). -/
def sum8 (s : List Byte) : Byte := s.foldl (fun acc b => acc + b) 0

/-- Bits 7:0 (R13). -/
def lo8 (v : Half) : Byte := v.setWidth 8

/-- Bits 15:8 (R13). -/
def hi8 (v : Half) : Byte := (v >>> 8).setWidth 8

/-- `lo + 256*hi` (R13). -/
def le16 (lo hi : Byte) : Half := hi ++ lo

/-- The two bytes of a position, low byte first (R107, R132). -/
def put16le (v : Half) : List Byte := [lo8 v, hi8 v]

/-- The signed position that two received bytes carry (R108, R132). -/
def get16le (lo hi : Byte) : Raw := (le16 lo hi).toInt

/-- A frame: the bytes and their checksum as the last byte (R109). -/
def withSum (p : List Byte) : List Byte := p ++ [sum8 p]

/-- `min(max(x, lo), hi)` on degrees (R13, decision D33). -/
def clampDeg (x lo hi : Deg) : Deg := min (max x lo) hi

/-- `min(max(x, lo), hi)` on raw positions (R13, R175). -/
def clampRaw (x lo hi : Raw) : Raw := min (max x lo) hi

/-- The factor +1 or -1 (R192, R195). -/
def signFactor : Sign → Rat
  | .plus => 1
  | .minus => -1

/-- Rounding of a rational to an integer under each of the four modes of R193. The numerator is signed, the
denominator positive; `/` on `Int` with a positive divisor rounds toward minus infinity. -/
def roundRaw (m : RawRound) (x : Rat) : Raw :=
  match m with
  | .towardZero => x.num.tdiv x.den
  | .towardMinusInf => x.num / x.den
  | .nearestEven =>
    let n : Int := x.num / x.den
    let twice : Int := 2 * (x.num - n * x.den)
    if twice < x.den then n
    else if twice = x.den ∧ n % 2 = 0 then n
    else n + 1
  | .nearestAway =>
    let a : Int := ((2 * x.num.natAbs + x.den) / (2 * x.den) : Nat)
    if x.num < 0 then -a else a

/-- `deg_to_raw` (R193): an unbounded integer. -/
def degToRaw (m : RawRound) (d : Deg) : Raw := roundRaw m (100 * d)

/-- `raw_to_deg` (R194): `raw / 100` exactly. -/
def rawToDeg (raw : Raw) : Deg := mkRat raw 100

/-- `CENTER + SIGN*d` clamped to `[MIN, MAX]` (R191). -/
def axisMap (c : AxisConfig) (d : Deg) : Deg :=
  clampDeg (c.center + signFactor c.sign * d) c.min c.max

/-- `d + CAL_SIGN*offset` (R195). -/
def applyOffset (sg : Sign) (offset d : Deg) : Deg := d + signFactor sg * offset

/-- The electrical clamp of `SETPOS` (R175, R205), on the integer, after the conversion. -/
def clampElectrical (q : Raw) : Raw := clampRaw q (-params.rawLimit) params.rawLimit

/-- The 16-bit position `SETPOS` sends for a device angle: convert, then clamp (R175). -/
def setposRaw (m : RawRound) (d : Deg) : Half := BitVec.ofInt 16 (clampElectrical (degToRaw m d))

/-- `sel`: 0 is YAW, 1 is PITCH, anything else is outside the domain (R114, R116). -/
def axisOfSel (sel : Byte) : Option Axis :=
  if sel = 0 then some .yaw else if sel = 1 then some .pitch else none

/-- The mode operand of `ENC_TQ` (R110, R114, R116). -/
inductive TorqueMode where
  | free
  | normal
deriving DecidableEq, Repr

/-- `mode`: 0x02 is Free, 0x00 is Normal, anything else is outside the domain (R110, R116). -/
def modeOfByte (b : Byte) : Option TorqueMode :=
  if b = params.dataFree then some .free
  else if b = params.dataNormal then some .normal
  else none

/-- The TQ data byte of a mode (R110). -/
def dataOfMode : TorqueMode → Byte
  | .free => params.dataFree
  | .normal => params.dataNormal

/-- Is a degree value a finite decimal fraction, the domain of `CAL_SV` (R199): its denominator divides a
power of ten, and then it divides ten to its own base-2 logarithm. -/
def finiteDecimal (q : Deg) : Bool := 10 ^ q.den.log2 % q.den == 0

end Sys2Proof.Machine
end

