-- ==== Sys2Proof/Syntax.lean ====
section
/-! DEFINITION. The instructions: one constructor per row of spec/opcode_table.json, in the table's order
(spec/30_encoding.md R102 to R105, R115), and the two forms in which one reaches the machine: a request
record at the command port (R114) or a frame on the line (R100). -/

namespace Sys2Proof

/-- One constructor per row of the opcode table. Operands are kept as the port or the wire carries them; the
operand domains (R116) are checked by the meanings. -/
inductive Instr where
  /-- frame TQ with data 0x02 (R102); the checksum byte is an operand, right or wrong -/
  | tqFree (id sum : Byte)
  /-- frame TQ with data 0x00 (R102) -/
  | tqNormal (id sum : Byte)
  /-- frame SP (R103) -/
  | sp (id lo hi sum : Byte)
  /-- frame RQ (R104) -/
  | rq (id sum : Byte)
  /-- frame RS, incoming: seven bytes and up to five of padding (R105) -/
  | rs (size cmd status id lo hi sum : Byte) (pad : List Byte)
  /-- 0x01 (R151) -/
  | bOpen
  /-- 0x02 (R155) -/
  | bClose
  /-- 0x03 (R154) -/
  | bFlush
  /-- 0x04 (R152) -/
  | bWrite (bytes : List Byte)
  /-- 0x05 (R153) -/
  | bRead (n : Byte)
  /-- 0x10 (R172) -/
  | tqOn (id : Byte)
  /-- 0x11 (R173) -/
  | tqOff (id : Byte)
  /-- 0x12 (R175) -/
  | setpos (id : Byte) (deg : Deg)
  /-- 0x13 (R176) -/
  | rdpos (id : Byte)
  /-- 0x20 (R191) -/
  | axMap (sel : Byte) (deg : Deg)
  /-- 0x21 (R195) -/
  | calApply (sel : Byte) (deg : Deg)
  /-- 0x22 (R193) -/
  | d2r (deg : Deg)
  /-- 0x23 (R194) -/
  | r2d (raw : Half)
  /-- 0x24 (R197) -/
  | calLd
  /-- 0x25 (R199) -/
  | calSv (deg deg2 : Deg)
  /-- 0x26 (R202) -/
  | calRun
  /-- 0x30 (R131) -/
  | csum (bytes : List Byte)
  /-- 0x31 (R133) -/
  | encTq (id mode : Byte)
  /-- 0x32 (R134) -/
  | encSp (id : Byte) (raw : Half)
  /-- 0x33 (R135) -/
  | encRd (id : Byte)
  /-- 0x34 (R136) -/
  | decRd (bytes : List Byte)
deriving DecidableEq, Repr

/-- A request at the command port (R114). The width of `sel` is not in the spec: 8 bits like `mode`, DESIGN
CHOICE (log entry 22). Byte strings longer than 255 cannot be expressed (R116); the decoder rejects them. -/
structure Request where
  op : Byte
  id : Byte := 0
  sel : Byte := 0
  mode : Byte := 0
  raw : Half := 0
  deg : Deg := 0
  deg2 : Deg := 0
  n : Byte := 0
  bytes : List Byte := []
deriving DecidableEq, Repr

/-- What an instruction is fetched as: a request at the command port, a whole outgoing frame handed to the
transmitter, or bytes that arrive on the line (log entry 20). -/
inductive Fetch where
  | request (r : Request)
  | outFrame (bytes : List Byte)
  | inFrame (bytes : List Byte)
deriving DecidableEq, Repr

end Sys2Proof
end

