-- ==== Sys2Proof/WellFormed.lean ====
section
/-! DEFINITION. Which instructions are well formed: the operand domains of spec/30_encoding.md R114, R116 and
the frame checksums of R109. An ill-formed operand of an operation is refused by its meaning with
`ILLEGAL_OPERAND` (R262); a frame with a wrong checksum is no frame of the spec (R100). -/

namespace Sys2Proof

open Machine

/-- The operand checks of one instruction. -/
def Instr.wf : Instr → Bool
  | .tqFree id sum => sum == sum8 [0x08, 0x04, 0x00, id, 0x02, 0x28, 0x01]
  | .tqNormal id sum => sum == sum8 [0x08, 0x04, 0x00, id, 0x00, 0x28, 0x01]
  | .sp id lo hi sum => sum == sum8 [0x09, 0x06, 0x00, id, lo, hi, 0x00, 0x00]
  | .rq id sum => sum == sum8 [0x07, 0x03, 0x00, id, 0x2C, 0x02]
  | .rs _ _ _ _ _ _ _ pad => decide (pad.length ≤ 5)
  | .bOpen => true
  | .bClose => true
  | .bFlush => true
  | .bWrite bytes => decide (bytes.length ≤ 255)
  | .bRead _ => true
  | .tqOn _ => true
  | .tqOff _ => true
  | .setpos _ _ => true
  | .rdpos _ => true
  | .axMap sel _ => (axisOfSel sel).isSome
  | .calApply sel _ => (axisOfSel sel).isSome
  | .d2r _ => true
  | .r2d _ => true
  | .calLd => true
  | .calSv deg deg2 => finiteDecimal deg && finiteDecimal deg2
  | .calRun => true
  | .csum bytes => decide (bytes.length ≤ 255)
  | .encTq _ mode => (modeOfByte mode).isSome
  | .encSp _ _ => true
  | .encRd _ => true
  | .decRd bytes => decide (bytes.length ≤ 255)

/-- A well-formed instruction. -/
abbrev WellFormed (i : Instr) : Prop := i.wf = true

end Sys2Proof
end

