-- ==== Sys2Proof/Decode.lean ====
section
/-! DEFINITION. The decoder, total on every request and every byte string and rejecting by name, and the
encoder after it (spec/30_encoding.md R102 to R105, R115, R116, R119; spec/opcode_table.json). -/

namespace Sys2Proof

/-- Why a fetched item is no instruction. -/
inductive DecodeError where
  /-- a reserved `op` (R116): the block answers `ILLEGAL_OP` -/
  | illegalOp (op : Byte)
  /-- a byte string longer than 255, which the record cannot express (R116) -/
  | bytesTooLong (len : Nat)
  /-- bytes that are none of the four outgoing layouts (R101) -/
  | notAFrame
  /-- arrived bytes that are fewer than 7 (R105) -/
  | shortResponse (len : Nat)
  /-- arrived bytes beyond the table's 12 (R105) -/
  | longResponse (len : Nat)
deriving DecidableEq, Repr

/-- A byte string the record can express (R116). -/
def checkBytes (b : List Byte) (i : Instr) : Except DecodeError Instr :=
  if b.length ≤ 255 then .ok i else .error (.bytesTooLong b.length)

/-- The command port: the operation codes of R115; fields an operation does not use are ignored. -/
def decodeRequest (r : Request) : Except DecodeError Instr :=
  match r.op.toNat with
  | 0x01 => .ok .bOpen
  | 0x02 => .ok .bClose
  | 0x03 => .ok .bFlush
  | 0x04 => checkBytes r.bytes (.bWrite r.bytes)
  | 0x05 => .ok (.bRead r.n)
  | 0x10 => .ok (.tqOn r.id)
  | 0x11 => .ok (.tqOff r.id)
  | 0x12 => .ok (.setpos r.id r.deg)
  | 0x13 => .ok (.rdpos r.id)
  | 0x20 => .ok (.axMap r.sel r.deg)
  | 0x21 => .ok (.calApply r.sel r.deg)
  | 0x22 => .ok (.d2r r.deg)
  | 0x23 => .ok (.r2d r.raw)
  | 0x24 => .ok .calLd
  | 0x25 => .ok (.calSv r.deg r.deg2)
  | 0x26 => .ok .calRun
  | 0x30 => checkBytes r.bytes (.csum r.bytes)
  | 0x31 => .ok (.encTq r.id r.mode)
  | 0x32 => .ok (.encSp r.id r.raw)
  | 0x33 => .ok (.encRd r.id)
  | 0x34 => checkBytes r.bytes (.decRd r.bytes)
  | _ => .error (.illegalOp r.op)

/-- A frame row of the table: match and mask, offset 0 first (R119). -/
structure FrameRow where
  pat : List Byte
  mask : List Byte
deriving DecidableEq, Repr

/-- Row `TQ_FREE`. -/
def rowTqFree : FrameRow :=
  ⟨[0x08, 0x04, 0x00, 0x00, 0x02, 0x28, 0x01, 0x00], [0xFF, 0xFF, 0xFF, 0x00, 0xFF, 0xFF, 0xFF, 0x00]⟩

/-- Row `TQ_NORMAL`. -/
def rowTqNormal : FrameRow :=
  ⟨[0x08, 0x04, 0x00, 0x00, 0x00, 0x28, 0x01, 0x00], [0xFF, 0xFF, 0xFF, 0x00, 0xFF, 0xFF, 0xFF, 0x00]⟩

/-- Row `SP`. -/
def rowSp : FrameRow :=
  ⟨[0x09, 0x06, 0x00, 0x00, 0x00, 0x00, 0x00, 0x00, 0x00],
   [0xFF, 0xFF, 0xFF, 0x00, 0x00, 0x00, 0xFF, 0xFF, 0x00]⟩

/-- Row `RQ`. -/
def rowRq : FrameRow :=
  ⟨[0x07, 0x03, 0x00, 0x00, 0x2C, 0x02, 0x00], [0xFF, 0xFF, 0xFF, 0x00, 0xFF, 0xFF, 0x00]⟩

/-- Do the bytes have the row's length and its fixed bits (R119). -/
def FrameRow.fits (row : FrameRow) (bs : List Byte) : Bool :=
  bs.length == row.pat.length && (List.zipWith (fun b m => b &&& m) bs row.mask == row.pat)

/-- An outgoing frame, by the table's match and mask. The checksum byte is carried as an operand: the
transport does not inspect it (R152). -/
def decodeOut (bs : List Byte) : Except DecodeError Instr :=
  if rowTqFree.fits bs then .ok (.tqFree (bs.getD 3 0) (bs.getD 7 0))
  else if rowTqNormal.fits bs then .ok (.tqNormal (bs.getD 3 0) (bs.getD 7 0))
  else if rowSp.fits bs then .ok (.sp (bs.getD 3 0) (bs.getD 4 0) (bs.getD 5 0) (bs.getD 8 0))
  else if rowRq.fits bs then .ok (.rq (bs.getD 3 0) (bs.getD 6 0))
  else .error .notAFrame

/-- A response: 7 to 12 bytes, no byte value fixed (R105). -/
def decodeIn (bs : List Byte) : Except DecodeError Instr :=
  if bs.length < 7 then .error (.shortResponse bs.length)
  else if 12 < bs.length then .error (.longResponse bs.length)
  else
    .ok (.rs (bs.getD 0 0) (bs.getD 1 0) (bs.getD 2 0) (bs.getD 3 0) (bs.getD 4 0) (bs.getD 5 0)
      (bs.getD 6 0) (bs.drop 7))

/-- The decoder: what a fetched item stands for, or why it is no instruction. -/
def decode : Fetch → Except DecodeError Instr
  | .request r => decodeRequest r
  | .outFrame bs => decodeOut bs
  | .inFrame bs => decodeIn bs

/-- The encoder: frames by the layouts of R102 to R105, requests by the codes and fields of R115 with the
unused fields zero. -/
def encode : Instr → Fetch
  | .tqFree id sum => .outFrame [0x08, 0x04, 0x00, id, 0x02, 0x28, 0x01, sum]
  | .tqNormal id sum => .outFrame [0x08, 0x04, 0x00, id, 0x00, 0x28, 0x01, sum]
  | .sp id lo hi sum => .outFrame [0x09, 0x06, 0x00, id, lo, hi, 0x00, 0x00, sum]
  | .rq id sum => .outFrame [0x07, 0x03, 0x00, id, 0x2C, 0x02, sum]
  | .rs size cmd status id lo hi sum pad => .inFrame ([size, cmd, status, id, lo, hi, sum] ++ pad)
  | .bOpen => .request { op := 0x01 }
  | .bClose => .request { op := 0x02 }
  | .bFlush => .request { op := 0x03 }
  | .bWrite bytes => .request { op := 0x04, bytes := bytes }
  | .bRead n => .request { op := 0x05, n := n }
  | .tqOn id => .request { op := 0x10, id := id }
  | .tqOff id => .request { op := 0x11, id := id }
  | .setpos id deg => .request { op := 0x12, id := id, deg := deg }
  | .rdpos id => .request { op := 0x13, id := id }
  | .axMap sel deg => .request { op := 0x20, sel := sel, deg := deg }
  | .calApply sel deg => .request { op := 0x21, sel := sel, deg := deg }
  | .d2r deg => .request { op := 0x22, deg := deg }
  | .r2d raw => .request { op := 0x23, raw := raw }
  | .calLd => .request { op := 0x24 }
  | .calSv deg deg2 => .request { op := 0x25, deg := deg, deg2 := deg2 }
  | .calRun => .request { op := 0x26 }
  | .csum bytes => .request { op := 0x30, bytes := bytes }
  | .encTq id mode => .request { op := 0x31, id := id, mode := mode }
  | .encSp id raw => .request { op := 0x32, id := id, raw := raw }
  | .encRd id => .request { op := 0x33, id := id }
  | .decRd bytes => .request { op := 0x34, bytes := bytes }

/-- The first `k` bytes of `w`, bits 7..0 first: offset 0 of a frame, or the `op` of a request, is the first
word (log entry 21). -/
def wordBytes : Nat → Nat → List Byte
  | 0, _ => []
  | k + 1, w => BitVec.ofNat 8 w :: wordBytes k (w / 256)

/-- What a table word is fetched as: one byte is the `op` of a request whose other fields are zero (R119
`CMD`); seven bytes or more are a frame, an outgoing layout before the response, which fixes no byte. -/
def fetchOfWord (nbits w : Nat) : Fetch :=
  if nbits ≤ 8 then .request { op := BitVec.ofNat 8 w }
  else
    let bs := wordBytes (nbits / 8) w
    match decodeOut bs with
    | .ok _ => .outFrame bs
    | .error _ => .inFrame bs

/-- The instruction the decoder reads from a table word. -/
def decodeTableWord (nbits w : Nat) : Option Instr :=
  match decode (fetchOfWord nbits w) with
  | .ok i => some i
  | .error _ => none

end Sys2Proof
end

