-- ==== Sys2Proof/Machine/CalText.lean ====
section
/-! DEFINITION. The text of the calibration store: the grammar `parse_cal` accepts (spec/43_axis_unit.md R198)
and the canonical text `fmt_cal` writes (R200). -/

namespace Sys2Proof.Machine

/-- LF, the line separator (R198). -/
def lf : Byte := 0x0A

/-- SP or HT (R198). -/
def isBlank (b : Byte) : Bool := b == 0x20 || b == 0x09

/-- One of "0".."9" (R198). -/
def isDigit (b : Byte) : Bool := decide (0x30 ≤ b.toNat) && decide (b.toNat ≤ 0x39)

/-- The number a string of digits denotes. -/
def digitsValue (l : List Byte) : Nat := l.foldl (fun acc b => 10 * acc + (b.toNat - 0x30)) 0

/-- An optional sign in front: is it "-", and what follows (R198 `SIGN?`). -/
def takeSign : List Byte → Bool × List Byte
  | [] => (false, [])
  | b :: t => if b = 0x2D then (true, t) else if b = 0x2B then (false, t) else (false, b :: t)

/-- `EXP?` up to the end of the line (R198): the exponent, zero when there is none. -/
def parseExp : List Byte → Option Int
  | [] => some 0
  | b :: t =>
    if b = 0x65 ∨ b = 0x45 then
      let r := takeSign t
      if r.2 ≠ [] ∧ r.2.all isDigit then
        some (if r.1 then -(digitsValue r.2 : Int) else (digitsValue r.2 : Int))
      else none
    else none

/-- `MANT` (R198): the digits as one integer, how many of them stand after the point, and what follows. -/
def parseMant (l : List Byte) : Option (Nat × Nat × List Byte) :=
  let whole := l.takeWhile isDigit
  match l.dropWhile isDigit with
  | [] => if whole = [] then none else some (digitsValue whole, 0, [])
  | b :: t =>
    if b = 0x2E then
      let frac := t.takeWhile isDigit
      if whole = [] ∧ frac = [] then none
      else some (digitsValue (whole ++ frac), frac.length, t.dropWhile isDigit)
    else if whole = [] then none
    else some (digitsValue whole, 0, b :: t)

/-- `m * 10^e` exactly (R198 `value`). -/
def scale10 (m : Int) (e : Int) : Rat :=
  if 0 ≤ e then ((m * 10 ^ e.toNat : Int) : Rat) else mkRat m (10 ^ (-e).toNat)

/-- `NUMBER` (R198): the exact value of a whole line, or `none`. -/
def parseNumber (l : List Byte) : Option Deg :=
  let sg := takeSign l
  match parseMant sg.2 with
  | none => none
  | some (m, k, rest) =>
    match parseExp rest with
    | none => none
    | some e => some (scale10 (if sg.1 then -(m : Int) else (m : Int)) (e - k))

/-- One trailing CR removed (R198). -/
def dropCr (l : List Byte) : List Byte := if l.getLast? = some 0x0D then l.dropLast else l

/-- Leading and trailing SP and HT removed (R198). -/
def trimBlank (l : List Byte) : List Byte :=
  (((l.dropWhile isBlank).reverse).dropWhile isBlank).reverse

/-- One of the first two lines of the store (R198). -/
def parseLine (l : List Byte) : Option Deg := parseNumber (trimBlank (dropCr l))

/-- The bytes before the first LF. -/
def firstLine (m : List Byte) : List Byte := m.takeWhile (fun b => b != lf)

/-- The bytes after the first LF, `none` when there is no LF. -/
def afterLine (m : List Byte) : Option (List Byte) :=
  match m.dropWhile (fun b => b != lf) with
  | [] => none
  | _ :: t => some t

/-- `parse_cal` (R198): two numbers from the first two lines, later lines ignored. -/
def parseCal (m : List Byte) : Option (Deg × Deg) :=
  match afterLine m with
  | none => none
  | some rest =>
    match parseLine (firstLine m), parseLine (firstLine rest) with
    | some y, some p => some (y, p)
    | _, _ => none

/-- The last `k` decimal digits of `n`, leading zeros kept. -/
def fixedDigits : Nat → Nat → List Byte
  | 0, _ => []
  | k + 1, n => fixedDigits k (n / 10) ++ [BitVec.ofNat 8 (0x30 + n % 10)]

/-- How many decimal digits `n` has, at least one; the first argument bounds the search. -/
def digitCount : Nat → Nat → Nat
  | 0, _ => 1
  | f + 1, n => if n < 10 then 1 else 1 + digitCount f (n / 10)

/-- `n` in decimal without leading zeros, "0" for zero (R200). -/
def natDigits (n : Nat) : List Byte := fixedDigits (digitCount (n.log2 + 1) n) n

/-- The least number of fractional digits, from `k` on, that makes a value with this denominator exact. -/
def fracLenFrom (den : Nat) : Nat → Nat → Nat
  | 0, k => k
  | f + 1, k => if 10 ^ k % den = 0 then k else fracLenFrom den f (k + 1)

/-- As many fractional digits as are needed to be exact, at least one (R200). -/
def fracLen (d : Deg) : Nat := max 1 (fracLenFrom d.den d.den.log2 0)

/-- `fmt_cal` (R200): the canonical text of one offset. -/
def fmtCal (d : Deg) : List Byte :=
  let k := fracLen d
  let n := d.num.natAbs * 10 ^ k / d.den
  (if d < 0 then [0x2D] else []) ++ natDigits (n / 10 ^ k) ++ [0x2E] ++ fixedDigits k n

/-- The canonical store of a pair (R199, R200). -/
def calText (y p : Deg) : List Byte := fmtCal y ++ [lf] ++ fmtCal p ++ [lf]

end Sys2Proof.Machine
end

