-- ==== Sys2Proof/Machine/Memory.lean ====
section
/-! DEFINITION. The byte-addressed space the block reaches: the registers inside the daisy-chained actuators,
an 8-bit address inside the actuator that a frame's id byte selects (spec/10_state.md R50, R52;
spec/20_memory.md R70, R72, R84). A cell that is not listed is unknown (R55: "unknown to the block"). -/

namespace Sys2Proof.Machine

/-- Cells (address, byte) with strictly rising addresses. -/
abbrev Memory := List Host.Cell

/-- The flat address of register `reg` of actuator `id` (R84: the id byte is the only segment). -/
def regAddr (id reg : Byte) : Nat := 256 * id.toNat + reg.toNat

/-- What is known of one byte; an unlisted one is unknown. -/
def Memory.read (m : Memory) (a : Nat) : Option Byte :=
  match m with
  | [] => none
  | (b, v) :: t => if a = b then some v else Memory.read t a

/-- Makes one byte known. -/
def Memory.write (m : Memory) (a : Nat) (v : Byte) : Memory :=
  match m with
  | [] => [(a, v)]
  | (b, w) :: t =>
    if a < b then (a, v) :: (b, w) :: t
    else if a = b then (a, v) :: t
    else (b, w) :: Memory.write t a v

/-- Makes one byte unknown. -/
def Memory.erase (m : Memory) (a : Nat) : Memory :=
  match m with
  | [] => []
  | (b, w) :: t => if a = b then Memory.erase t a else (b, w) :: Memory.erase t a

/-- The canonical form: strictly rising addresses of the 2^16 bytes that ids and register addresses reach. -/
abbrev Memory.wf (m : Memory) : Prop :=
  m.Pairwise (fun x y => x.1 < y.1) ∧ ∀ c ∈ m, c.1 < 65536

end Sys2Proof.Machine
end

