-- ==== Sys2Proof/Machine/State.lean ====
section
/-! DEFINITION. The state: everything spec/10_state.md gives the block, the environment and the host, as plain
data, the records of the output channels, the events a run consumes, and the state after reset (R55). -/

namespace Sys2Proof.Machine

/-- Phases of the sequencer `SEQ` (R40, R41). -/
inductive Phase where
  | idle | exec | opening | closing | flushing | writing | reading
  | tqEncFree | tqWrFree | tqWait | tqEncNormal | tqWrNormal
  | spConv | spClamp | spEnc | spWrite
  | rdFlush | rdEnc | rdWrite | rdWait | rdRead | rdDecode
  | clRead | clParse | clCommit
  | csFormat | csWrite
  | crYaw | crPitch | crCommit
deriving DecidableEq, Repr

/-- `CAL_STATUS` (R45). -/
inductive CalStatus where
  | notLoaded | loaded | absent | malformed
deriving DecidableEq, Repr

/-- The causes of R251, in the order of their codes 0 to 14. -/
inductive Cause where
  | none | transportOpenFailure | shortResponse | calFileMissing | calFileMalformed | calSaveFailure
  | poseSourceFailure | unhandledLoopException | busWriteFailure | busNotOpen | illegalOp | illegalOperand
  | gapViolation | calibrationFailed | busAlreadyOpen
deriving DecidableEq, Repr

/-- Which rule of use a write broke. -/
inductive GapKind where
  /-- less than `T_CMD_GAP` is known to have passed since the last byte written (R301) -/
  | spacing
  /-- a read request is on the line with no read or flush after it (R300) -/
  | window
deriving DecidableEq, Repr

/-- The model's faults. The one there is, `GAP_VIOLATION` (code 12, R251, R261), is RECORDED in `State.faults` by
`busWrite`; the step goes on, as spec/93_implementation_defined.md U9 says of the block's own state, and a run with
a record carries no guarantee (Safety.lean). Safe: everything known of the actuators is dropped with it. -/
inductive Fault where
  /-- raised by `busWrite` (recorded, never an end of the step); safe, see above -/
  | gapViolation (why : GapKind)
deriving DecidableEq, Repr

/-- What the step gives no meaning to. -/
inductive Refusal where
  /-- raised by `exec` for an instruction that has no meaning yet; safe -/
  | notModelled (mnemonic : String)
  /-- raised by the step on a request whose byte string is longer than 255, which the port cannot express
  (R116); safe: there is no such request -/
  | inexpressible
  /-- raised by the step on bytes fetched as an outgoing frame that are none of the four layouts; raw bytes go
  through `B_WRITE` (R113); safe -/
  | notAFrame
  /-- raised by the step in a state whose `SEQ` is not `IDLE`: nothing is accepted then (R42, U15); safe: no
  run reaches such a state -/
  | busy
deriving DecidableEq, Repr

/-- The result fields of a response record and its `kind` (R114): one constructor per kind. -/
inductive Result where
  | none
  | raw (v : Raw)
  | deg (d : Deg)
  | degPair (y p : Deg)
  | bytes (b : List Byte)
  | absentValue
deriving DecidableEq, Repr

/-- A response record (R114): the `STATUS` view (R48), this operation's cause code, the result. -/
structure Response where
  status : BitVec 16
  err : Cause
  result : Result
deriving DecidableEq, Repr

/-- Levels of the log channel (R272). -/
inductive LogLevel where
  | info
  | warning
deriving DecidableEq, Repr

/-- Events of the log channel with their payload (R272). -/
inductive LogEvent where
  | calFileMissing
  | calFileMalformed
  | shortResponse (id : Byte) (received : Nat)
  | writeFailed (id : Byte)
  | calSaveFailed
  | calibrationFailed (yawNone pitchNone : Bool)
deriving DecidableEq, Repr

/-- A log record (R272). -/
structure LogRecord where
  level : LogLevel
  event : LogEvent
deriving DecidableEq, Repr

/-- The wire history (R51): every frame written, flush, read with its bytes, open and close, in order, and the
waits as ordering events (R312). -/
inductive WireEvent where
  | opened
  | openFailed
  | closed
  /-- bytes that reached the line, contiguous and in order -/
  | wrote (bytes : List Byte)
  /-- the bytes of a failed write that reached the line (R152) -/
  | cut (bytes : List Byte)
  | flushed
  | readBack (asked : Nat) (bytes : List Byte)
  /-- at least this many microseconds passed -/
  | waited (us : Nat)
deriving DecidableEq, Repr

/-- `TMR_DELAY`, `TMR_RTO` (R51, R269). -/
inductive Timer where
  | stopped
  | running (bound : Nat)
deriving DecidableEq, Repr

/-- `TMR_GAP` (R51, R269): expired, or at least so many microseconds since the last byte written. -/
inductive GapTimer where
  | expired
  | since (us : Nat)
deriving DecidableEq, Repr

/-- The environment's choices still to come, an input; where a list is empty the choice is a free value of Config
(log entry 3), but for `reads`, where it is the whole store (log entry 4). -/
structure EnvScript where
  opens : List Bool
  writes : List WriteDraw
  arrivals : List (List Byte)
  saves : List SaveDraw
  reads : List ReadDraw
deriving DecidableEq, Repr

/-- `LOOP` (R53, R220). -/
inductive LoopPhase where
  | initializing
  | running
  | shuttingDown
deriving DecidableEq, Repr

/-- `ControlSample` (R53, R226); the timestamp is carried and unused. -/
structure ControlSample where
  yaw : Deg
  pitch : Deg
  timestamp : Rat
deriving DecidableEq, Repr

/-- The outcome of one poll of the Pose Source (R226). -/
inductive Pose where
  | failure
  | sample (c : ControlSample)
deriving DecidableEq, Repr

/-- The host's own log: a failed shutdown step (R232) and the message of a fatal open failure (R272). -/
inductive HostLog where
  | stepFailed (op : Byte) (err : Cause)
  | openFatal
deriving DecidableEq, Repr

/-- What the issuer does when an operation it issued ends with an error in its response. -/
inductive Guard where
  /-- nothing: the response stands for the caller to read -/
  | report
  /-- abort start-up (R223, a failed `B_OPEN`) -/
  | abort
  /-- go to `ShuttingDown` (R223, R231) -/
  | shutdown
  /-- log and continue (R232) -/
  | logContinue
deriving DecidableEq, Repr

/-- One action of the host's current plan (spec/48_host_control_loop.md). -/
inductive HostAct where
  | issue (r : Request) (g : Guard)
  | wait (us : Nat)
  /-- the deadband test of a tick, and what follows it (R225, R227) -/
  | decide (c : ControlSample) (elapsed : Nat)
  /-- `LoopState <- (y, p)` (R224, R228) -/
  | commit (y p : Deg)
  /-- `LOOP <- Running` (R222) -/
  | enterRunning
  /-- end of the shutdown: exit or re-raise (R232, R233) -/
  | exit
deriving DecidableEq, Repr

/-- Host-owned state (R53); the last five fields are the model's (log entries 29 and 48). -/
structure HostState where
  loop : LoopPhase
  loopState : Option (Deg × Deg)
  stopFlag : Bool
  sample : Option ControlSample
  started : Bool
  ended : Bool
  error : Option Cause
  log : List HostLog
  /-- the actions of the current plan still to come -/
  plan : List HostAct
deriving DecidableEq, Repr

/-- Pseudo-operations of R118: sequences the host issues. -/
inductive Pseudo where
  | recenter
  | torqueAllOn
  | torqueAllOff
  | target (a : Axis) (d : Deg)
deriving DecidableEq, Repr

/-- One event of a run. -/
inductive Event where
  /-- an instruction is presented -/
  | present (f : Fetch)
  /-- `WAIT T` in microseconds (R117): the issuer lets time pass -/
  | wait (us : Nat)
  /-- the outside writer replaces the store, between runs only (R18, R75) -/
  | storeEdit (c : Option (List Byte))
  /-- the host issues a pseudo-operation (R118) -/
  | pseudo (p : Pseudo)
  /-- the operator's calibration action: the host issues `CAL_RUN` (R236) -/
  | calibrate
  /-- the host starts its loop: `Initializing` (R222) -/
  | hostStart
  /-- one tick: the poll's outcome and the microseconds its processing took (R225, R229) -/
  | hostTick (pose : Pose) (elapsed : Nat)
  /-- a stop request is latched (R230, R263) -/
  | hostStop
  /-- an exception of the host's own code escapes `Running`, in the middle of a tick too (R231) -/
  | hostException
  /-- MODEL: the host takes one action of its plan before the events that follow (log entry 48) -/
  | proceed
deriving DecidableEq, Repr

/-- The machine's state. -/
@[ext]
structure State where
  /-- `AXCFG`, `CAL_SIGN`, `RAW_ROUND` and the host's parameters: configuration inputs (R31, R9, R10) -/
  cfg : Deployment
  /-- `CALOFF.YAW` (R33) -/
  caloffYaw : Deg
  /-- `CALOFF.PITCH` (R33) -/
  caloffPitch : Deg
  /-- `TXBUF[0..8]` (R34) -/
  txbuf : List Byte
  /-- `TXLEN` (R34) -/
  txlen : Nat
  /-- `RXBUF[0..11]` (R35) -/
  rxbuf : List Byte
  /-- `RXLEN` (R35) -/
  rxlen : Nat
  /-- `SEQ` (R40) -/
  seq : Phase
  /-- MODEL: the phases the last accepted operation walked (log entry 28) -/
  seqTrace : List Phase
  /-- `BUS_OPEN` (R43) -/
  busOpen : Bool
  /-- `RSP_SHORT` (R44) -/
  rspShort : Bool
  /-- `POS_VALID` (R44) -/
  posValid : Bool
  /-- `CAL_STATUS` (R45) -/
  calStatus : CalStatus
  /-- `SAVE_FAIL` (R46) -/
  saveFail : Bool
  /-- `CAL_FAIL` (R46) -/
  calFail : Bool
  /-- `ERR` (R47) -/
  err : Cause
  /-- `RXQ`, oldest first (R51, R73) -/
  rxq : List Byte
  /-- `TXQ`, oldest first (R51, R73) -/
  txq : List Byte
  /-- `TMR_DELAY` (R269) -/
  tmrDelay : Timer
  /-- `TMR_RTO` (R269) -/
  tmrRto : Timer
  /-- `TMR_GAP` (R269) -/
  tmrGap : GapTimer
  /-- `CALMEM`: `none` is absent (R75) -/
  calmem : Option (List Byte)
  /-- the actuators' registers, as far as they are known (R52, R72) -/
  actMem : Memory
  /-- the response port: the record last delivered (R114) -/
  resp : Option Response
  /-- the log channel (R272) -/
  log : List LogRecord
  /-- the wire history (R51) -/
  wire : List WireEvent
  /-- the model's fault record (R251, R261) -/
  faults : List Fault
  /-- MODEL: a read request on the line awaits its read (R300, log entry 17) -/
  rqWindow : Bool
  /-- MODEL: only whole, well-spaced frames have reached the line since reset (log entries 14 and 41) -/
  lineClean : Bool
  /-- MODEL: the environment's scripted choices (log entry 3) -/
  env : EnvScript
  /-- MODEL: index of the next free value (log entries 3 and 10) -/
  draws : Nat
  /-- MODEL: the events still to come (log entry 2) -/
  inbox : List Event
  /-- the host (R53) -/
  host : HostState
deriving DecidableEq, Repr

/-- An axis configuration that keeps the invariant of R31. -/
def AxisConfig.ok (c : AxisConfig) : Bool := decide (c.min ≤ c.center) && decide (c.center ≤ c.max)

/-- The configuration check at reset (R293), with the constraints of R9 on the host's parameters. -/
def Deployment.ok (c : Deployment) : Bool :=
  AxisConfig.ok c.yaw && AxisConfig.ok c.pitch && (c.yaw.id != c.pitch.id) &&
    decide (0 < c.freq) && decide (0 ≤ c.deadband)

/-- An empty script. -/
def EnvScript.empty : EnvScript :=
  { opens := [], writes := [], arrivals := [], saves := [], reads := [] }

/-- The host before it starts (R55). -/
def HostState.initial : HostState :=
  { loop := .initializing, loopState := none, stopFlag := false, sample := none, started := false,
    ended := false, error := none, log := [], plan := [] }

/-- The state after reset under a configuration, with the store as it is, which reset does not touch, and the
actuators' registers unknown to the block (R55, R290, R291). DESIGN CHOICE, log entry 41: `lineClean` starts true, so
the actuators' reception is taken to be in step although an earlier run may have left a cut frame on the line; the
spec does not say. -/
def State.powerOn (c : Deployment) (store : Option (List Byte)) : State :=
  { cfg := c
    caloffYaw := 0, caloffPitch := 0
    txbuf := List.replicate 9 0, txlen := 0
    rxbuf := List.replicate 12 0, rxlen := 0
    seq := .idle, seqTrace := []
    busOpen := false, rspShort := false, posValid := false
    calStatus := .notLoaded, saveFail := false, calFail := false, err := .none
    rxq := [], txq := []
    tmrDelay := .stopped, tmrRto := .stopped, tmrGap := .expired
    calmem := store, actMem := []
    resp := none, log := [], wire := [], faults := []
    rqWindow := false, lineClean := true
    env := EnvScript.empty, draws := 0, inbox := []
    host := HostState.initial }

/-- Reset with configuration inputs: a configuration that breaks the invariant has no initial state (R293). -/
def State.resetWith (c : Deployment) (store : Option (List Byte)) : Option State :=
  if Deployment.ok c then some (State.powerOn c store) else none

/-- One axis in setting B of R32, sign +1. -/
def axisSettingB (id : Byte) : AxisConfig := { id := id, min := -80, max := 80, center := 0, sign := .plus }

/-- The configuration inputs the reset state names: setting B on both axes, ids 0 and 1. DESIGN CHOICE, log
entries 5 to 8: the spec gives no default. -/
def exampleDeployment : Deployment :=
  { yaw := axisSettingB 0, pitch := axisSettingB 1, calSignYaw := .plus, calSignPitch := .plus,
    rawRound := .towardZero, freq := 50, deadband := 1 / 2, tSettle := 1000 }

/-- The machine right after reset (R55): the example configuration, an absent store, actuators unknown (log
entries 5 to 9 and 11). -/
def State.reset : State := State.powerOn exampleDeployment none

end Sys2Proof.Machine
end

