-- ==== Sys2Proof/Machine/Flags.lean ====
section
/-! DEFINITION. The numeric codes of the flags, the read-only `STATUS` view (spec/10_state.md R45, R48), the
cause codes (spec/60_exceptions.md R251) and the register numbers of R49. -/

namespace Sys2Proof.Machine

/-- The code of a cause (R251). -/
def causeCode : Cause → BitVec 4
  | .none => 0
  | .transportOpenFailure => 1
  | .shortResponse => 2
  | .calFileMissing => 3
  | .calFileMalformed => 4
  | .calSaveFailure => 5
  | .poseSourceFailure => 6
  | .unhandledLoopException => 7
  | .busWriteFailure => 8
  | .busNotOpen => 9
  | .illegalOp => 10
  | .illegalOperand => 11
  | .gapViolation => 12
  | .calibrationFailed => 13
  | .busAlreadyOpen => 14

/-- The four refusals of R262. -/
def Cause.isRefusal : Cause → Bool
  | .busNotOpen | .illegalOp | .illegalOperand | .busAlreadyOpen => true
  | _ => false

/-- The 2-bit code of `CAL_STATUS` (R45). -/
def calStatusCode : CalStatus → BitVec 2
  | .notLoaded => 0
  | .loaded => 1
  | .absent => 2
  | .malformed => 3

/-- `STATUS` (R48), bit 15 leftmost: four zeros, `ERR`, `CAL_FAIL`, `SAVE_FAIL`, `CAL_STATUS`, `POS_VALID`,
`RSP_SHORT`, `BUSY`, `BUS_OPEN`. -/
def State.statusWord (s : State) : BitVec 16 :=
  (0 : BitVec 4) ++ causeCode s.err ++ BitVec.ofBool s.calFail ++ BitVec.ofBool s.saveFail ++
    calStatusCode s.calStatus ++ BitVec.ofBool s.posValid ++ BitVec.ofBool s.rspShort ++
    BitVec.ofBool (s.seq != .idle) ++ BitVec.ofBool s.busOpen

/-- The level of each log event (R272). -/
def LogEvent.level : LogEvent → LogLevel
  | .calFileMissing | .calFileMalformed => .info
  | .shortResponse _ _ | .writeFailed _ | .calSaveFailed | .calibrationFailed _ _ => .warning

/-- What a register of R49 holds. -/
inductive RegValue where
  | bits (v : Nat)
  | deg (d : Deg)
  | sign (s : Sign)
  | phase (p : Phase)
deriving DecidableEq, Repr

/-- The registers by the numbers of R49, for tools: no operation takes a register number. -/
def State.register (s : State) : Nat → Option RegValue
  | 0 => some (.bits s.statusWord.toNat)
  | 1 => some (.bits s.cfg.yaw.id.toNat)
  | 2 => some (.deg s.cfg.yaw.min)
  | 3 => some (.deg s.cfg.yaw.max)
  | 4 => some (.deg s.cfg.yaw.center)
  | 5 => some (.sign s.cfg.yaw.sign)
  | 6 => some (.bits s.cfg.pitch.id.toNat)
  | 7 => some (.deg s.cfg.pitch.min)
  | 8 => some (.deg s.cfg.pitch.max)
  | 9 => some (.deg s.cfg.pitch.center)
  | 10 => some (.sign s.cfg.pitch.sign)
  | 11 => some (.deg s.caloffYaw)
  | 12 => some (.deg s.caloffPitch)
  | 13 => some (.bits s.txlen)
  | 14 => some (.bits s.rxlen)
  | 15 => some (.phase s.seq)
  | _ => none

end Sys2Proof.Machine
end

