-- ==== Sys2Proof/Machine/Frames.lean ====
section
/-! DEFINITION. The frames the block builds and the response it parses, as pure functions of their operands
(spec/40_frame_codec.md R133 to R136; layouts spec/30_encoding.md R102 to R105). -/

namespace Sys2Proof.Machine

/-- `ENC_TQ`: `08 04 00 id data 28 01 sum` (R102, R133). -/
def frameTq (id : Byte) (m : TorqueMode) : List Byte :=
  withSum [0x08, 0x04, 0x00, id, dataOfMode m, params.addrTorqueMode, 0x01]

/-- `ENC_SP`: `09 06 00 id lo hi 00 00 sum`, no clamp (R103, R134). -/
def frameSp (id : Byte) (raw : Half) : List Byte :=
  withSum ([0x09, 0x06, 0x00, id] ++ put16le raw ++ [0x00, 0x00])

/-- `ENC_RD`: `07 03 00 id 2C 02 sum` (R104, R135). -/
def frameRd (id : Byte) : List Byte :=
  withSum [0x07, 0x03, 0x00, id, params.addrCurPos, 0x02]

/-- `DEC_RD`: the position at offsets 4 and 5 of a string of at least 7 bytes; the length is the only test
(R105, R136). `none` is `ShortResponse`. -/
def decodeResponse (r : List Byte) : Option Raw :=
  if params.minRspLen ≤ r.length then some (get16le (r.getD 4 0) (r.getD 5 0)) else none

end Sys2Proof.Machine
end

