-- ==== Sys2Proof/Machine/Ops.lean ====
section
/-! DEFINITION. The shared operations: the sequencer's phases, the delivery of results, errors and refusals
(spec/60_exceptions.md R262, R265), the log, waits and timers (R269), the environment's draws, the transport
primitives `BusWrite`, `BusRead`, `BusFlush` (spec/41_bus_transport.md R152 to R154), and the calibration
store's `MemRead` and `MemWrite` (spec/20_memory.md R76, R77). -/

namespace Sys2Proof.Machine

/-! ## The sequencer -/

/-- An accepted operation leaves `IDLE`: a new list of phases (R40). -/
def State.accept (s : State) : State := { s with seqTrace := [] }

/-- `SEQ <- p` (R40, R41). -/
def State.enter (p : Phase) (s : State) : State := { s with seq := p, seqTrace := s.seqTrace ++ [p] }

/-! ## Results, errors, refusals -/

/-- The end of an operation: `SEQ` returns to `IDLE` and the response record is delivered, with the `STATUS` of
the state it leaves (R40, R48, R114). -/
def State.deliver (e : Cause) (r : Result) (s : State) : State :=
  { s with seq := .idle, resp := some ⟨State.statusWord { s with seq := .idle }, e, r⟩ }

/-- Normal completion (R114). -/
def State.complete (r : Result) (s : State) : State := s.deliver .none r

/-- TAKING AN ERROR (R265): the operation ends at the failing step with no roll-back and no handler, `ERR` holds the
cause (R47) and the issuer gets it instead of a result. Nothing is saved and no mode changes, so nothing is
returned from (R266): `SEQ` is `IDLE` again and the next operation is accepted. -/
def State.raise (c : Cause) (s : State) : State := State.deliver c .none { s with err := c }

/-- An absorbed error (R251, R265): `ERR` holds the cause and the operation goes on with its fallback. -/
def State.absorb (c : Cause) (s : State) : State := { s with err := c }

/-- A refusal (R251, R262): the operation does not start; nothing of the block changes, not even `ERR`; the response
record carries the code. -/
def State.refuse (c : Cause) (s : State) : State := { s with resp := some ⟨s.statusWord, c, .none⟩ }

/-- The bus-state refusal of every bus-using operation (R170, R262). -/
def State.needBus (s : State) (run : State → State) : State :=
  if s.busOpen then run s else s.refuse .busNotOpen

/-- One log record (R272). -/
def State.emit (e : LogEvent) (s : State) : State := { s with log := s.log ++ [⟨e.level, e⟩] }

/-- One event of the wire history (R51). -/
def State.record (e : WireEvent) (s : State) : State := { s with wire := s.wire ++ [e] }

/-- `GAP_VIOLATION` in the model's fault record; what the actuators received is then unknown, now and from here on
(R261, U9; log entries 14 and 15). -/
def State.addFault (w : GapKind) (s : State) : State :=
  { s with faults := s.faults ++ [.gapViolation w], actMem := [], lineClean := false }

/-! ## Buffers -/

/-- `TXBUF[0..len-1] <- f`, `TXLEN <- len` (R34, R133 to R135); the bytes beyond keep their value. -/
def State.setTx (f : List Byte) (s : State) : State :=
  { s with txbuf := f ++ s.txbuf.drop f.length, txlen := f.length }

/-- The bytes at offsets `k` to 11 that R35 calls undefined: free values. -/
def rxTailBytes (draw k : Nat) : List Byte :=
  (List.range (params.readLen - k)).map (fun i => Config.rxTail draw (k + i))

/-- `RXBUF[0..len-1] <- r`, `RXLEN <- len` (R35, R176). -/
def State.setRx (r : List Byte) (s : State) : State :=
  { s with rxbuf := r ++ rxTailBytes s.draws r.length, rxlen := r.length, draws := s.draws + 1 }

/-! ## Time -/

/-- More time has passed since the last byte written. -/
def GapTimer.add : GapTimer → Nat → GapTimer
  | .expired, _ => .expired
  | .since e, us => .since (e + us)

/-- Is it known that at least `us` microseconds have passed. -/
def GapTimer.atLeast : GapTimer → Nat → Bool
  | .expired, _ => true
  | .since e, us => decide (us ≤ e)

/-- At least `us` microseconds pass (R17, R312); an ordering event of the wire history. -/
def State.elapse (us : Nat) (s : State) : State :=
  { s with tmrGap := s.tmrGap.add us, wire := s.wire ++ [.waited us] }

/-- `wait_at_least(T)` inside an operation: `TMR_DELAY` is armed and the wait ends when it expires (R269). -/
def State.delay (us : Nat) (s : State) : State :=
  let armed : State := { s with tmrDelay := .running us }
  { armed.elapse us with tmrDelay := .stopped }

/-! ## Draws of the environment -/

/-- `draw ok in [true, false]` of `B_OPEN` (R151): the script's next choice, else a free value. -/
def State.nextOpen (s : State) : Bool :=
  match s.env.opens with
  | b :: _ => b
  | [] => Config.openDraw s.draws

/-- The open draw is used up. -/
def State.popOpen (s : State) : State :=
  { s with env := { s.env with opens := s.env.opens.tail }, draws := s.draws + 1 }

/-- The outcome of the next write (R152). -/
def State.nextWrite (s : State) : WriteDraw :=
  match s.env.writes with
  | d :: _ => d
  | [] => Config.writeDraw s.draws

/-- The write draw is used up. -/
def State.popWrite (s : State) : State :=
  { s with env := { s.env with writes := s.env.writes.tail }, draws := s.draws + 1 }

/-- The bytes that arrive during the next read that waits (R153, R158). -/
def State.nextArrivals (s : State) : List Byte :=
  match s.env.arrivals with
  | a :: _ => a
  | [] => Config.arrivalDraw s.draws

/-- The arrivals are appended to the tail of `RXQ` (R73, R158). -/
def State.receive (s : State) : State :=
  { s with rxq := s.rxq ++ s.nextArrivals,
           env := { s.env with arrivals := s.env.arrivals.tail }, draws := s.draws + 1 }

/-- The outcome of the next `MemWrite` (R77). -/
def State.nextSave (s : State) : SaveDraw :=
  match s.env.saves with
  | d :: _ => d
  | [] => Config.saveDraw s.draws

/-- The outcome of the next `MemRead` of a present store (R76): the whole string unless the script says that the
read fails (log entry 4). -/
def State.nextRead (s : State) : ReadDraw :=
  match s.env.reads with
  | d :: _ => d
  | [] => .whole

/-! ## The actuators, as far as the line determines them -/

/-- What a whole frame does to the actuators' registers: `none` when the spec gives it no known effect. `settled`:
at least `T_TORQUE` is known to have passed since the last byte written. Free enters Free (R72, R273); Normal
is known to be entered only after Free and the wait (R273, R302, U3); a position moves the mechanism (R82), so
target and position become unknown; a read request changes nothing (R82). -/
def actuatorEffect (settled : Bool) (bs : List Byte) (m : Memory) : Option Memory :=
  match decodeOut bs with
  | .error _ => none
  | .ok i =>
    if i.wf then
      match i with
      | .tqFree id _ => some (m.write (regAddr id params.addrTorqueMode) params.dataFree)
      | .tqNormal id _ =>
        if settled && m.read (regAddr id params.addrTorqueMode) == some params.dataFree then
          some (m.write (regAddr id params.addrTorqueMode) params.dataNormal)
        else some (m.erase (regAddr id params.addrTorqueMode))
      | .sp id _ _ _ =>
        some ((((m.erase (regAddr id params.addrTgtPos)).erase (regAddr id 0x2B)).erase
          (regAddr id params.addrCurPos)).erase (regAddr id 0x2D))
      | .rq _ _ => some m
      | _ => none
    else none

/-- Bytes reach the line whole: the actuators hear them (R150). Once anything but whole, well-spaced frames has
reached the line, nothing is known of the actuators (U9, U12, U14; log entry 14). -/
def State.actuate (bs : List Byte) (s : State) : State :=
  if s.lineClean then
    match actuatorEffect (s.tmrGap.atLeast params.tTorque) bs s.actMem with
    | some m => { s with actMem := m }
    | none => { s with actMem := [], lineClean := false }
  else { s with actMem := [] }

/-! ## Transport primitives -/

/-- Do bytes on the line hold a whole read position request (R104), alone or among others: it opens a response window
(R300). A sequence of whole frames holds one exactly when one of the frames is one (log entry 17). -/
def carriesRequest (bs : List Byte) : Bool :=
  match bs with
  | [] => false
  | b :: t => rowRq.fits ((b :: t).take rowRq.pat.length) || carriesRequest t

/-- The two rules of use a write can break (R261, R300, R301), tested on the state before it. DESIGN CHOICE, log entry 45:
frames that stand behind one another inside one write are not held against each other. -/
def State.checkGap (s : State) : State :=
  let s1 := if s.tmrGap.atLeast params.tCmdGap then s else s.addFault .spacing
  if s.rqWindow then s1.addFault .window else s1

/-- The transmitter puts all of `TXQ` on the line, in order and contiguously; `TMR_GAP` restarts (R152). -/
def State.transmit (s : State) : State :=
  { s.actuate s.txq with
    wire := s.wire ++ [.wrote s.txq], txq := [], tmrGap := .since 0,
    rqWindow := s.rqWindow || carriesRequest s.txq }

/-- A failed write: `part` reached the line, `TXQ` is emptied, `ERR <- 8` (R152, U14). A request that reached the line
whole opens its window all the same (R300). -/
def State.cutWrite (part : List Byte) (s : State) : State :=
  if part = [] then
    { s with wire := s.wire ++ [.cut []], txq := [], err := .busWriteFailure }
  else
    { s with wire := s.wire ++ [.cut part], txq := [], err := .busWriteFailure,
             tmrGap := .since 0, rqWindow := s.rqWindow || carriesRequest part,
             actMem := [], lineClean := false }

/-- `BusWrite` with the channel open (R152): did it succeed, and the state after. The rules of use hold of any `BusWrite`
(R261, R300); an empty string then writes nothing and makes no draw (log entry 25). -/
def State.busWrite (bs : List Byte) (s : State) : Bool × State :=
  let s1 := s.checkGap
  if bs = [] then (true, s1)
  else
    match s1.nextWrite with
    | .ok => (true, State.transmit { s1.popWrite with txq := s1.txq ++ bs })
    | .fail k => (false, s1.popWrite.cutWrite (bs.take (min k (bs.length - 1))))

/-- The wait of a read: `TMR_RTO` runs until `n` bytes are there or `T_READ_TIMEOUT` (R153). Arrivals are drawn only
when the read has to wait. -/
def State.awaitBytes (n : Nat) (s : State) : State :=
  let armed : State := { s with tmrRto := .running params.tReadTimeout }
  if s.rxq.length < n then
    let got := armed.receive
    if got.rxq.length < n then { got with tmrGap := got.tmrGap.add params.tReadTimeout } else got
  else armed

/-- `BusRead` with the channel open (R153): the bytes taken from the head of `RXQ`, and the state after. -/
def State.busRead (n : Nat) (s : State) : List Byte × State :=
  let s1 := s.awaitBytes n
  let r := s1.rxq.take n
  (r, { s1 with rxq := s1.rxq.drop n, tmrRto := .stopped, rqWindow := false,
                wire := s1.wire ++ [.readBack n r] })

/-- `BusFlush` with the channel open (R154). -/
def State.busFlush (s : State) : State :=
  { s with rxq := [], txq := [], rqWindow := false, wire := s.wire ++ [.flushed] }

/-- Bytes arrive on the line: appended to `RXQ` while the channel is open, else lost (R158). -/
def State.arrive (bs : List Byte) (s : State) : State :=
  if s.busOpen then { s with rxq := s.rxq ++ bs } else s

/-! ## The calibration store -/

/-- What `MemRead(CALMEM)` gives (R76): no store, its complete byte string, or the failure to read a present store that
D20 rules on. -/
inductive StoreRead where
  | absent
  | content (m : List Byte)
  | failed
deriving DecidableEq, Repr

/-- `MemRead(CALMEM)` (R76, D20; log entry 4). -/
def State.memRead (s : State) : StoreRead :=
  match s.calmem with
  | none => .absent
  | some m =>
    match s.nextRead with
    | .whole => .content m
    | .failed => .failed

/-- A `MemRead` of a present store uses up its draw. -/
def State.popRead (s : State) : State :=
  match s.calmem with
  | none => s
  | some _ => { s with env := { s.env with reads := s.env.reads.tail } }

/-- `MemWrite(CALMEM, b)` (R77): did it succeed, and the state after. -/
def State.memWrite (b : List Byte) (s : State) : Bool × State :=
  let used : State := { s with env := { s.env with saves := s.env.saves.tail }, draws := s.draws + 1 }
  match s.nextSave with
  | .ok => (true, { used with calmem := some b })
  | .fail left => (false, { used with calmem := left })

/-! ## Endings shared by the operations that write one frame -/

/-- Put a built frame on the line and end the operation (R152, R171). -/
def State.writeAndEnd (f : List Byte) (s : State) : State :=
  match s.busWrite f with
  | (true, t) => t.complete .none
  | (false, t) => t.raise .busWriteFailure

end Sys2Proof.Machine
end

