-- ==== Sys2Proof/Machine/Servo.lean ====
section
/-! DEFINITION. Unit BC, part 2: the servo commands (spec/42_servo_commands.md R170 to R176), each a fixed
sequence of codec steps, transport steps and waits. -/

namespace Sys2Proof.Machine

/-- `TQ_ON` (R172): Free frame, at least `T_TORQUE`, Normal frame; a failed first write ends it. -/
def opTqOn (id : Byte) (s : State) : State :=
  s.needBus fun s =>
    let s1 := ((s.accept.enter .tqEncFree).setTx (frameTq id .free)).enter .tqWrFree
    match s1.busWrite (frameTq id .free) with
    | (false, s2) => s2.raise .busWriteFailure
    | (true, s2) =>
      let s3 := (s2.enter .tqWait).delay params.tTorque
      (((s3.enter .tqEncNormal).setTx (frameTq id .normal)).enter .tqWrNormal).writeAndEnd
        (frameTq id .normal)

/-- `TQ_OFF` (R173): the Free frame only. -/
def opTqOff (id : Byte) (s : State) : State :=
  s.needBus fun s =>
    (((s.accept.enter .tqEncFree).setTx (frameTq id .free)).enter .tqWrFree).writeAndEnd (frameTq id .free)

/-- `SETPOS` (R175): convert, clamp the integer to the electrical limits, encode, write. -/
def opSetpos (id : Byte) (deg : Deg) (s : State) : State :=
  s.needBus fun s =>
    let f := frameSp id (setposRaw s.cfg.rawRound deg)
    ((((s.accept.enter .spConv).enter .spClamp).enter .spEnc).setTx f |>.enter .spWrite).writeAndEnd f

/-- The exchange of `read_position` (R176) with the channel open: flush, request, wait, read, decode. `none` after a
failed request or a short response, both absorbed and logged. -/
def readPosition (id : Byte) (s : State) : Option Deg × State :=
  let s1 := (s.enter .rdFlush).busFlush
  let s2 := ((s1.enter .rdEnc).setTx (frameRd id)).enter .rdWrite
  match s2.busWrite (frameRd id) with
  | (false, s3) =>
    (none, ({ s3.setRx [] with rspShort := true, posValid := false }.absorb .busWriteFailure).emit
      (.writeFailed id))
  | (true, s3) =>
    let s4 := ((s3.enter .rdWait).delay params.tPostWrite).enter .rdRead
    let r := s4.busRead params.readLen
    let s5 := (r.2.setRx r.1).enter .rdDecode
    match decodeResponse r.1 with
    | some v => (some (rawToDeg v), { s5 with rspShort := false, posValid := true })
    | none =>
      (none, ({ s5 with rspShort := true, posValid := false }.absorb .shortResponse).emit
        (.shortResponse id r.1.length))

/-- The result of a read position (R115). -/
def positionResult : Option Deg → Result
  | some d => .deg d
  | none => .absentValue

/-- `RDPOS` (R176): no error reaches the issuer. -/
def opRdpos (id : Byte) (s : State) : State :=
  s.needBus fun s =>
    let r := readPosition id s.accept
    r.2.complete (positionResult r.1)

/-- The meaning of `TQ_ON`. -/
def execTqOn (id : Byte) (s : State) : Host.Outcome State Fault Refusal := .next (opTqOn id s)

/-- The meaning of `TQ_OFF`. -/
def execTqOff (id : Byte) (s : State) : Host.Outcome State Fault Refusal := .next (opTqOff id s)

/-- The meaning of `SETPOS`. -/
def execSetpos (id : Byte) (deg : Deg) (s : State) : Host.Outcome State Fault Refusal :=
  .next (opSetpos id deg s)

/-- The meaning of `RDPOS`. -/
def execRdpos (id : Byte) (s : State) : Host.Outcome State Fault Refusal := .next (opRdpos id s)

end Sys2Proof.Machine
end

