-- ==== Sys2Proof/Machine/AxisUnit.lean ====
section
/-! DEFINITION. Unit AU: the axis mapping, the offset, the unit conversions, the calibration store and the
calibration procedure (spec/43_axis_unit.md R190 to R202). -/

namespace Sys2Proof.Machine

/-- `CALOFF.a` (R33). -/
def State.caloff (s : State) : Axis → Deg
  | .yaw => s.caloffYaw
  | .pitch => s.caloffPitch

/-- `CALOFF <- (y, p)` (R33). -/
def State.setCaloff (y p : Deg) (s : State) : State := { s with caloffYaw := y, caloffPitch := p }

/-- `AX_MAP` (R191). -/
def opAxMap (sel : Byte) (deg : Deg) (s : State) : State :=
  match axisOfSel sel with
  | none => s.refuse .illegalOperand
  | some a => (s.accept.enter .exec).complete (.deg (axisMap (s.cfg.axis a) deg))

/-- `CAL_APPLY` (R195). -/
def opCalApply (sel : Byte) (deg : Deg) (s : State) : State :=
  match axisOfSel sel with
  | none => s.refuse .illegalOperand
  | some a => (s.accept.enter .exec).complete (.deg (applyOffset (s.cfg.calSign a) (s.caloff a) deg))

/-- `D2R` (R193): an unbounded integer. -/
def opD2r (deg : Deg) (s : State) : State :=
  (s.accept.enter .exec).complete (.raw (degToRaw s.cfg.rawRound deg))

/-- `R2D` (R194). -/
def opR2d (raw : Half) (s : State) : State :=
  (s.accept.enter .exec).complete (.deg (rawToDeg raw.toInt))

/-- A load that ends with the default (R197): the offsets are (0, 0), `CAL_STATUS` and `ERR` say why, one log record. -/
def State.loadDefault (st : CalStatus) (c : Cause) (e : LogEvent) (s : State) : State :=
  (({ s.setCaloff 0 0 with calStatus := st }.absorb c).emit e).complete (.degPair 0 0)

/-- `CAL_LD` (R197): never fatal; an absent or malformed store gives (0, 0) and is logged, and a present store that
cannot be read counts as malformed (D20). The three phases are walked in every case: R42 lists no data-dependent
transition here. -/
def opCalLd (s : State) : State :=
  let t := ((s.accept.enter .clRead).popRead.enter .clParse).enter .clCommit
  match s.memRead with
  | .absent => t.loadDefault .absent .calFileMissing .calFileMissing
  | .failed => t.loadDefault .malformed .calFileMalformed .calFileMalformed
  | .content m =>
    match parseCal m with
    | some (y, p) => State.complete (.degPair y p) { t.setCaloff y p with calStatus := .loaded }
    | none => t.loadDefault .malformed .calFileMalformed .calFileMalformed

/-- The two phases of `CAL_SV` (R199), without the response: also the last step of `CAL_RUN`. -/
def calSave (y p : Deg) (s : State) : State :=
  match ((s.enter .csFormat).enter .csWrite).memWrite (calText y p) with
  | (true, t) => { t with saveFail := false }
  | (false, t) => ({ t with saveFail := true }.absorb .calSaveFailure).emit .calSaveFailed

/-- `CAL_SV` (R199): saves its operands; a value without an exact decimal text is refused. -/
def opCalSv (y p : Deg) (s : State) : State :=
  if finiteDecimal y && finiteDecimal p then (calSave y p s.accept).complete .none
  else s.refuse .illegalOperand

/-- `CAL_RUN` (R202): both reads, then both offsets or neither. -/
def opCalRun (s : State) : State :=
  s.needBus fun s =>
    let ry := readPosition s.cfg.yaw.id (s.accept.enter .crYaw)
    let rp := readPosition s.cfg.pitch.id ((ry.2.delay params.tCmdGap).enter .crPitch)
    let t := rp.2.enter .crCommit
    match ry.1, rp.1 with
    | some y, some p =>
      (calSave y p { t.setCaloff y p with calFail := false }).complete (.degPair y p)
    | y, p =>
      (({ t.setCaloff 0 0 with calFail := true }.absorb .calibrationFailed).emit
        (.calibrationFailed y.isNone p.isNone)).deliver .calibrationFailed (.degPair 0 0)

/-- The meaning of `AX_MAP`. -/
def execAxMap (sel : Byte) (deg : Deg) (s : State) : Host.Outcome State Fault Refusal :=
  .next (opAxMap sel deg s)

/-- The meaning of `CAL_APPLY`. -/
def execCalApply (sel : Byte) (deg : Deg) (s : State) : Host.Outcome State Fault Refusal :=
  .next (opCalApply sel deg s)

/-- The meaning of `D2R`. -/
def execD2r (deg : Deg) (s : State) : Host.Outcome State Fault Refusal := .next (opD2r deg s)

/-- The meaning of `R2D`. -/
def execR2d (raw : Half) (s : State) : Host.Outcome State Fault Refusal := .next (opR2d raw s)

/-- The meaning of `CAL_LD`. -/
def execCalLd (s : State) : Host.Outcome State Fault Refusal := .next (opCalLd s)

/-- The meaning of `CAL_SV`. -/
def execCalSv (deg deg2 : Deg) (s : State) : Host.Outcome State Fault Refusal := .next (opCalSv deg deg2 s)

/-- The meaning of `CAL_RUN`. -/
def execCalRun (s : State) : Host.Outcome State Fault Refusal := .next (opCalRun s)

end Sys2Proof.Machine
end

