-- ==== Sys2Proof/Machine/Codec.lean ====
section
/-! DEFINITION. Unit FC: the checksum generator, the three encoders and the decoder (spec/40_frame_codec.md
R130 to R136). Each runs in the single phase `EXEC` and needs no open channel (R130). -/

namespace Sys2Proof.Machine

/-- `CSUM` (R131): writes nothing. -/
def opCsum (bytes : List Byte) (s : State) : State :=
  (s.accept.enter .exec).complete (.bytes [sum8 bytes])

/-- `ENC_TQ` (R133): a mode outside the two values is refused. -/
def opEncTq (id mode : Byte) (s : State) : State :=
  match modeOfByte mode with
  | none => s.refuse .illegalOperand
  | some m => ((s.accept.enter .exec).setTx (frameTq id m)).complete (.bytes (frameTq id m))

/-- `ENC_SP` (R134): no clamp. -/
def opEncSp (id : Byte) (raw : Half) (s : State) : State :=
  ((s.accept.enter .exec).setTx (frameSp id raw)).complete (.bytes (frameSp id raw))

/-- `ENC_RD` (R135). -/
def opEncRd (id : Byte) (s : State) : State :=
  ((s.accept.enter .exec).setTx (frameRd id)).complete (.bytes (frameRd id))

/-- `DEC_RD` (R136): stand-alone it writes no flag and no buffer; a short string is an error of the response
record only (log entry 19). -/
def opDecRd (bytes : List Byte) (s : State) : State :=
  match decodeResponse bytes with
  | some v => (s.accept.enter .exec).complete (.raw v)
  | none => (s.accept.enter .exec).deliver .shortResponse .none

/-- The meaning of `CSUM`. -/
def execCsum (bytes : List Byte) (s : State) : Host.Outcome State Fault Refusal := .next (opCsum bytes s)

/-- The meaning of `ENC_TQ`. -/
def execEncTq (id mode : Byte) (s : State) : Host.Outcome State Fault Refusal := .next (opEncTq id mode s)

/-- The meaning of `ENC_SP`. -/
def execEncSp (id : Byte) (raw : Half) (s : State) : Host.Outcome State Fault Refusal :=
  .next (opEncSp id raw s)

/-- The meaning of `ENC_RD`. -/
def execEncRd (id : Byte) (s : State) : Host.Outcome State Fault Refusal := .next (opEncRd id s)

/-- The meaning of `DEC_RD`. -/
def execDecRd (bytes : List Byte) (s : State) : Host.Outcome State Fault Refusal := .next (opDecRd bytes s)

end Sys2Proof.Machine
end

