-- ==== Sys2Proof/Machine/Transport.lean ====
section
/-! DEFINITION. Unit BC, part 1: the five transport operations (spec/41_bus_transport.md R151 to R155). -/

namespace Sys2Proof.Machine

/-- `B_OPEN` (R151): the environment decides whether the channel opens. -/
def opOpen (s : State) : State :=
  if s.busOpen then s.refuse .busAlreadyOpen
  else
    let s1 := (s.accept.enter .opening).popOpen
    if s.nextOpen then
      ({ s1 with rxq := [], txq := [], busOpen := true }.record .opened).complete .none
    else
      (s1.record .openFailed).raise .transportOpenFailure

/-- `B_CLOSE` (R155): closing a closed channel does nothing and succeeds. -/
def opClose (s : State) : State :=
  let s1 := s.accept.enter .closing
  if s.busOpen then
    ({ s1 with rxq := [], txq := [], busOpen := false }.record .closed).complete .none
  else s1.complete .none

/-- `B_FLUSH` (R154). -/
def opFlush (s : State) : State :=
  s.needBus fun s => ((s.accept.enter .flushing).busFlush).complete .none

/-- `B_WRITE` (R152): the bytes are not inspected. -/
def opWrite (bytes : List Byte) (s : State) : State :=
  s.needBus fun s => (s.accept.enter .writing).writeAndEnd bytes

/-- `B_READ` (R153): a timeout is no error. -/
def opRead (n : Byte) (s : State) : State :=
  s.needBus fun s =>
    let r := (s.accept.enter .reading).busRead n.toNat
    r.2.complete (.bytes r.1)

/-- The meaning of `B_OPEN`. -/
def execBOpen (s : State) : Host.Outcome State Fault Refusal := .next (opOpen s)

/-- The meaning of `B_CLOSE`. -/
def execBClose (s : State) : Host.Outcome State Fault Refusal := .next (opClose s)

/-- The meaning of `B_FLUSH`. -/
def execBFlush (s : State) : Host.Outcome State Fault Refusal := .next (opFlush s)

/-- The meaning of `B_WRITE`. -/
def execBWrite (bytes : List Byte) (s : State) : Host.Outcome State Fault Refusal := .next (opWrite bytes s)

/-- The meaning of `B_READ`. -/
def execBRead (n : Byte) (s : State) : Host.Outcome State Fault Refusal := .next (opRead n s)

end Sys2Proof.Machine
end

