-- ==== Sys2Proof/Machine/Line.lean ====
section
/-! DEFINITION. The frame rows of the opcode table as instructions (spec/30_encoding.md R102 to R105): an outgoing
frame is put on the line by the transport, as a raw `B_WRITE` of its bytes does (spec/41_bus_transport.md R152,
spec/70_reset_and_hazards.md R302), with what it does to the addressed actuator (`actuatorEffect`); an incoming
response is appended to `RXQ` (R158). Log entry 20. -/

namespace Sys2Proof.Machine

/-- The bytes of a frame row with its operands, checksum as given (R102 to R105). -/
def frameBytes : Fetch → List Byte
  | .request _ => []
  | .outFrame bs => bs
  | .inFrame bs => bs

/-- The meaning of `TQ_FREE`: the Free frame is transmitted. -/
def execTqFree (id sum : Byte) (s : State) : Host.Outcome State Fault Refusal :=
  .next (opWrite (frameBytes (encode (.tqFree id sum))) s)

/-- The meaning of `TQ_NORMAL`: the Normal frame is transmitted. -/
def execTqNormal (id sum : Byte) (s : State) : Host.Outcome State Fault Refusal :=
  .next (opWrite (frameBytes (encode (.tqNormal id sum))) s)

/-- The meaning of `SP`: the position frame is transmitted. -/
def execSp (id lo hi sum : Byte) (s : State) : Host.Outcome State Fault Refusal :=
  .next (opWrite (frameBytes (encode (.sp id lo hi sum))) s)

/-- The meaning of `RQ`: the read request is transmitted; no read follows of itself. -/
def execRq (id sum : Byte) (s : State) : Host.Outcome State Fault Refusal :=
  .next (opWrite (frameBytes (encode (.rq id sum))) s)

/-- The meaning of `RS`: a response arrives. No byte of it is examined on arrival (R105, R136). -/
def execRs (size cmd status id lo hi sum : Byte) (pad : List Byte) (s : State) :
    Host.Outcome State Fault Refusal :=
  .next (s.arrive (frameBytes (encode (.rs size cmd status id lo hi sum pad))))

end Sys2Proof.Machine
end

