-- ==== Sys2Proof/Machine/Dispatch.lean ====
section
/-! DEFINITION. The dispatch: one arm per constructor of Instr, each one direct call of its meaning. -/

namespace Sys2Proof.Machine

/-- The meaning of an instruction. -/
def exec (i : Instr) (s : State) : Host.Outcome State Fault Refusal :=
  match i with
  | .tqFree id sum => Sys2Proof.Machine.execTqFree id sum s
  | .tqNormal id sum => Sys2Proof.Machine.execTqNormal id sum s
  | .sp id lo hi sum => Sys2Proof.Machine.execSp id lo hi sum s
  | .rq id sum => Sys2Proof.Machine.execRq id sum s
  | .rs size cmd status id lo hi sum pad => Sys2Proof.Machine.execRs size cmd status id lo hi sum pad s
  | .bOpen => Sys2Proof.Machine.execBOpen s
  | .bClose => Sys2Proof.Machine.execBClose s
  | .bFlush => Sys2Proof.Machine.execBFlush s
  | .bWrite bytes => Sys2Proof.Machine.execBWrite bytes s
  | .bRead n => Sys2Proof.Machine.execBRead n s
  | .tqOn id => Sys2Proof.Machine.execTqOn id s
  | .tqOff id => Sys2Proof.Machine.execTqOff id s
  | .setpos id deg => Sys2Proof.Machine.execSetpos id deg s
  | .rdpos id => Sys2Proof.Machine.execRdpos id s
  | .axMap sel deg => Sys2Proof.Machine.execAxMap sel deg s
  | .calApply sel deg => Sys2Proof.Machine.execCalApply sel deg s
  | .d2r deg => Sys2Proof.Machine.execD2r deg s
  | .r2d raw => Sys2Proof.Machine.execR2d raw s
  | .calLd => Sys2Proof.Machine.execCalLd s
  | .calSv deg deg2 => Sys2Proof.Machine.execCalSv deg deg2 s
  | .calRun => Sys2Proof.Machine.execCalRun s
  | .csum bytes => Sys2Proof.Machine.execCsum bytes s
  | .encTq id mode => Sys2Proof.Machine.execEncTq id mode s
  | .encSp id raw => Sys2Proof.Machine.execEncSp id raw s
  | .encRd id => Sys2Proof.Machine.execEncRd id s
  | .decRd bytes => Sys2Proof.Machine.execDecRd bytes s

end Sys2Proof.Machine
end

