-- ==== Sys2Proof/Machine/HostLoop.lean ====
section
/-! DEFINITION. How an instruction reaches `exec` (command port, line), and the host as a second agent
(spec/48_host_control_loop.md): its plans, the guard on each operation it issues, one tick, the shutdown, the
pseudo-operations of spec/30_encoding.md R118, and whose turn it is at a step. -/

namespace Sys2Proof.Machine

/-! ## Presenting an instruction -/

/-- A request at the command port. A reserved `op` is refused `ILLEGAL_OP` before anything else (R116, R264). -/
def issueRequest (r : Request) (s : State) : Host.Outcome State Fault Refusal :=
  match decodeRequest r with
  | .ok i => exec i s
  | .error (.illegalOp _) => .next (s.refuse .illegalOp)
  | .error _ => .refused .inexpressible

/-- Whatever is fetched: a request, an outgoing frame, or arriving bytes. Bytes that are no response are arrivals all
the same (R158). -/
def presentFetch (f : Fetch) (s : State) : Host.Outcome State Fault Refusal :=
  match f with
  | .request r => issueRequest r s
  | .outFrame bs =>
    match decodeOut bs with
    | .ok i => exec i s
    | .error _ => .refused .notAFrame
  | .inFrame bs =>
    match decodeIn bs with
    | .ok i => exec i s
    | .error _ => .next (s.arrive bs)

/-! ## Plans of the host -/

/-- `SETPOS AXCFG[YAW].ID, y; WAIT T_CMD_GAP; SETPOS AXCFG[PITCH].ID, p` (R222, R225, R232). -/
def planPositions (c : Deployment) (y p : Deg) (g : Guard) : List HostAct :=
  [.issue { op := 0x12, id := c.yaw.id, deg := y } g, .wait params.tCmdGap,
   .issue { op := 0x12, id := c.pitch.id, deg := p } g]

/-- `RECENTER` (R118). -/
def planRecenter (c : Deployment) (g : Guard) : List HostAct :=
  planPositions c c.yaw.center c.pitch.center g

/-- `TORQUE_ALL_ON` (R118). -/
def planTorqueOn (c : Deployment) (g : Guard) : List HostAct :=
  [.issue { op := 0x10, id := c.yaw.id } g, .wait params.tCmdGap, .issue { op := 0x10, id := c.pitch.id } g]

/-- `TORQUE_ALL_OFF` (R118). -/
def planTorqueOff (c : Deployment) (g : Guard) : List HostAct :=
  [.issue { op := 0x11, id := c.yaw.id } g, .wait params.tCmdGap, .issue { op := 0x11, id := c.pitch.id } g]

/-- `Initializing` (R222, R224): open, torque on, recentre, `LoopState` is the centre, load, `Running`. The wait after
the recentring keeps R301 toward the first tick's command (log entry 29). -/
def planInit (c : Deployment) : List HostAct :=
  [.issue { op := 0x01 } .abort] ++ planTorqueOn c .shutdown ++ [.wait params.tCmdGap] ++
    planRecenter c .shutdown ++
    [.commit c.yaw.center c.pitch.center, .wait params.tCmdGap, .issue { op := 0x24 } .shutdown, .enterRunning]

/-- `ShuttingDown` (R232). The leading wait keeps R301 after a write that failed in the tick (P6 of
spec/95_test_vectors.md; log entry 29). -/
def planShutdown (c : Deployment) : List HostAct :=
  [.wait params.tCmdGap] ++ planRecenter c .logContinue ++ [.wait c.tSettle] ++
    planTorqueOff c .logContinue ++ [.issue { op := 0x02 } .logContinue, .exit]

/-- A plan begins: its actions are the next that the host takes (R235). -/
def State.plan (acts : List HostAct) (s : State) : State :=
  { s with host := { s.host with plan := acts ++ s.host.plan } }

/-- The rest of the current plan is given up. -/
def State.dropPlan (s : State) : State := { s with host := { s.host with plan := [] } }

/-- `LOOP <- ShuttingDown`; the triggering error, if any, is kept to be re-raised (R231, R232). -/
def State.beginShutdown (e : Option Cause) (s : State) : State :=
  State.plan (planShutdown s.cfg) { s with host := { s.host with loop := .shuttingDown, error := e } }

/-- What the host does when an operation it issued ends with error `e` (R223, R228, R231, R232). DESIGN CHOICE, log entry
42: a `B_OPEN` of `Initializing` that is refused because the channel is open aborts the start-up as a failed open does,
and the channel stays open. DESIGN CHOICE, log entry 43: an abort leaves `LOOP` at `Initializing` and sets `ended`. -/
def State.guarded (g : Guard) (op : Byte) (e : Cause) (s : State) : State :=
  match g with
  | .report => s
  | .abort =>
    { s with
      host := { s.host with ended := true, error := some e, log := s.host.log ++ [.openFatal], plan := [] } }
  | .shutdown => s.dropPlan.beginShutdown (some e)
  | .logContinue => { s with host := { s.host with log := s.host.log ++ [.stepFailed op e] } }

/-- The error an operation's response carries. -/
def State.lastError (s : State) : Cause :=
  match s.resp with
  | some r => r.err
  | none => .none

/-! ## One tick -/

/-- `outside_deadband` (R227): both axes are compared, in device space, and either one is enough. Before anything was
commanded every target is outside. -/
def outsideDeadband (band : Deg) (last : Option (Deg × Deg)) (vy vp : Deg) : Bool :=
  match last with
  | none => true
  | some (ly, lp) => decide (band ≤ |vy - ly|) || decide (band ≤ |vp - lp|)

/-- The rest of the tick period in whole microseconds, never negative (R229); rounded up, so that ticks start at least
`1/FREQ` apart. -/
def tickSleep (freq : Rat) (elapsed : Nat) : Nat := (Rat.ceil (1000000 / freq) - elapsed).toNat

/-- The device angle the pipeline gives for an application target: offset, then the logical clamp (R204, R225). -/
def State.pipeline (s : State) (a : Axis) (d : Deg) : Deg :=
  axisMap (s.cfg.axis a) (applyOffset (s.cfg.calSign a) (s.caloff a) d)

/-- The selector of an axis (R114). -/
def selOfAxis : Axis → Byte
  | .yaw => 0
  | .pitch => 1

/-- `AX_MAP(a, CAL_APPLY(a, d))` as the host issues it (R225): the second operation maps the answer of the first. -/
def State.planPipeline (a : Axis) (d : Deg) (g : Guard) (s : State) : List HostAct :=
  [.issue { op := 0x21, sel := selOfAxis a, deg := d } g,
   .issue { op := 0x20, sel := selOfAxis a, deg := applyOffset (s.cfg.calSign a) (s.caloff a) d } g]

/-- The sleep that ends a tick (R229). -/
def State.sleepAct (elapsed : Nat) (s : State) : HostAct := .wait (tickSleep s.cfg.freq elapsed)

/-- A tick in `Running` begins (R225, R226, R230): the stop flag first, then the poll; a sample goes through the
pipeline, axis by axis, and then to the deadband test. -/
def tick (pose : Pose) (elapsed : Nat) (s : State) : State :=
  if s.host.stopFlag then s.beginShutdown none
  else
    match pose with
    | .failure => State.plan [s.sleepAct elapsed] { s with host := { s.host with sample := none } }
    | .sample c =>
      State.plan (s.planPipeline .yaw c.yaw .shutdown ++ s.planPipeline .pitch c.pitch .shutdown ++ [.decide c elapsed])
        { s with host := { s.host with sample := some c } }

/-- The deadband test of a tick (R225, R227 to R229): outside it the two commands and the update of `LoopState`, and in
either case the sleep. -/
def State.decideTick (c : ControlSample) (elapsed : Nat) (s : State) : State :=
  let vy := s.pipeline .yaw c.yaw
  let vp := s.pipeline .pitch c.pitch
  if outsideDeadband s.cfg.deadband s.host.loopState vy vp then
    s.plan (planPositions s.cfg vy vp .shutdown ++ [.commit vy vp, s.sleepAct elapsed])
  else s.plan [s.sleepAct elapsed]

/-- One action of the plan. -/
def runAct (a : HostAct) (s : State) : Host.Outcome State Fault Refusal :=
  match a with
  | .issue r g =>
    match issueRequest r s with
    | .next t => .next (if t.lastError = .none then t else t.guarded g r.op t.lastError)
    | .fault e => .fault e
    | .refused e => .refused e
  | .wait us => .next (s.elapse us)
  | .decide c elapsed => .next (s.decideTick c elapsed)
  | .commit y p => .next { s with host := { s.host with loopState := some (y, p) } }
  | .enterRunning => .next { s with host := { s.host with loop := .running } }
  | .exit =>
    .next { s with host := { s.host with ended := true, loopState := none, sample := none, plan := [] } }

/-- What an error of a pseudo-operation's step leads to. In `Running` it is an unhandled exception (R231, R259). DESIGN
CHOICE, log entry 46: outside `Running` it does not end the sequence, and the response of a later operation replaces its
record. -/
def HostState.pseudoGuard (h : HostState) : Guard := if h.loop = .running then .shutdown else .report

/-- A pseudo-operation (R118). DESIGN CHOICE, log entry 47: none of them updates `LoopState`, in `Running` either. -/
def runPseudo (p : Pseudo) (s : State) : State :=
  let g := s.host.pseudoGuard
  match p with
  | .recenter => s.plan (planRecenter s.cfg g)
  | .torqueAllOn => s.plan (planTorqueOn s.cfg g)
  | .torqueAllOff => s.plan (planTorqueOff s.cfg g)
  | .target a d =>
    s.plan (s.planPipeline a d g ++ [.issue { op := 0x12, id := (s.cfg.axis a).id, deg := s.pipeline a d } g])

/-! ## What the host's phase admits -/

/-- Between the host's runs (R18, R75): the loop has not begun, or has ended, and is never in `Running`. -/
def HostState.betweenRuns (h : HostState) : Bool :=
  match h.loop with
  | .initializing => !h.started || h.ended
  | .running => false
  | .shuttingDown => h.ended

/-- May the host begin something of its own: not after its end (R223, R233), and not while it shuts down, where the
sequence of R232 is all it issues. -/
def HostState.mayIssue (h : HostState) : Bool := !h.ended && h.loop != .shuttingDown

/-- Are the bytes of one write exactly one well-formed outgoing frame. -/
def wholeFrame (bs : List Byte) : Bool :=
  match decodeOut bs with
  | .ok i => i.wf
  | .error _ => false

/-- What an actuator was last commanded to, as far as the wire history shows it (R302, R306). -/
inductive Commanded where
  | unknown
  /-- Free, and the microseconds of the waits since -/
  | free (waited : Nat)
  | normal
deriving DecidableEq, Repr

/-- What one event of the wire history does to it. Normal counts only after Free and at least `T_TORQUE` of waits between
(R302), and what a cut frame leaves is not known (U14). DESIGN CHOICE, log entry 44: the two frames count as the `TQ_ON`
that R306 names whoever sent them, raw frames too; only waits that the history shows count as time; and a write that is
not exactly one frame leaves the mode unknown. -/
def modeAfter (id : Byte) (m : Commanded) : WireEvent → Commanded
  | .wrote bs =>
    if bs = frameTq id .free then .free 0
    else if bs = frameTq id .normal then
      match m with
      | .free us => if params.tTorque ≤ us then .normal else .unknown
      | _ => .unknown
    else if wholeFrame bs then m
    else .unknown
  | .cut (_ :: _) => .unknown
  | .waited us =>
    match m with
    | .free w => .free (w + us)
    | _ => m
  | _ => m

/-- The torque mode last commanded to an actuator, as the wire history shows it; unknown at first. -/
def commandedMode (id : Byte) (w : List WireEvent) : Commanded := w.foldl (modeAfter id) .unknown

/-- `TORQUE_ALL_ON` was done and no `TQ_OFF` followed (R236, R306). -/
def State.torqueAllOn (s : State) : Bool :=
  commandedMode s.cfg.yaw.id s.wire == .normal && commandedMode s.cfg.pitch.id s.wire == .normal

/-- Where the calibration procedure may stand (R236): the channel open, after `TORQUE_ALL_ON`, and not between the
start of `Running` and the end of the shutdown. -/
def State.mayCalibrate (s : State) : Bool :=
  s.busOpen && s.torqueAllOn && (s.host.loop == .initializing || s.host.ended)

/-- The calibration action: `CAL_RUN`, whose failure is reported in its response (R202, R236). The wait keeps R301
toward the command before it (log entry 44). -/
def planCalibrate : List HostAct := [.wait params.tCmdGap, .issue { op := 0x26 } .report]

/-- Does an event come at once, in the middle of a plan too: bytes that arrive (R158), a stop request (R230, R263), an
exception of the host's own code (R231). Everything else is begun by the host or stands at the command port, and waits
for the end of the plan: one issuer, which issues the next operation after the previous has returned (R235). -/
def Event.immediate : Event → Bool
  | .present (.inFrame _) | .hostStop | .hostException => true
  | _ => false

/-- Does an event wait for the end of the plan. -/
def Event.waits (e : Event) : Bool := !e.immediate && e != .proceed

/-- One event, taken from the front of `inbox`. Host events that the host's state does not admit do nothing (R220:
`ShuttingDown` is terminal; R223, R233, R236), nor does an edit of the store during a run (R18, R75). -/
def runEvent (e : Event) (s : State) : Host.Outcome State Fault Refusal :=
  match e with
  | .present f => presentFetch f s
  | .wait us => .next (s.elapse us)
  | .storeEdit c => .next (if s.host.betweenRuns then { s with calmem := c } else s)
  | .pseudo p => .next (if s.host.mayIssue then runPseudo p s else s)
  | .calibrate => .next (if s.host.mayIssue ∧ s.mayCalibrate then s.plan planCalibrate else s)
  | .hostStart =>
    .next (if s.host.loop = .initializing ∧ s.host.started = false ∧ s.host.ended = false then
      State.plan (planInit s.cfg) { s with host := { s.host with started := true } } else s)
  | .hostTick pose elapsed =>
    .next (if s.host.loop = .running ∧ s.host.ended = false then tick pose elapsed s else s)
  | .hostStop => .next { s with host := { s.host with stopFlag := true } }
  | .hostException =>
    .next (if s.host.loop = .running ∧ s.host.ended = false then
      s.dropPlan.beginShutdown (some .unhandledLoopException) else s)
  | .proceed => .next s

/-! ## Whose turn it is -/

/-- The next action of the host's plan, and the state without it, when it is the host's turn: a plan is under way and
nothing comes in between. MODEL, log entry 48: an event that comes at once goes first, and `proceed` in front of it puts
it after one more action, so that it can stand between any two. -/
def State.hostTurn (s : State) : Option (HostAct × State) :=
  match s.host.plan with
  | [] => none
  | a :: p =>
    let taken : State := { s with host := { s.host with plan := p } }
    match s.inbox with
    | [] => some (a, taken)
    | e :: rest =>
      if e.immediate then none
      else if e = .proceed then some (a, { taken with inbox := rest })
      else some (a, taken)

/-- What happens next between operations (R18): the host's next action, else the next event; with nothing presented the
block stays as it is (R292). After its end the host does nothing (R223, R233). -/
def State.runNext (s : State) : Host.Outcome State Fault Refusal :=
  match s.hostTurn with
  | some (a, t) => if t.host.ended then .next t else runAct a t
  | none =>
    match s.inbox with
    | [] => .next s
    | e :: rest => runEvent e { s with inbox := rest }

end Sys2Proof.Machine
end

