-- ==== Sys2Proof/Machine/Step.lean ====
section
/-! DEFINITION. One step: the next action of the host's plan, or the next event of `inbox`, runs to its end
(spec/00_scope.md R18). With nothing presented the block stays as it is (spec/70_reset_and_hazards.md R292); nothing is
accepted while `SEQ` is not `IDLE` (R42). -/

namespace Sys2Proof.Machine

/-- One step of the machine. -/
def step (s : State) : Host.Outcome State Fault Refusal :=
  if s.seq = .idle then s.runNext else .refused .busy

/-- The instruction of a table word stands at the front of `inbox`, and no plan of the host stands before it, so that the
next step fetches it. -/
def State.withFetchWord (s : State) (nbits w : Nat) : State :=
  { s with inbox := .present (fetchOfWord nbits w) :: s.inbox, host := { s.host with plan := [] } }

end Sys2Proof.Machine
end

