-- ==== Sys2Proof/Laws/PerInstr.lean ====
section
/-! SUPPORT. Decode and encode agree, one lemma per constructor of Instr. -/

namespace Sys2Proof.Laws.RoundTrip

/-- Decoding the encoding of a well-formed instruction gives it back. -/
def Statement (i : Instr) : Prop := WellFormed i → decode (encode i) = .ok i

theorem tqFree (id sum : Byte) : Statement (.tqFree id sum) := by
  intro _
  simp [decode, encode, decodeOut, FrameRow.fits, rowTqFree]

theorem tqNormal (id sum : Byte) : Statement (.tqNormal id sum) := by
  intro _
  simp [decode, encode, decodeOut, FrameRow.fits, rowTqFree, rowTqNormal]

theorem sp (id lo hi sum : Byte) : Statement (.sp id lo hi sum) := by
  intro _
  simp [decode, encode, decodeOut, FrameRow.fits, rowTqFree, rowTqNormal, rowSp]

theorem rq (id sum : Byte) : Statement (.rq id sum) := by
  intro _
  simp [decode, encode, decodeOut, FrameRow.fits, rowTqFree, rowTqNormal, rowSp, rowRq]

theorem rs (size cmd status id lo hi sum : Byte) (pad : List Byte) : Statement (.rs size cmd status id lo hi sum pad) := by
  intro h
  have hp : pad.length ≤ 5 := by simpa [WellFormed, Instr.wf] using h
  have h1 : ¬ pad.length + 7 < 7 := by omega
  have h2 : ¬ 12 < pad.length + 7 := by omega
  simp [decode, encode, decodeIn, h1, h2]

theorem bOpen : Statement .bOpen := fun _ => rfl

theorem bClose : Statement .bClose := fun _ => rfl

theorem bFlush : Statement .bFlush := fun _ => rfl

theorem bWrite (bytes : List Byte) : Statement (.bWrite bytes) := by
  intro h
  have hb : bytes.length ≤ 255 := by simpa [WellFormed, Instr.wf] using h
  simp [decode, encode, decodeRequest, checkBytes, hb]

theorem bRead (n : Byte) : Statement (.bRead n) := fun _ => rfl

theorem tqOn (id : Byte) : Statement (.tqOn id) := fun _ => rfl

theorem tqOff (id : Byte) : Statement (.tqOff id) := fun _ => rfl

theorem setpos (id : Byte) (deg : Deg) : Statement (.setpos id deg) := fun _ => rfl

theorem rdpos (id : Byte) : Statement (.rdpos id) := fun _ => rfl

theorem axMap (sel : Byte) (deg : Deg) : Statement (.axMap sel deg) := fun _ => rfl

theorem calApply (sel : Byte) (deg : Deg) : Statement (.calApply sel deg) := fun _ => rfl

theorem d2r (deg : Deg) : Statement (.d2r deg) := fun _ => rfl

theorem r2d (raw : Half) : Statement (.r2d raw) := fun _ => rfl

theorem calLd : Statement .calLd := fun _ => rfl

theorem calSv (deg deg2 : Deg) : Statement (.calSv deg deg2) := fun _ => rfl

theorem calRun : Statement .calRun := fun _ => rfl

theorem csum (bytes : List Byte) : Statement (.csum bytes) := by
  intro h
  have hb : bytes.length ≤ 255 := by simpa [WellFormed, Instr.wf] using h
  simp [decode, encode, decodeRequest, checkBytes, hb]

theorem encTq (id mode : Byte) : Statement (.encTq id mode) := fun _ => rfl

theorem encSp (id : Byte) (raw : Half) : Statement (.encSp id raw) := fun _ => rfl

theorem encRd (id : Byte) : Statement (.encRd id) := fun _ => rfl

theorem decRd (bytes : List Byte) : Statement (.decRd bytes) := by
  intro h
  have hb : bytes.length ≤ 255 := by simpa [WellFormed, Instr.wf] using h
  simp [decode, encode, decodeRequest, checkBytes, hb]

end Sys2Proof.Laws.RoundTrip
end

