-- ==== Sys2Proof/Safety.lean ====
section
/-! DEFINITION. What counts as a good run (spec/00_scope.md R20 "Refused", spec/60_exceptions.md R261, R262;
spec/93_implementation_defined.md, treatments `fault` and `refuse`): no gap violation was recorded, no request was
refused, and the calibration operations keep their place in the host's run (R196, R236, R305). -/

namespace Sys2Proof.Machine

/-- A frame may follow: the inter-command gap is known to have passed (R301) and no read request awaits its read (R300). -/
def State.lineSpaced (s : State) : Bool := s.tmrGap.atLeast params.tCmdGap && !s.rqWindow

/-- The Free frame as it stands on the line, its checksum in the closed form of R109. -/
def lineFree (id : Byte) : List Byte := [0x08, 0x04, 0x00, id, 0x02, 0x28, 0x01, 0x37 + id]

/-- The Normal frame on the line (R102, R109). -/
def lineNormal (id : Byte) : List Byte := [0x08, 0x04, 0x00, id, 0x00, 0x28, 0x01, 0x35 + id]

/-- The position frame of a 16-bit position on the line, low byte first (R103, R107, R109). -/
def linePosition (id : Byte) (raw : Half) : List Byte :=
  [0x09, 0x06, 0x00, id, raw.extractLsb' 0 8, raw.extractLsb' 8 8, 0x00, 0x00,
   0x0F + id + raw.extractLsb' 0 8 + raw.extractLsb' 8 8]

/-- The read position request on the line (R104, R109). -/
def lineRequest (id : Byte) : List Byte := [0x07, 0x03, 0x00, id, 0x2C, 0x02, 0x38 + id]

/-- One attempt to put a frame on the line, as the wire history shows it: written whole, or cut before its end (R152). -/
def triedOnce (f : List Byte) (e : WireEvent) : Prop :=
  e = .wrote f ∨ ∃ part : List Byte, part.IsPrefix f ∧ part.length < f.length ∧ e = .cut part

/-- The degrees a response carries at offsets 4 and 5, low byte first, in hundredths (R108). -/
def responseDegrees (r : List Byte) : Deg :=
  ((r.getD 5 0 ++ r.getD 4 0 : BitVec 16).toInt : Rat) / 100

/-- What a response answers (R136, R176): its position when it has at least 7 bytes, else nothing. -/
def responseAnswer (r : List Byte) : Option Deg := if r.length < 7 then none else some (responseDegrees r)

/-- One exchange of `read_position` as the wire history shows it, and what it answers (R176): flush, a request that was
cut, and no answer; or flush, request, wait, and the answer of the bytes read. -/
def exchanged (id : Byte) (w : List WireEvent) (r : Option Deg) : Prop :=
  (∃ part : List Byte, part.IsPrefix (lineRequest id) ∧ part.length < 7 ∧ w = [.flushed, .cut part] ∧ r = none) ∨
    ∃ b : List Byte, b.length ≤ 12 ∧ r = responseAnswer b ∧
      w = [.flushed, .wrote (lineRequest id), .waited 50000, .readBack 12 b]

/-! ## Torque enabled, as the wire history shows it -/

/-- Does an event leave open what the actuators heard: a cut frame, or a write that is not exactly one well-formed frame
(log entry 44). -/
def WireEvent.upsets : WireEvent → Bool
  | .cut part => !part.isEmpty
  | .wrote bs => !wholeFrame bs
  | _ => false

/-- The microseconds of a wait of the history. -/
def WireEvent.waitTime : WireEvent → Nat
  | .waited us => us
  | _ => 0

/-- A Free frame, waits of at least `T_TORQUE`, a Normal frame, and since the Free frame no other torque frame to the
same actuator and nothing that leaves open what it heard (R302, R306; log entry 44). -/
def TorqueOn (id : Byte) (w : List WireEvent) : Prop :=
  ∃ l m r : List WireEvent, w = l ++ .wrote (lineFree id) :: (m ++ .wrote (lineNormal id) :: r) ∧
    100000 ≤ (m.map WireEvent.waitTime).sum ∧
    ∀ e ∈ m ++ r, e.upsets = false ∧ e ≠ .wrote (lineFree id) ∧ e ≠ .wrote (lineNormal id)

/-! ## The grammar of the store, as R198 writes it -/

/-- `DIGITS`, or no byte at all. -/
def DigitText (t : List Byte) : Prop := ∀ b ∈ t, 0x30 ≤ b.toNat ∧ b.toNat ≤ 0x39

/-- The number a string of digits denotes, most significant digit first. -/
def decimalValue (t : List Byte) : Nat := Nat.ofDigits 10 (t.reverse.map fun b => b.toNat - 0x30)

/-- `SIGN?`: is it "-". -/
def SignText (t : List Byte) (neg : Bool) : Prop :=
  (t = [] ∧ neg = false) ∨ (t = [0x2B] ∧ neg = false) ∨ (t = [0x2D] ∧ neg = true)

/-- `MANT`: the digits before the point and those after it. -/
def MantText (t whole frac : List Byte) : Prop :=
  DigitText whole ∧ DigitText frac ∧
    ((t = whole ∧ whole ≠ [] ∧ frac = []) ∨ (t = whole ++ 0x2E :: frac ∧ (whole ≠ [] ∨ frac ≠ [])))

/-- `EXP?`: the exponent, zero when there is none. -/
def ExpText (t : List Byte) (e : Int) : Prop :=
  (t = [] ∧ e = 0) ∨
    ∃ (c : Byte) (sg ds : List Byte) (neg : Bool), t = c :: (sg ++ ds) ∧ (c = 0x65 ∨ c = 0x45) ∧ SignText sg neg ∧
      DigitText ds ∧ ds ≠ [] ∧ e = if neg then -(decimalValue ds : Int) else decimalValue ds

/-- One of the first two lines of a store that parses, and its exact value: blanks, a number, blanks, at most one CR. -/
def CalLine (l : List Byte) (v : Deg) : Prop :=
  ∃ (lead sg mant whole frac ex trail cr : List Byte) (neg : Bool) (e : Int),
    l = lead ++ (sg ++ (mant ++ ex)) ++ trail ++ cr ∧ (∀ b ∈ lead ++ trail, b = 0x20 ∨ b = 0x09) ∧
    (cr = [] ∨ cr = [0x0D]) ∧ SignText sg neg ∧ MantText mant whole frac ∧ ExpText ex e ∧
    v = (if neg then -1 else 1) * (decimalValue (whole ++ frac) : Rat) * (10 : Rat) ^ (e - frac.length)

/-! ## What the actuators hold -/

/-- The position register and the target register of an actuator, two bytes each: what a position frame makes
unknown (R72, R82; log entry 13). -/
def moved (id : Byte) : List Nat :=
  [regAddr id params.addrTgtPos, regAddr id 0x2B, regAddr id params.addrCurPos, regAddr id 0x2D]

/-- The cells of the actuator space that the line can make known are torque mode registers holding one of the two
named values (R52, R72). -/
def torqueCell (c : Host.Cell) : Bool :=
  c.1 % 256 == params.addrTorqueMode.toNat && (c.2 == params.dataFree || c.2 == params.dataNormal)

/-- The causes that are ever left in `ERR` (R251, column "recorded"). -/
def Cause.recorded : Cause → Bool
  | .none | .transportOpenFailure | .shortResponse | .calFileMissing | .calFileMalformed | .calSaveFailure
  | .busWriteFailure | .calibrationFailed => true
  | _ => false

/-- What holds of every state between operations: `SEQ` is `IDLE` and `TXQ` empty (R40, R152), the waits are over, the
buffers keep their sizes (R34, R35), a closed channel holds no bytes (R155, R158), the two outcome flags of
`RDPOS` exclude each other (R44), the offsets are finite decimals (R33), `ERR` holds a recorded cause (R251), what
is known of the actuators is canonical, consists of torque modes and is empty once the line was not clean, a
recorded fault means that it was not (log entry 14), the configuration passed its check (R293), and a host that has
ended has no plan left (R223, R233). -/
structure State.Inv (s : State) : Prop where
  idle : s.seq = .idle
  sent : s.txq = []
  delayOver : s.tmrDelay = .stopped
  timeoutOver : s.tmrRto = .stopped
  txSize : s.txbuf.length = 9
  txLen : s.txlen = 0 ∨ s.txlen = 7 ∨ s.txlen = 8 ∨ s.txlen = 9
  rxSize : s.rxbuf.length = 12
  rxLen : s.rxlen ≤ 12
  closedEmpty : s.busOpen = false → s.rxq = []
  oneOutcome : ¬(s.rspShort = true ∧ s.posValid = true)
  yawDecimal : finiteDecimal s.caloffYaw = true
  pitchDecimal : finiteDecimal s.caloffPitch = true
  errRecorded : s.err.recorded = true
  memCanonical : Memory.wf s.actMem
  memTorque : ∀ c ∈ s.actMem, torqueCell c = true
  dirtyUnknown : s.lineClean = false → s.actMem = []
  faultDirty : s.faults ≠ [] → s.lineClean = false
  configured : Deployment.ok s.cfg = true
  endedIdle : s.host.ended = true → s.host.plan = []

/-- No fault is on record (R261). -/
def State.faultFree (s : State) : Bool := s.faults.isEmpty

/-- The record last delivered is a refusal (R262). -/
def State.lastRefused (s : State) : Bool :=
  match s.resp with
  | some r => r.err.isRefusal
  | none => false

/-- A state that a good run may be in. -/
def State.good (s : State) : Bool := s.faultFree && !s.lastRefused

/-- Does a request keep the host's obligations on calibration, which the block does not check: `CAL_RUN` only where R236
puts it, the store saved by `CAL_SV` never in `Running` (R196, R305). -/
def State.requestInPlace (s : State) (r : Request) : Bool :=
  if r.op = 0x26 then s.mayCalibrate
  else if r.op = 0x25 then s.host.loop != .running
  else true

/-- The request that the next step issues, if it issues one, keeps those obligations. -/
def State.calibrationInPlace (s : State) : Bool :=
  match s.hostTurn with
  | some (.issue r _, _) => s.requestInPlace r
  | some _ => true
  | none =>
    match s.inbox with
    | .present (.request r) :: _ => s.requestInPlace r
    | _ => true

/-- `n` steps from `s` all end in a next state that is good and keep the host's obligations on calibration: the run
carries the guarantees that are stated of good runs. -/
def goodRun : Nat → State → Bool
  | 0, s => s.good
  | n + 1, s =>
    s.good && s.calibrationInPlace && (match step s with
      | .next t => goodRun n t
      | .fault _ => false
      | .refused _ => false)

end Sys2Proof.Machine
end

