-- ==== Sys2Proof/Certificates/Slice0/Obligations.lean ====
section
/-! DEFINITION. The statements for the provers, from the numbered rules of spec/. Where an equation fixes the whole next
state, its fields that are not written are those of the state before: that is the frame. Statements that rest on a
choice of the model name its log entry; `seqTrace`, which equations of a next state fix, is the model's trace of the
phases of R41 (log entry 28). -/

open Sys2Proof Sys2Proof.Machine

/-! ## Unit FC -/

/-- R131. `CSUM` answers the sum of the bytes modulo 256 and writes nothing; order and zero bytes do not matter, and
every change of a single byte is detected. -/
def Obligations.CsumAddsAllBytes : Prop :=
  ∀ (s : State) (bytes : List Byte),
    (∃ (t : State) (c : Byte), exec (.csum bytes) s = .next t ∧
      c.toNat = (bytes.map BitVec.toNat).sum % 256 ∧
      t = { s with seq := .idle, seqTrace := [.exec], resp := some ⟨t.statusWord, .none, .bytes [c]⟩ }) ∧
    (∀ bytes' : List Byte, bytes.Perm bytes' → exec (.csum bytes') s = exec (.csum bytes) s) ∧
    (∀ l r : List Byte, bytes = l ++ r → exec (.csum (l ++ 0 :: r)) s = exec (.csum bytes) s) ∧
    (∀ (l r : List Byte) (b c : Byte), bytes = l ++ b :: r →
      exec (.csum (l ++ c :: r)) s = exec (.csum bytes) s → c = b)

/-- R133. `ENC_TQ` builds the torque frame of each of its two modes, in `TXBUF` and in its answer; any other mode is
refused. -/
def Obligations.EncTqBuildsTorqueFrame : Prop :=
  ∀ (s : State) (id mode : Byte),
    (mode = 0x02 → ∃ t : State, exec (.encTq id mode) s = .next t ∧
      t = { s with seq := .idle, seqTrace := [.exec], txbuf := lineFree id ++ s.txbuf.drop 8, txlen := 8,
                   resp := some ⟨t.statusWord, .none, .bytes (lineFree id)⟩ }) ∧
    (mode = 0x00 → ∃ t : State, exec (.encTq id mode) s = .next t ∧
      t = { s with seq := .idle, seqTrace := [.exec], txbuf := lineNormal id ++ s.txbuf.drop 8, txlen := 8,
                   resp := some ⟨t.statusWord, .none, .bytes (lineNormal id)⟩ }) ∧
    (mode ≠ 0x02 → mode ≠ 0x00 →
      exec (.encTq id mode) s = .next { s with resp := some ⟨s.statusWord, .illegalOperand, .none⟩ })

/-- R134. `ENC_SP` builds the position frame, low byte first, checksum last, for every 16-bit value. -/
def Obligations.EncSpBuildsPositionFrame : Prop :=
  ∀ (s : State) (id : Byte) (raw : Half), ∃ t : State, exec (.encSp id raw) s = .next t ∧
    t = { s with seq := .idle, seqTrace := [.exec], txbuf := linePosition id raw ++ s.txbuf.drop 9, txlen := 9,
                 resp := some ⟨t.statusWord, .none, .bytes (linePosition id raw)⟩ }

/-- R135. `ENC_RD` builds the read request, always for register 0x2C. -/
def Obligations.EncRdBuildsReadRequest : Prop :=
  ∀ (s : State) (id : Byte), ∃ t : State, exec (.encRd id) s = .next t ∧
    t = { s with seq := .idle, seqTrace := [.exec], txbuf := lineRequest id ++ s.txbuf.drop 7, txlen := 7,
                 resp := some ⟨t.statusWord, .none, .bytes (lineRequest id)⟩ }

/-- R108, R136. `DEC_RD` of at least 7 bytes answers the signed position at offsets 4 and 5, whatever the other bytes
are, and writes nothing. -/
def Obligations.DecRdReadsOffsetsFourAndFive : Prop :=
  ∀ (s : State) (b0 b1 b2 b3 lo hi b6 : Byte) (pad : List Byte), ∃ (t : State) (v : Int),
    exec (.decRd ([b0, b1, b2, b3, lo, hi, b6] ++ pad)) s = .next t ∧
    t = { s with seq := .idle, seqTrace := [.exec], resp := some ⟨t.statusWord, .none, .raw v⟩ } ∧
    -32768 ≤ v ∧ v ≤ 32767 ∧
    (v = lo.toNat + 256 * hi.toNat ∨ v = (lo.toNat + 256 * hi.toNat : Int) - 65536)

/-- R136 with log entry 19 (DEDUCED: the response record carries the error, `ERR` keeps its value). `DEC_RD` of fewer
than 7 bytes ends in `ShortResponse` and writes nothing. -/
def Obligations.DecRdRejectsShortStrings : Prop :=
  ∀ (s : State) (bytes : List Byte), bytes.length < 7 → ∃ t : State, exec (.decRd bytes) s = .next t ∧
    t = { s with seq := .idle, seqTrace := [.exec], resp := some ⟨t.statusWord, .shortResponse, .none⟩ }

/-- R137. Every frame the three encoders return ends in the sum of the bytes before it, modulo 256; and it is what
`TXBUF` holds. -/
def Obligations.BuiltFramesCarryTheirChecksum : Prop :=
  ∀ (s t : State) (id mode : Byte) (raw : Half) (i : Instr) (w : BitVec 16) (f : List Byte),
    i = .encTq id mode ∨ i = .encSp id raw ∨ i = .encRd id →
    exec i s = .next t → t.resp = some ⟨w, .none, .bytes f⟩ →
    ∃ (p : List Byte) (c : Byte), f = p ++ [c] ∧ c.toNat = (p.map BitVec.toNat).sum % 256 ∧
      f = t.txbuf.take t.txlen

/-- R138. A position frame decodes to the position it was built from; and a device angle within 80 degrees, converted
to raw and back, is recovered within 0.01 degree, under every rounding mode. -/
def Obligations.PositionsSurviveTheRoundTrip : Prop :=
  (∀ (s : State) (id : Byte) (raw : Half), ∃ (t u : State) (f : List Byte),
    exec (.encSp id raw) s = .next t ∧ t.resp = some ⟨t.statusWord, .none, .bytes f⟩ ∧
    exec (.decRd f) t = .next u ∧ u.resp = some ⟨u.statusWord, .none, .raw raw.toInt⟩) ∧
  (∀ (s : State) (d : Deg), -80 ≤ d → d ≤ 80 → ∃ (t u : State) (q : Int) (d' : Deg),
    exec (.d2r d) s = .next t ∧ t.resp = some ⟨t.statusWord, .none, .raw q⟩ ∧
    exec (.r2d (BitVec.ofInt 16 q)) t = .next u ∧ u.resp = some ⟨u.statusWord, .none, .deg d'⟩ ∧
    |d' - d| < 1 / 100)

/-! ## Unit AU: conversions, mapping, offset -/

/-- R193. `D2R` answers the integer that `RAW_ROUND` makes of `100*d`, for each of the four modes, with no limit; the
three properties P1, P2, P3 hold in every mode. -/
def Obligations.D2rRoundsAsConfigured : Prop :=
  ∀ (s : State) (d : Deg), ∃ (t : State) (q : Int), exec (.d2r d) s = .next t ∧
    t = { s with seq := .idle, seqTrace := [.exec], resp := some ⟨t.statusWord, .none, .raw q⟩ } ∧
    (s.cfg.rawRound = .towardZero → (0 ≤ d → q = Rat.floor (100 * d)) ∧ (d ≤ 0 → q = Rat.ceil (100 * d))) ∧
    (s.cfg.rawRound = .towardMinusInf → q = Rat.floor (100 * d)) ∧
    (s.cfg.rawRound = .nearestEven →
      |(q : Rat) - 100 * d| ≤ 1 / 2 ∧ (|(q : Rat) - 100 * d| = 1 / 2 → q % 2 = 0)) ∧
    (s.cfg.rawRound = .nearestAway →
      |(q : Rat) - 100 * d| ≤ 1 / 2 ∧ (|(q : Rat) - 100 * d| = 1 / 2 → |100 * d| < |(q : Rat)|)) ∧
    (∀ k : Int, d = (k : Rat) / 100 → q = k) ∧
    (∀ (d' : Deg) (t' : State) (q' : Int), d ≤ d' → exec (.d2r d') s = .next t' →
      t'.resp = some ⟨t'.statusWord, .none, .raw q'⟩ → q ≤ q') ∧
    |(q : Rat) - 100 * d| < 1

/-- R194. `R2D` answers the exact hundredth, between -327.68 and 327.67, and `D2R` takes it back. -/
def Obligations.R2dDividesByHundred : Prop :=
  ∀ (s : State) (raw : Half), ∃ (t u : State) (d : Deg), exec (.r2d raw) s = .next t ∧
    t = { s with seq := .idle, seqTrace := [.exec], resp := some ⟨t.statusWord, .none, .deg d⟩ } ∧
    100 * d = (raw.toInt : Rat) ∧ -32768 / 100 ≤ d ∧ d ≤ 32767 / 100 ∧
    exec (.d2r d) t = .next u ∧ u.resp = some ⟨u.statusWord, .none, .raw raw.toInt⟩

/-- R191. `AX_MAP` answers `CENTER + SIGN*d` clamped to `[MIN, MAX]`; under the configuration invariant the answer lies
in the range and `d = 0` gives `CENTER`. -/
def Obligations.AxMapClampsToLogicalRange : Prop :=
  ∀ (s : State) (sel : Byte) (a : Axis) (d : Deg),
    (sel = 0 ∧ a = .yaw) ∨ (sel = 1 ∧ a = .pitch) →
    ∃ (t : State) (v : Deg), exec (.axMap sel d) s = .next t ∧
      t = { s with seq := .idle, seqTrace := [.exec], resp := some ⟨t.statusWord, .none, .deg v⟩ } ∧
      v = min (max ((s.cfg.axis a).center + (if (s.cfg.axis a).sign = .plus then d else -d)) (s.cfg.axis a).min)
        (s.cfg.axis a).max ∧
      ((s.cfg.axis a).min ≤ (s.cfg.axis a).center → (s.cfg.axis a).center ≤ (s.cfg.axis a).max →
        (s.cfg.axis a).min ≤ v ∧ v ≤ (s.cfg.axis a).max ∧ (d = 0 → v = (s.cfg.axis a).center))

/-- R195. `CAL_APPLY` adds or subtracts the axis's offset as `CAL_SIGN` says, with no clamp, and is the identity when
the offset is zero. -/
def Obligations.CalApplyAddsTheOffset : Prop :=
  ∀ (s : State) (sel : Byte) (d : Deg),
    (sel = 0 → ∃ (t : State) (v : Deg), exec (.calApply sel d) s = .next t ∧
      t = { s with seq := .idle, seqTrace := [.exec], resp := some ⟨t.statusWord, .none, .deg v⟩ } ∧
      (s.cfg.calSignYaw = .plus → v = d + s.caloffYaw) ∧ (s.cfg.calSignYaw = .minus → v = d - s.caloffYaw) ∧
      (s.caloffYaw = 0 → v = d)) ∧
    (sel = 1 → ∃ (t : State) (v : Deg), exec (.calApply sel d) s = .next t ∧
      t = { s with seq := .idle, seqTrace := [.exec], resp := some ⟨t.statusWord, .none, .deg v⟩ } ∧
      (s.cfg.calSignPitch = .plus → v = d + s.caloffPitch) ∧
      (s.cfg.calSignPitch = .minus → v = d - s.caloffPitch) ∧ (s.caloffPitch = 0 → v = d))

/-! ## Unit AU: the calibration store -/

/-- R197. `CAL_LD` on what `MemRead` returns: absent, bytes that parse, bytes that do not. That the trace holds the three
phases of R41 in every case, on an absent store too, is the model's choice (log entry 28, DESIGN CHOICE, from R41 and
R42). -/
def Obligations.CalLdLoadsOrDefaults : Prop :=
  ∀ s : State, ∃ t : State, exec .calLd s = .next t ∧
    (s.memRead = .absent →
      t = { s with seq := .idle, seqTrace := [.clRead, .clParse, .clCommit], caloffYaw := 0, caloffPitch := 0,
                   calStatus := .absent, err := .calFileMissing, log := s.log ++ [⟨.info, .calFileMissing⟩],
                   env := s.popRead.env, resp := some ⟨t.statusWord, .none, .degPair 0 0⟩ }) ∧
    (∀ (m : List Byte) (y p : Deg), s.memRead = .content m → parseCal m = some (y, p) →
      t = { s with seq := .idle, seqTrace := [.clRead, .clParse, .clCommit], caloffYaw := y, caloffPitch := p,
                   calStatus := .loaded, env := s.popRead.env,
                   resp := some ⟨t.statusWord, .none, .degPair y p⟩ }) ∧
    (∀ m : List Byte, s.memRead = .content m → parseCal m = none →
      t = { s with seq := .idle, seqTrace := [.clRead, .clParse, .clCommit], caloffYaw := 0, caloffPitch := 0,
                   calStatus := .malformed, err := .calFileMalformed,
                   log := s.log ++ [⟨.info, .calFileMalformed⟩], env := s.popRead.env,
                   resp := some ⟨t.statusWord, .none, .degPair 0 0⟩ })

/-- R75, R76, D20 with log entry 4: what `CAL_LD` sees of the store. No store is absent; a whole read of a store is its
content; a failed read of a present one is malformed, with the offsets (0, 0), code 4 and one record. In every case it
completes and writes neither the store nor anything of the bus. -/
def Obligations.CalLdSeesTheStore : Prop :=
  ∀ s : State, ∃ (t : State) (y p : Deg), exec .calLd s = .next t ∧
    t = { s with seq := .idle, seqTrace := [.clRead, .clParse, .clCommit], caloffYaw := y, caloffPitch := p,
                 calStatus := t.calStatus, err := t.err, log := t.log, env := t.env,
                 resp := some ⟨t.statusWord, .none, .degPair y p⟩ } ∧
    (s.calmem = none → t.calStatus = .absent ∧ t.env = s.env) ∧
    (∀ m : List Byte, s.calmem = some m → s.env.reads = [] →
      (t.calStatus = .loaded ∧ parseCal m = some (y, p)) ∨ (t.calStatus = .malformed ∧ parseCal m = none)) ∧
    (∀ (m : List Byte) (rest : List ReadDraw), s.calmem = some m → s.env.reads = .whole :: rest →
      t.env = { s.env with reads := rest } ∧
      ((t.calStatus = .loaded ∧ parseCal m = some (y, p)) ∨ (t.calStatus = .malformed ∧ parseCal m = none))) ∧
    (∀ (m : List Byte) (rest : List ReadDraw), s.calmem = some m → s.env.reads = .failed :: rest →
      t.calStatus = .malformed ∧ t.err = .calFileMalformed ∧ t.log = s.log ++ [⟨.info, .calFileMalformed⟩] ∧
      t.env = { s.env with reads := rest }) ∧
    (t.calStatus ≠ .loaded → y = 0 ∧ p = 0)

/-- R198. A store parses exactly when both of its first two lines match the grammar (`CalLine` of Safety.lean: blanks, an
optional sign, a mantissa, an optional exponent, blanks, at most one CR), and then to exactly their two values; so one
bad line makes the whole store malformed. A store of one line is malformed, lines beyond the second are ignored, the
last line needs no LF, and a byte outside the grammar's characters is enough to make a line bad. -/
def Obligations.ParseCalReadsTwoLines : Prop :=
  (∀ (l1 l2 rest : List Byte) (y p : Deg), CalLine l1 y → CalLine l2 p →
    parseCal (l1 ++ 0x0A :: l2) = some (y, p) ∧ parseCal (l1 ++ 0x0A :: (l2 ++ 0x0A :: rest)) = some (y, p)) ∧
  (∀ l1 l2 : List Byte, 0x0A ∉ l1 → 0x0A ∉ l2 → (∀ y : Deg, ¬CalLine l1 y) ∨ (∀ p : Deg, ¬CalLine l2 p) →
    parseCal (l1 ++ 0x0A :: l2) = none) ∧
  (∀ m : List Byte, 0x0A ∉ m → parseCal m = none) ∧
  (∀ l1 l2 rest : List Byte, 0x0A ∉ l1 → 0x0A ∉ l2 →
    parseCal (l1 ++ 0x0A :: (l2 ++ 0x0A :: rest)) = parseCal (l1 ++ 0x0A :: l2)) ∧
  (∀ (l1 l2 : List Byte) (b : Byte), 0x0A ∉ l1 → 0x0A ∉ l2 → b ∈ l1 ++ l2 →
    b ∉ [0x30, 0x31, 0x32, 0x33, 0x34, 0x35, 0x36, 0x37, 0x38, 0x39, 0x2B, 0x2D, 0x2E, 0x45, 0x65, 0x20, 0x09,
      (0x0D : Byte)] → parseCal (l1 ++ 0x0A :: l2) = none)

/-- R200. `fmt_cal` of a finite decimal: sign, integer part without leading zeros, point, as many fractional digits as
are needed and at least one; and the text denotes exactly that value. -/
def Obligations.FmtCalIsCanonical : Prop :=
  ∀ d : Deg, finiteDecimal d = true → ∃ whole frac : List Byte,
    fmtCal d = (if d < 0 then [0x2D] else []) ++ whole ++ 0x2E :: frac ∧
    whole.all isDigit = true ∧ frac.all isDigit = true ∧ whole ≠ [] ∧ frac ≠ [] ∧
    (whole.head? = some 0x30 → whole = [0x30]) ∧ (frac.getLast? = some 0x30 → frac = [0x30]) ∧
    parseNumber (fmtCal d) = some d

/-- R199. `CAL_SV` writes its operands' text, or the write fails and the store holds whatever the environment left; it
completes either way and touches no offset; operands that are no finite decimals are refused. -/
def Obligations.CalSvSavesItsOperands : Prop :=
  ∀ (s : State) (y p : Deg),
    (finiteDecimal y = true → finiteDecimal p = true → s.nextSave = .ok →
      ∃ t : State, exec (.calSv y p) s = .next t ∧
        t = { s with seq := .idle, seqTrace := [.csFormat, .csWrite], saveFail := false,
                     calmem := some (fmtCal y ++ [0x0A] ++ fmtCal p ++ [0x0A]),
                     env := { s.env with saves := s.env.saves.tail }, draws := s.draws + 1,
                     resp := some ⟨t.statusWord, .none, .none⟩ }) ∧
    (∀ left : Option (List Byte), finiteDecimal y = true → finiteDecimal p = true → s.nextSave = .fail left →
      ∃ t : State, exec (.calSv y p) s = .next t ∧
        t = { s with seq := .idle, seqTrace := [.csFormat, .csWrite], saveFail := true, calmem := left,
                     err := .calSaveFailure, log := s.log ++ [⟨.warning, .calSaveFailed⟩],
                     env := { s.env with saves := s.env.saves.tail }, draws := s.draws + 1,
                     resp := some ⟨t.statusWord, .none, .none⟩ }) ∧
    (finiteDecimal y = false ∨ finiteDecimal p = false →
      exec (.calSv y p) s = .next { s with resp := some ⟨s.statusWord, .illegalOperand, .none⟩ })

/-- R201, whose two sentences the spec marks as derived. A pair saved is the pair loaded; loading and saving again leaves
the store as it is exactly when the store is canonical; an absent or malformed store becomes the text of (0, 0). That a
read for which no outcome is scripted gives the whole store (`env.reads = []`) is the model's choice: log entry 4,
DESIGN CHOICE. -/
def Obligations.SaveAndLoadAgree : Prop :=
  (∀ y p : Deg, finiteDecimal y = true → finiteDecimal p = true →
    parseCal (fmtCal y ++ [0x0A] ++ fmtCal p ++ [0x0A]) = some (y, p)) ∧
  (∀ (s : State) (y p : Deg), finiteDecimal y = true → finiteDecimal p = true → s.nextSave = .ok →
    s.env.reads = [] → ∃ t u : State, exec (.calSv y p) s = .next t ∧ exec .calLd t = .next u ∧
      u.caloffYaw = y ∧ u.caloffPitch = p ∧ u.calStatus = .loaded) ∧
  (∀ s : State, s.env.reads = [] → s.nextSave = .ok → ∃ (t u : State) (y p : Deg),
    exec .calLd s = .next t ∧ t.caloffYaw = y ∧ t.caloffPitch = p ∧ exec (.calSv y p) t = .next u ∧
    u.saveFail = false ∧
    (u.calmem = s.calmem ↔ ∃ y' p' : Deg, finiteDecimal y' = true ∧ finiteDecimal p' = true ∧
      s.calmem = some (fmtCal y' ++ [0x0A] ++ fmtCal p' ++ [0x0A])) ∧
    (t.calStatus ≠ .loaded → u.calmem = some [0x30, 0x2E, 0x30, 0x0A, 0x30, 0x2E, 0x30, 0x0A]))

/-! ## Unit AU: the calibration procedure -/

/-- R202, R260. `CAL_RUN` with the channel open always completes: yaw's exchange, the wait, pitch's exchange, each as
`exchanged` of Safety.lean says and each answering a position or nothing. When both answer, exactly their two positions
are the offsets and the answer, and a save of exactly them was tried, which succeeded or failed; when either does not,
both offsets are zero, the store is untouched and the response carries code 13. A request whose write fails answers
nothing; with both requests written, each axis answers its own arrivals, nothing when they are fewer than 7 bytes (which
arrivals are drawn when: log entries 3 and 34). -/
def Obligations.CalRunSetsBothOffsetsOrNone : Prop :=
  ∀ s : State, s.busOpen = true → ∃ (t : State) (ry rp : Option Deg) (wy wp : List WireEvent),
    exec .calRun s = .next t ∧
    t.wire = s.wire ++ wy ++ [.waited 1000] ++ wp ∧ exchanged s.cfg.yaw.id wy ry ∧ exchanged s.cfg.pitch.id wp rp ∧
    (∀ y p : Deg, ry = some y → rp = some p →
      t.caloffYaw = y ∧ t.caloffPitch = p ∧ t.calFail = false ∧ t.posValid = true ∧
      t.resp = some ⟨t.statusWord, .none, .degPair y p⟩ ∧
      ((t.saveFail = false ∧ t.err = s.err ∧ t.calmem = some (fmtCal y ++ [0x0A] ++ fmtCal p ++ [0x0A])) ∨
        (t.saveFail = true ∧ t.err = .calSaveFailure))) ∧
    (ry = none ∨ rp = none →
      t.caloffYaw = 0 ∧ t.caloffPitch = 0 ∧ t.calFail = true ∧ t.calmem = s.calmem ∧ t.saveFail = s.saveFail ∧
      t.err = .calibrationFailed ∧ t.resp = some ⟨t.statusWord, .calibrationFailed, .degPair 0 0⟩ ∧
      ∃ l : List LogRecord, t.log = s.log ++ l ++ [⟨.warning, .calibrationFailed ry.isNone rp.isNone⟩]) ∧
    (∀ k : Nat, s.nextWrite = .fail k → ry = none) ∧
    (∀ (d : WriteDraw) (k : Nat) (ws : List WriteDraw), s.env.writes = d :: .fail k :: ws → rp = none) ∧
    (∀ (a1 a2 : List Byte) (ws : List WriteDraw) (rs : List (List Byte)),
      s.env.writes = .ok :: .ok :: ws → s.env.arrivals = a1 :: a2 :: rs →
      ry = responseAnswer a1 ∧ rp = responseAnswer a2) ∧
    t = { s with seq := .idle, seqTrace := t.seqTrace, caloffYaw := t.caloffYaw, caloffPitch := t.caloffPitch,
                 txbuf := t.txbuf, txlen := t.txlen, rxbuf := t.rxbuf, rxlen := t.rxlen,
                 rspShort := t.rspShort, posValid := t.posValid, saveFail := t.saveFail, calFail := t.calFail,
                 err := t.err, rxq := t.rxq, txq := [], tmrDelay := t.tmrDelay, tmrRto := t.tmrRto,
                 tmrGap := t.tmrGap, calmem := t.calmem, actMem := t.actMem, resp := t.resp, log := t.log,
                 wire := t.wire, faults := t.faults, rqWindow := t.rqWindow, lineClean := t.lineClean,
                 env := t.env, draws := t.draws }

/-- R202, R176 with the gap passed (log entries 15 to 17), when the two requests are written and answered with at least 7
bytes each and the save succeeds: the whole next state of `CAL_RUN`. An open response window does not matter, since
each exchange flushes first. `TMR_GAP` then counts the wait after the second request and, when that read ran to its end,
the read timeout (log entry 16); on a line that was not clean nothing is known of the actuators (log entry 14). -/
def Obligations.CalRunCalibratesBothAxes : Prop :=
  ∀ (s : State) (ws : List WriteDraw) (r1 r2 : List Byte) (rs : List (List Byte)) (ss : List SaveDraw),
    s.busOpen = true → s.tmrGap.atLeast 1000 = true → s.env.writes = .ok :: .ok :: ws → s.env.arrivals = r1 :: r2 :: rs →
    s.env.saves = .ok :: ss → 7 ≤ r1.length → 7 ≤ r2.length →
    ∃ t : State, exec .calRun s = .next t ∧
      t = { s with
        seq := .idle
        seqTrace := [.crYaw, .rdFlush, .rdEnc, .rdWrite, .rdWait, .rdRead, .rdDecode, .crPitch, .rdFlush, .rdEnc,
          .rdWrite, .rdWait, .rdRead, .rdDecode, .crCommit, .csFormat, .csWrite]
        caloffYaw := responseDegrees r1, caloffPitch := responseDegrees r2
        txbuf := lineRequest s.cfg.pitch.id ++ s.txbuf.drop 7, txlen := 7
        rxbuf := t.rxbuf, rxlen := min 12 r2.length, rxq := r2.drop 12, txq := []
        rspShort := false, posValid := true, calFail := false, saveFail := false
        tmrDelay := .stopped, tmrRto := .stopped
        tmrGap := .since (if r2.length < 12 then 150000 else 50000), rqWindow := false
        actMem := if s.lineClean = true then s.actMem else []
        calmem := some (fmtCal (responseDegrees r1) ++ [0x0A] ++ fmtCal (responseDegrees r2) ++ [0x0A])
        wire := s.wire ++ [.flushed, .wrote (lineRequest s.cfg.yaw.id), .waited 50000,
          .readBack 12 (r1.take 12), .waited 1000, .flushed, .wrote (lineRequest s.cfg.pitch.id),
          .waited 50000, .readBack 12 (r2.take 12)]
        env := { s.env with writes := ws, arrivals := rs, saves := ss }, draws := t.draws
        resp := some ⟨t.statusWord, .none, .degPair (responseDegrees r1) (responseDegrees r2)⟩ } ∧
      t.rxbuf.take (min 12 r2.length) = r2.take 12

/-! ## Unit BC: the transport -/

/-- R151. `B_OPEN`: the environment decides; an open channel refuses a second open, with no draw. -/
def Obligations.BOpenOpensOrFails : Prop :=
  ∀ s : State,
    (s.busOpen = false → s.nextOpen = true → ∃ t : State, exec .bOpen s = .next t ∧
      t = { s with seq := .idle, seqTrace := [.opening], busOpen := true, rxq := [], txq := [],
                   wire := s.wire ++ [.opened], env := { s.env with opens := s.env.opens.tail },
                   draws := s.draws + 1, resp := some ⟨t.statusWord, .none, .none⟩ }) ∧
    (s.busOpen = false → s.nextOpen = false → ∃ t : State, exec .bOpen s = .next t ∧
      t = { s with seq := .idle, seqTrace := [.opening], err := .transportOpenFailure,
                   wire := s.wire ++ [.openFailed], env := { s.env with opens := s.env.opens.tail },
                   draws := s.draws + 1, resp := some ⟨t.statusWord, .transportOpenFailure, .none⟩ }) ∧
    (s.busOpen = true →
      exec .bOpen s = .next { s with resp := some ⟨s.statusWord, .busAlreadyOpen, .none⟩ })

/-- R155. `B_CLOSE` empties the queues and closes; closing a closed channel changes nothing and succeeds. -/
def Obligations.BCloseCloses : Prop :=
  ∀ s : State,
    (s.busOpen = true → ∃ t : State, exec .bClose s = .next t ∧
      t = { s with seq := .idle, seqTrace := [.closing], busOpen := false, rxq := [], txq := [],
                   wire := s.wire ++ [.closed], resp := some ⟨t.statusWord, .none, .none⟩ }) ∧
    (s.busOpen = false → ∃ t : State, exec .bClose s = .next t ∧
      t = { s with seq := .idle, seqTrace := [.closing], resp := some ⟨t.statusWord, .none, .none⟩ })

/-- R154. `B_FLUSH` empties both queues and nothing else. That it also closes the response window of an earlier request
is the model's choice (log entry 17). -/
def Obligations.BFlushEmptiesTheQueues : Prop :=
  ∀ s : State, s.busOpen = true → ∃ t : State, exec .bFlush s = .next t ∧
    t = { s with seq := .idle, seqTrace := [.flushing], rxq := [], txq := [], rqWindow := false,
                 wire := s.wire ++ [.flushed], resp := some ⟨t.statusWord, .none, .none⟩ }

/-- R152 with the gap passed and no window open: `B_WRITE` puts exactly its bytes on the line, when nothing is queued; an
empty string does nothing. A frame of one of the four layouts goes out as the instruction of its row does, for which
its own statements hold (log entry 20). The model's readings beside it: an empty string makes no draw, always succeeds
and leaves `TMR_GAP` (log entry 25, DEDUCED); bytes that hold a whole read request, whatever its checksum, open a
response window (log entry 17, DEDUCED); no fault is recorded, not even for several frames in the one write (log entry
45, DESIGN CHOICE); bytes that are no frame of the spec, and any bytes on a line that was not clean, leave nothing known
of the actuators (log entry 14, DESIGN CHOICE). -/
def Obligations.BWriteTransmitsItsBytes : Prop :=
  ∀ (s : State) (bytes : List Byte), s.busOpen = true →
    (∀ i : Instr, decode (.outFrame bytes) = .ok i → exec (.bWrite bytes) s = exec i s) ∧
    (s.tmrGap.atLeast 1000 = true → s.rqWindow = false → bytes = [] → ∃ t : State, exec (.bWrite bytes) s = .next t ∧
      t = { s with seq := .idle, seqTrace := [.writing], resp := some ⟨t.statusWord, .none, .none⟩ }) ∧
    (s.tmrGap.atLeast 1000 = true → s.rqWindow = false → bytes ≠ [] → s.txq = [] → s.nextWrite = .ok →
      ∃ t : State, exec (.bWrite bytes) s = .next t ∧
        t = { s with seq := .idle, seqTrace := [.writing], wire := s.wire ++ [.wrote bytes],
                     tmrGap := .since 0, rqWindow := t.rqWindow,
                     env := { s.env with writes := s.env.writes.tail }, draws := s.draws + 1,
                     actMem := t.actMem, lineClean := t.lineClean,
                     resp := some ⟨t.statusWord, .none, .none⟩ } ∧
        (t.rqWindow = true ↔ ∃ (l r : List Byte) (id sum : Byte),
          bytes = l ++ [0x07, 0x03, 0x00, id, 0x2C, 0x02, sum] ++ r) ∧
        (s.lineClean = false ∨ (∀ i : Instr, decodeOut bytes = .ok i → i.wf = false) →
          t.lineClean = false ∧ ∀ a : Nat, t.actMem.read a = none))

/-- R152, U14 with the gap passed and no window open: a failed `B_WRITE` puts a proper initial part of its bytes on the line, empties `TXQ`, and
raises code 8. R152 says nothing of `TMR_GAP` in this branch: that it restarts when a byte went out is the model's
reading (log entry 16, DEDUCED); that a request which went out whole opens its window, and that what the actuators hold
is unknown once a byte went out, are too (log entries 17, DEDUCED, and 14, DESIGN CHOICE); and that no fault is recorded
for several frames in the part that went out (log entry 45, DESIGN CHOICE). -/
def Obligations.BWriteFailureCutsTheFrame : Prop :=
  ∀ (s : State) (bytes : List Byte) (k : Nat), s.busOpen = true → bytes ≠ [] → s.lineSpaced = true →
    s.nextWrite = .fail k → ∃ (t : State) (part : List Byte), exec (.bWrite bytes) s = .next t ∧
      part.IsPrefix bytes ∧ part.length < bytes.length ∧ (k < bytes.length → part.length = k) ∧
      t = { s with seq := .idle, seqTrace := [.writing], wire := s.wire ++ [.cut part], txq := [],
                   err := .busWriteFailure, tmrGap := if part = [] then s.tmrGap else .since 0,
                   rqWindow := t.rqWindow,
                   actMem := if part = [] then s.actMem else [],
                   lineClean := s.lineClean && decide (part = []),
                   env := { s.env with writes := s.env.writes.tail }, draws := s.draws + 1,
                   resp := some ⟨t.statusWord, .busWriteFailure, .none⟩ } ∧
      (t.rqWindow = true ↔ ∃ (l r : List Byte) (id sum : Byte),
        part = l ++ [0x07, 0x03, 0x00, id, 0x2C, 0x02, sum] ++ r)

/-- R153. `B_READ n` takes from the head of `RXQ` what is there at once, or after waiting what has arrived by then, never
more than `n`; a short read is no error; nothing is lost or reordered. That it closes the response window of an
earlier request is the model's choice (log entry 17), as is drawing arrivals only when it waits (log entry 26) and that
a read which ran to its timeout adds it to `TMR_GAP` (log entry 16). -/
def Obligations.BReadTakesFromTheHead : Prop :=
  ∀ (s : State) (n : Byte), s.busOpen = true → ∃ (t : State) (r : List Byte), exec (.bRead n) s = .next t ∧
    t = { s with seq := .idle, seqTrace := [.reading], rxq := t.rxq, tmrRto := .stopped, tmrGap := t.tmrGap,
                 rqWindow := false, wire := s.wire ++ [.readBack n.toNat r], env := t.env, draws := t.draws,
                 resp := some ⟨t.statusWord, .none, .bytes r⟩ } ∧
    (n.toNat ≤ s.rxq.length → r ++ t.rxq = s.rxq ∧ r.length = n.toNat ∧ t.tmrGap = s.tmrGap ∧ t.env = s.env ∧
      t.draws = s.draws) ∧
    (s.rxq.length < n.toNat → r ++ t.rxq = s.rxq ++ s.nextArrivals ∧
      r.length = min n.toNat (s.rxq ++ s.nextArrivals).length ∧
      t.tmrGap = (if (s.rxq ++ s.nextArrivals).length < n.toNat then s.tmrGap.add 100000 else s.tmrGap) ∧
      t.env = { s.env with arrivals := s.env.arrivals.tail } ∧ t.draws = s.draws + 1)

/-- R158, R105. A response that arrives is appended to `RXQ` whole and unexamined while the channel is open, and is lost
while it is closed; nothing else changes. So it is of any bytes, response or not, at any step: a plan of the host that is
under way does not hold them back (how a script places them among its actions: log entry 48). -/
def Obligations.ResponsesQueueWhileOpen : Prop :=
  ∀ (s : State) (size cmd status id lo hi sum : Byte) (pad : List Byte),
    (s.busOpen = true → exec (.rs size cmd status id lo hi sum pad) s =
      .next { s with rxq := s.rxq ++ [size, cmd, status, id, lo, hi, sum] ++ pad }) ∧
    (s.busOpen = false → exec (.rs size cmd status id lo hi sum pad) s = .next s) ∧
    (∀ (bs : List Byte) (rest : List Event), s.seq = .idle → s.inbox = .present (.inFrame bs) :: rest →
      step s = .next { s with inbox := rest, rxq := if s.busOpen = true then s.rxq ++ bs else s.rxq })

/-! ## Unit BC: the servo commands -/

/-- R172 with the gap passed and no window open: `TQ_ON` writes Free, waits at least 100 ms, writes Normal. On a clean line
the actuator's torque mode is then Normal and no other cell of any actuator has changed (log entry 13, DEDUCED); on a
line that was not clean nothing is known of any actuator (log entry 14, DESIGN CHOICE). -/
def Obligations.TqOnSendsFreeThenNormal : Prop :=
  ∀ (s : State) (id : Byte), s.busOpen = true → s.txq = [] → s.lineSpaced = true → s.nextWrite = .ok →
    s.popWrite.nextWrite = .ok → ∃ t : State, exec (.tqOn id) s = .next t ∧
      t = { s with seq := .idle, seqTrace := [.tqEncFree, .tqWrFree, .tqWait, .tqEncNormal, .tqWrNormal],
                   txbuf := lineNormal id ++ s.txbuf.drop 8, txlen := 8,
                   wire := s.wire ++ [.wrote (lineFree id), .waited 100000, .wrote (lineNormal id)],
                   tmrDelay := .stopped, tmrGap := .since 0, actMem := t.actMem,
                   env := { s.env with writes := s.env.writes.tail.tail }, draws := s.draws + 2,
                   resp := some ⟨t.statusWord, .none, .none⟩ } ∧
      (s.lineClean = true → t.actMem.read (regAddr id params.addrTorqueMode) = some params.dataNormal ∧
        ∀ a : Nat, a ≠ regAddr id params.addrTorqueMode → t.actMem.read a = s.actMem.read a) ∧
      (s.lineClean = false → ∀ a : Nat, t.actMem.read a = none)

/-- R172, R265 with the gap passed and no window open: when the first write of `TQ_ON` fails there is no wait and no Normal frame; when the
second fails the Free frame and the wait stand. Either way code 8 is raised (R171). The model's readings: `TMR_GAP`
restarts when a byte went out (log entry 16, DEDUCED); what the actuators hold is then unknown (log entry 14, DESIGN
CHOICE), as it is on a line that was not clean; and when none went out of the second frame on a clean line the torque mode
is Free (log entry 13, DEDUCED). -/
def Obligations.TqOnStopsAtTheFailedWrite : Prop :=
  ∀ (s : State) (id : Byte) (k : Nat), s.busOpen = true → s.txq = [] → s.lineSpaced = true →
    (s.nextWrite = .fail k → ∃ t : State, exec (.tqOn id) s = .next t ∧
      t = { s with seq := .idle, seqTrace := [.tqEncFree, .tqWrFree],
                   txbuf := lineFree id ++ s.txbuf.drop 8, txlen := 8,
                   wire := s.wire ++ [.cut ((lineFree id).take (min k 7))], err := .busWriteFailure,
                   tmrGap := if k = 0 then s.tmrGap else .since 0,
                   actMem := if k = 0 then s.actMem else [], lineClean := s.lineClean && decide (k = 0),
                   env := { s.env with writes := s.env.writes.tail }, draws := s.draws + 1,
                   resp := some ⟨t.statusWord, .busWriteFailure, .none⟩ }) ∧
    (s.nextWrite = .ok → s.popWrite.nextWrite = .fail k → ∃ t : State, exec (.tqOn id) s = .next t ∧
      t = { s with seq := .idle, seqTrace := [.tqEncFree, .tqWrFree, .tqWait, .tqEncNormal, .tqWrNormal],
                   txbuf := lineNormal id ++ s.txbuf.drop 8, txlen := 8,
                   wire := s.wire ++ [.wrote (lineFree id), .waited 100000,
                     .cut ((lineNormal id).take (min k 7))],
                   err := .busWriteFailure, tmrDelay := .stopped,
                   tmrGap := if k = 0 then .since 100000 else .since 0, actMem := t.actMem,
                   lineClean := s.lineClean && decide (k = 0), env := { s.env with writes := s.env.writes.tail.tail },
                   draws := s.draws + 2, resp := some ⟨t.statusWord, .busWriteFailure, .none⟩ } ∧
      (k ≠ 0 ∨ s.lineClean = false → t.actMem = []) ∧
      (k = 0 → s.lineClean = true → t.actMem.read (regAddr id params.addrTorqueMode) = some params.dataFree ∧
        ∀ a : Nat, a ≠ regAddr id params.addrTorqueMode → t.actMem.read a = s.actMem.read a))

/-- R173 with the gap passed and no window open: `TQ_OFF` writes the Free frame only. On a clean line the actuator's torque
mode is then Free and no other cell has changed (log entry 13, DEDUCED); on a line that was not clean nothing is known
of any actuator (log entry 14, DESIGN CHOICE). -/
def Obligations.TqOffSendsFreeOnly : Prop :=
  ∀ (s : State) (id : Byte), s.busOpen = true → s.txq = [] → s.lineSpaced = true → s.nextWrite = .ok →
    ∃ t : State, exec (.tqOff id) s = .next t ∧
      t = { s with seq := .idle, seqTrace := [.tqEncFree, .tqWrFree],
                   txbuf := lineFree id ++ s.txbuf.drop 8, txlen := 8, wire := s.wire ++ [.wrote (lineFree id)],
                   tmrGap := .since 0, actMem := t.actMem,
                   env := { s.env with writes := s.env.writes.tail }, draws := s.draws + 1,
                   resp := some ⟨t.statusWord, .none, .none⟩ } ∧
      (s.lineClean = true → t.actMem.read (regAddr id params.addrTorqueMode) = some params.dataFree ∧
        ∀ a : Nat, a ≠ regAddr id params.addrTorqueMode → t.actMem.read a = s.actMem.read a) ∧
      (s.lineClean = false → ∀ a : Nat, t.actMem.read a = none)

/-- R175, R205 with the gap passed and no window open: `SETPOS` writes one position frame, of the converted angle clamped
as an integer to ±8000. On a clean line target and position registers become unknown and no other cell changes (log
entry 13, DEDUCED); on a line that was not clean nothing is known of any actuator (log entry 14, DESIGN CHOICE). -/
def Obligations.SetposSendsTheClampedPosition : Prop :=
  ∀ (s : State) (id : Byte) (d : Deg), s.busOpen = true → s.txq = [] → s.lineSpaced = true → s.nextWrite = .ok →
    ∃ (t : State) (q raw : Int), exec (.setpos id d) s = .next t ∧ q = degToRaw s.cfg.rawRound d ∧
      (q ≤ -8000 → raw = -8000) ∧ (8000 ≤ q → raw = 8000) ∧ (-8000 ≤ q → q ≤ 8000 → raw = q) ∧
      t = { s with seq := .idle, seqTrace := [.spConv, .spClamp, .spEnc, .spWrite],
                   txbuf := linePosition id (BitVec.ofInt 16 raw) ++ s.txbuf.drop 9, txlen := 9,
                   wire := s.wire ++ [.wrote (linePosition id (BitVec.ofInt 16 raw))], tmrGap := .since 0,
                   actMem := t.actMem, env := { s.env with writes := s.env.writes.tail }, draws := s.draws + 1,
                   resp := some ⟨t.statusWord, .none, .none⟩ } ∧
      (∀ a ∈ moved id, t.actMem.read a = none) ∧
      (s.lineClean = true → ∀ a : Nat, a ∉ moved id → t.actMem.read a = s.actMem.read a) ∧
      (s.lineClean = false → ∀ a : Nat, t.actMem.read a = none)

/-- R171, R259 with the gap passed and no window open: a failed write ends `TQ_OFF` and `SETPOS`, code 8 is raised, a proper part of the frame,
the Free frame or the position frame of the clamped angle, may have gone out. The model's readings: `TMR_GAP` restarts
when a byte went out (log entry 16, DEDUCED), and what the actuators hold is then unknown (log entry 14, DESIGN CHOICE);
a line that was not clean stays so. -/
def Obligations.FailedServoWritesAreRaised : Prop :=
  ∀ (s : State) (id : Byte) (d : Deg) (k : Nat), s.busOpen = true → s.lineSpaced = true → s.nextWrite = .fail k →
    (∃ t : State, exec (.tqOff id) s = .next t ∧
      t = { s with seq := .idle, seqTrace := [.tqEncFree, .tqWrFree],
                   txbuf := lineFree id ++ s.txbuf.drop 8, txlen := 8, txq := [],
                   wire := s.wire ++ [.cut ((lineFree id).take (min k 7))], err := .busWriteFailure,
                   tmrGap := if k = 0 then s.tmrGap else .since 0,
                   actMem := if k = 0 then s.actMem else [], lineClean := s.lineClean && decide (k = 0),
                   env := { s.env with writes := s.env.writes.tail }, draws := s.draws + 1,
                   resp := some ⟨t.statusWord, .busWriteFailure, .none⟩ }) ∧
    (∃ (t : State) (f : List Byte), exec (.setpos id d) s = .next t ∧
      f = linePosition id (setposRaw s.cfg.rawRound d) ∧
      t = { s with seq := .idle, seqTrace := [.spConv, .spClamp, .spEnc, .spWrite],
                   txbuf := f ++ s.txbuf.drop 9, txlen := 9, txq := [],
                   wire := s.wire ++ [.cut (f.take (min k 8))], err := .busWriteFailure,
                   tmrGap := if k = 0 then s.tmrGap else .since 0,
                   actMem := if k = 0 then s.actMem else [], lineClean := s.lineClean && decide (k = 0),
                   env := { s.env with writes := s.env.writes.tail }, draws := s.draws + 1,
                   resp := some ⟨t.statusWord, .busWriteFailure, .none⟩ })

/-- R176 with the gap passed (log entries 15 to 17): `RDPOS` flushes, writes the request, waits, reads up to 12 bytes, and
answers the position of at least 7 bytes, or `None` with code 2 and a warning. An open response window does not matter:
the flush closes it (R300). `TMR_GAP` then counts the wait after the request and, when the read ran to its end, the read
timeout (log entry 16); on a line that was not clean nothing is known of the actuators (log entry 14). -/
def Obligations.RdposReadsThePosition : Prop :=
  ∀ (s : State) (id : Byte) (r : List Byte), s.busOpen = true → s.tmrGap.atLeast 1000 = true → s.nextWrite = .ok →
    s.popWrite.nextArrivals = r → ∃ t : State, exec (.rdpos id) s = .next t ∧
      t = { s with seq := .idle, seqTrace := [.rdFlush, .rdEnc, .rdWrite, .rdWait, .rdRead, .rdDecode],
                   txbuf := lineRequest id ++ s.txbuf.drop 7, txlen := 7, rxbuf := t.rxbuf,
                   rxlen := min 12 r.length, rxq := r.drop 12, txq := [], rspShort := decide (r.length < 7),
                   posValid := decide (7 ≤ r.length),
                   err := if r.length < 7 then .shortResponse else s.err,
                   log := if r.length < 7 then s.log ++ [⟨.warning, .shortResponse id r.length⟩] else s.log,
                   tmrDelay := .stopped, tmrRto := .stopped,
                   tmrGap := .since (if r.length < 12 then 150000 else 50000), rqWindow := false,
                   actMem := if s.lineClean = true then s.actMem else [],
                   wire := s.wire ++ [.flushed, .wrote (lineRequest id), .waited 50000, .readBack 12 (r.take 12)],
                   env := { s.env with writes := s.env.writes.tail, arrivals := s.env.arrivals.tail },
                   draws := s.draws + 3,
                   resp := some ⟨t.statusWord, .none,
                     if r.length < 7 then .absentValue else .deg (responseDegrees r)⟩ } ∧
      t.rxbuf.take (min 12 r.length) = r.take 12

/-- R176, R171: with the channel open `RDPOS` raises nothing: it completes in every state, with a position or with
`None`, and the two outcome flags say which; a failed request leaves `RXLEN` 0, code 8 and a warning. -/
def Obligations.RdposNeverRaises : Prop :=
  ∀ (s : State) (id : Byte), s.busOpen = true →
    (∃ (t : State) (d : Deg), exec (.rdpos id) s = .next t ∧
      ((t.rspShort = false ∧ t.posValid = true ∧ t.err = s.err ∧ t.log = s.log ∧
          t.resp = some ⟨t.statusWord, .none, .deg d⟩ ∧ ∃ v : Int, -32768 ≤ v ∧ v ≤ 32767 ∧ 100 * d = (v : Rat)) ∨
        (t.rspShort = true ∧ t.posValid = false ∧ t.err ≠ .none ∧
          t.resp = some ⟨t.statusWord, .none, .absentValue⟩))) ∧
    (∀ k : Nat, s.nextWrite = .fail k → ∃ t : State, exec (.rdpos id) s = .next t ∧
      t.rspShort = true ∧ t.posValid = false ∧ t.rxlen = 0 ∧ t.err = .busWriteFailure ∧
      t.log = s.log ++ [⟨.warning, .writeFailed id⟩] ∧ t.caloffYaw = s.caloffYaw ∧ t.caloffPitch = s.caloffPitch ∧
      t.calmem = s.calmem ∧ t.calStatus = s.calStatus ∧ t.saveFail = s.saveFail ∧ t.calFail = s.calFail ∧
      t.busOpen = s.busOpen ∧ t.wire = s.wire ++ [.flushed, .cut ((lineRequest id).take (min k 6))])

/-! ## The frame rows as instructions -/

/-- R102 with log entries 13 and 20: the Free frame with the gap passed and no window open reaches the actuators whole;
the torque mode of the actuator its id names is then Free and no other cell changes, on a clean line; on one that was not,
nothing is known of any actuator (log entry 14). -/
def Obligations.FreeFrameSetsTorqueMode : Prop :=
  ∀ (s : State) (id sum : Byte), WellFormed (.tqFree id sum) → s.busOpen = true → s.txq = [] →
    s.lineSpaced = true → s.nextWrite = .ok → ∃ t : State, exec (.tqFree id sum) s = .next t ∧
      t = { s with seq := .idle, seqTrace := [.writing], wire := s.wire ++ [.wrote (lineFree id)],
                   tmrGap := .since 0, actMem := t.actMem,
                   env := { s.env with writes := s.env.writes.tail }, draws := s.draws + 1,
                   resp := some ⟨t.statusWord, .none, .none⟩ } ∧
      (s.lineClean = true → t.actMem.read (regAddr id params.addrTorqueMode) = some params.dataFree ∧
        ∀ a : Nat, a ≠ regAddr id params.addrTorqueMode → t.actMem.read a = s.actMem.read a) ∧
      (s.lineClean = false → ∀ a : Nat, t.actMem.read a = none)

/-- R102, R302, U3 with log entries 13 and 20: the Normal frame with the gap passed and no window open; the torque
mode is then known to be Normal only when it was known to be Free at least 100 ms before, and unknown otherwise; no other
cell changes, on a clean line; on one that was not, nothing is known of any actuator (log entry 14). -/
def Obligations.NormalFrameNeedsFreeFirst : Prop :=
  ∀ (s : State) (id sum : Byte), WellFormed (.tqNormal id sum) → s.busOpen = true → s.txq = [] →
    s.lineSpaced = true → s.nextWrite = .ok → ∃ t : State, exec (.tqNormal id sum) s = .next t ∧
      t = { s with seq := .idle, seqTrace := [.writing], wire := s.wire ++ [.wrote (lineNormal id)],
                   tmrGap := .since 0, actMem := t.actMem,
                   env := { s.env with writes := s.env.writes.tail }, draws := s.draws + 1,
                   resp := some ⟨t.statusWord, .none, .none⟩ } ∧
      t.actMem.read (regAddr id params.addrTorqueMode) =
        (if s.lineClean = true ∧ s.tmrGap.atLeast 100000 = true ∧
            s.actMem.read (regAddr id params.addrTorqueMode) = some params.dataFree
          then some params.dataNormal else none) ∧
      (s.lineClean = true →
        ∀ a : Nat, a ≠ regAddr id params.addrTorqueMode → t.actMem.read a = s.actMem.read a) ∧
      (s.lineClean = false → ∀ a : Nat, t.actMem.read a = none)

/-- R103, R82 with log entries 13 and 20: the position frame with the gap passed and no window open; target and
position of the actuator it names become unknown; no other cell changes, on a clean line; on one that was not, nothing is
known of any actuator (log entry 14). -/
def Obligations.PositionFrameMovesTheMechanism : Prop :=
  ∀ (s : State) (id lo hi sum : Byte), WellFormed (.sp id lo hi sum) → s.busOpen = true → s.txq = [] →
    s.lineSpaced = true → s.nextWrite = .ok → ∃ t : State, exec (.sp id lo hi sum) s = .next t ∧
      t = { s with seq := .idle, seqTrace := [.writing],
                   wire := s.wire ++ [.wrote [0x09, 0x06, 0x00, id, lo, hi, 0x00, 0x00, 0x0F + id + lo + hi]],
                   tmrGap := .since 0, actMem := t.actMem,
                   env := { s.env with writes := s.env.writes.tail }, draws := s.draws + 1,
                   resp := some ⟨t.statusWord, .none, .none⟩ } ∧
      (∀ a ∈ moved id, t.actMem.read a = none) ∧
      (s.lineClean = true → ∀ a : Nat, a ∉ moved id → t.actMem.read a = s.actMem.read a) ∧
      (s.lineClean = false → ∀ a : Nat, t.actMem.read a = none)

/-- R104, R82 with log entries 17 and 20: the read request with the gap passed and no window open changes no actuator
cell and opens a response window; on a line that was not clean nothing is known of any actuator (log entry 14). -/
def Obligations.ReadRequestOpensAWindow : Prop :=
  ∀ (s : State) (id sum : Byte), WellFormed (.rq id sum) → s.busOpen = true → s.txq = [] →
    s.lineSpaced = true → s.nextWrite = .ok → ∃ t : State, exec (.rq id sum) s = .next t ∧
      t = { s with seq := .idle, seqTrace := [.writing], wire := s.wire ++ [.wrote (lineRequest id)],
                   tmrGap := .since 0, rqWindow := true, actMem := if s.lineClean = true then s.actMem else [],
                   env := { s.env with writes := s.env.writes.tail }, draws := s.draws + 1,
                   resp := some ⟨t.statusWord, .none, .none⟩ }

/-! ## Errors, refusals, rules of use -/

/-- R262, R116. Every refusal: the response record carries the code and nothing else of the state changes, `ERR`
included. -/
def Obligations.RefusalsChangeNothing : Prop :=
  ∀ s : State,
    (∀ r : Request, r.op ∉ [0x01, 0x02, 0x03, 0x04, 0x05, 0x10, 0x11, 0x12, 0x13, 0x20, 0x21, 0x22, 0x23, 0x24,
        0x25, 0x26, 0x30, 0x31, 0x32, 0x33, (0x34 : Byte)] →
      issueRequest r s = .next { s with resp := some ⟨s.statusWord, .illegalOp, .none⟩ }) ∧
    (∀ id mode : Byte, mode ≠ 0x02 → mode ≠ 0x00 →
      exec (.encTq id mode) s = .next { s with resp := some ⟨s.statusWord, .illegalOperand, .none⟩ }) ∧
    (∀ (sel : Byte) (d : Deg), sel ≠ 0 → sel ≠ 1 →
      exec (.axMap sel d) s = .next { s with resp := some ⟨s.statusWord, .illegalOperand, .none⟩ } ∧
      exec (.calApply sel d) s = .next { s with resp := some ⟨s.statusWord, .illegalOperand, .none⟩ }) ∧
    (∀ y p : Deg, (∀ k : Nat, ¬((10 : Rat) ^ k * y).isInt) ∨ (∀ k : Nat, ¬((10 : Rat) ^ k * p).isInt) →
      exec (.calSv y p) s = .next { s with resp := some ⟨s.statusWord, .illegalOperand, .none⟩ }) ∧
    (s.busOpen = false → ∀ (id n : Byte) (d : Deg) (bytes : List Byte),
      ∀ i ∈ [Instr.bWrite bytes, .bRead n, .bFlush, .tqOn id, .tqOff id, .setpos id d, .rdpos id, .calRun],
        exec i s = .next { s with resp := some ⟨s.statusWord, .busNotOpen, .none⟩ }) ∧
    (s.busOpen = true →
      exec .bOpen s = .next { s with resp := some ⟨s.statusWord, .busAlreadyOpen, .none⟩ })

/-- R261, R300, R301, U9 with log entries 14 to 17: a write less than 1000 µs after the last byte, or with a request
still awaiting its read, is transmitted as any write, its faults are recorded, and nothing is known of the actuators
any more; so it is for a write that then fails. The rules hold of an empty write too, which then still writes nothing (log entry 25, DEDUCED). They are tested
once for each write, on the state before it, and frames inside one write are not held against each other (log entry 45,
DESIGN CHOICE). `TQ_ON`, `TQ_OFF` and `SETPOS` record the violations of their writes whatever the draws, as do `RDPOS` and
`CAL_RUN`, whose flush has closed an open window before their first write. -/
def Obligations.GapViolationsAreRecorded : Prop :=
  (∀ (s : State) (bytes : List Byte) (us : Nat), s.busOpen = true → bytes ≠ [] → s.txq = [] → s.nextWrite = .ok →
    (s.tmrGap = .since us ∧ us < 1000) ∨ s.rqWindow = true →
    ∃ t : State, exec (.bWrite bytes) s = .next t ∧
      t = { s with seq := .idle, seqTrace := [.writing], wire := s.wire ++ [.wrote bytes], tmrGap := .since 0,
                   rqWindow := t.rqWindow,
                   env := { s.env with writes := s.env.writes.tail }, draws := s.draws + 1,
                   faults := s.faults ++
                     (if s.tmrGap.atLeast 1000 = true then [] else [.gapViolation .spacing]) ++
                     (if s.rqWindow = true then [.gapViolation .window] else []),
                   actMem := [], lineClean := false, resp := some ⟨t.statusWord, .none, .none⟩ } ∧
      t.faults ≠ s.faults ∧
      (t.rqWindow = true ↔ s.rqWindow = true ∨ ∃ (l r : List Byte) (id sum : Byte),
        bytes = l ++ [0x07, 0x03, 0x00, id, 0x2C, 0x02, sum] ++ r)) ∧
  (∀ (s : State) (bytes : List Byte) (us k : Nat), s.busOpen = true → bytes ≠ [] → s.nextWrite = .fail k →
    (s.tmrGap = .since us ∧ us < 1000) ∨ s.rqWindow = true →
    ∃ (t : State) (part : List Byte), exec (.bWrite bytes) s = .next t ∧
      part.IsPrefix bytes ∧ part.length < bytes.length ∧ (k < bytes.length → part.length = k) ∧
      t = { s with seq := .idle, seqTrace := [.writing], wire := s.wire ++ [.cut part], txq := [],
                   err := .busWriteFailure, tmrGap := if part = [] then s.tmrGap else .since 0,
                   rqWindow := t.rqWindow,
                   env := { s.env with writes := s.env.writes.tail }, draws := s.draws + 1,
                   faults := s.faults ++
                     (if s.tmrGap.atLeast 1000 = true then [] else [.gapViolation .spacing]) ++
                     (if s.rqWindow = true then [.gapViolation .window] else []),
                   actMem := [], lineClean := false, resp := some ⟨t.statusWord, .busWriteFailure, .none⟩ } ∧
      t.faults ≠ s.faults ∧
      (t.rqWindow = true ↔ s.rqWindow = true ∨ ∃ (l r : List Byte) (id sum : Byte),
        part = l ++ [0x07, 0x03, 0x00, id, 0x2C, 0x02, sum] ++ r)) ∧
  (∀ (s : State) (us : Nat), s.busOpen = true → (s.tmrGap = .since us ∧ us < 1000) ∨ s.rqWindow = true →
    ∃ t : State, exec (.bWrite []) s = .next t ∧
      t = { s with seq := .idle, seqTrace := [.writing],
                   faults := s.faults ++
                     (if s.tmrGap.atLeast 1000 = true then [] else [.gapViolation .spacing]) ++
                     (if s.rqWindow = true then [.gapViolation .window] else []),
                   actMem := [], lineClean := false, resp := some ⟨t.statusWord, .none, .none⟩ } ∧
      t.faults ≠ s.faults) ∧
  (∀ (s : State) (id : Byte) (d : Deg) (us : Nat) (i : Instr), s.busOpen = true →
    ((s.tmrGap = .since us ∧ us < 1000) ∨ s.rqWindow = true) ∧ i ∈ [Instr.tqOn id, .tqOff id, .setpos id d] ∨
      (s.tmrGap = .since us ∧ us < 1000) ∧ i ∈ [Instr.rdpos id, .calRun] →
    ∃ (t : State) (l : List Fault), exec i s = .next t ∧ l ≠ [] ∧ t.faults = s.faults ++ l ∧ t.actMem = [] ∧
      t.lineClean = false)

/-- R47. `ERR` is sticky: no instruction brings it back to `NONE`, and one that leaves another value in it left an error
code in it. -/
def Obligations.ErrIsSticky : Prop :=
  ∀ (i : Instr) (s t : State), exec i s = .next t → t.err = s.err ∨ (t.err ≠ .none ∧ t.err.recorded = true)

/-! ## Which instruction writes what -/

/-- R43. `BUS_OPEN` is set only by a `B_OPEN` that succeeds and cleared only by `B_CLOSE`, which leaves it 0. -/
def Obligations.BusOpenChangesOnlyByOpenAndClose : Prop :=
  ∀ (i : Instr) (s t : State), exec i s = .next t →
    (s.busOpen = false → t.busOpen = true → i = .bOpen) ∧ (s.busOpen = true → t.busOpen = false → i = .bClose) ∧
    (i = .bOpen → s.busOpen = false → t.busOpen = s.nextOpen) ∧ (i = .bClose → t.busOpen = false)

/-- R44. `RSP_SHORT` and `POS_VALID` are written by `RDPOS` and `CAL_RUN` and by nothing else, and a run of one of them
leaves exactly one of the two set, `POS_VALID` exactly when `RDPOS` returned a position. -/
def Obligations.ReadFlagsWrittenOnlyByReads : Prop :=
  ∀ (i : Instr) (s t : State), exec i s = .next t →
    ((∀ id : Byte, i ≠ .rdpos id) → i ≠ .calRun → t.rspShort = s.rspShort ∧ t.posValid = s.posValid) ∧
    (((∃ id : Byte, i = .rdpos id) ∨ i = .calRun) → s.busOpen = true → t.posValid = !t.rspShort) ∧
    (∀ id : Byte, i = .rdpos id → s.busOpen = true →
      (t.posValid = true ↔ ∃ (w : BitVec 16) (d : Deg), t.resp = some ⟨w, .none, .deg d⟩))

/-- R89, R36. `CALOFF` changes only by `CAL_LD` and `CAL_RUN`, the store only by `CAL_SV` and `CAL_RUN`, the offsets stay
finite decimals (R33) and the configuration is never written (R31). -/
def Obligations.CalibrationWrittenOnlyByItsOperations : Prop :=
  ∀ (i : Instr) (s t : State), exec i s = .next t →
    (i ≠ .calLd → i ≠ .calRun → t.caloffYaw = s.caloffYaw ∧ t.caloffPitch = s.caloffPitch) ∧
    ((∀ y p : Deg, i ≠ .calSv y p) → i ≠ .calRun → t.calmem = s.calmem) ∧
    (i ≠ .calLd → t.calStatus = s.calStatus) ∧ t.cfg = s.cfg ∧
    (i = .calLd ∨ i = .calRun → finiteDecimal s.caloffYaw = true → finiteDecimal s.caloffPitch = true →
      finiteDecimal t.caloffYaw = true ∧ finiteDecimal t.caloffPitch = true)

/-- R31. `AXCFG` and the other configuration inputs are constant: no step, whatever it runs, changes them. -/
def Obligations.ConfigurationIsConstant : Prop :=
  ∀ s t : State, step s = .next t → t.cfg = s.cfg

/-- R48. `STATUS` holds each flag at its bit, `CAL_STATUS` and `ERR` as the codes that R45 and R251 number, and the response
of every operation that is accepted or refused between operations carries the `STATUS` of the state it leaves, with
`BUSY` 0. -/
def Obligations.StatusShowsTheFlags : Prop :=
  (∀ s : State, s.statusWord.getLsbD 0 = s.busOpen ∧ s.statusWord.getLsbD 1 = decide (s.seq ≠ .idle) ∧
    s.statusWord.getLsbD 2 = s.rspShort ∧ s.statusWord.getLsbD 3 = s.posValid ∧
    s.statusWord.extractLsb' 4 2 = calStatusCode s.calStatus ∧ s.statusWord.getLsbD 6 = s.saveFail ∧
    s.statusWord.getLsbD 7 = s.calFail ∧ s.statusWord.extractLsb' 8 4 = causeCode s.err ∧
    s.statusWord.extractLsb' 12 4 = 0) ∧
  [CalStatus.notLoaded, .loaded, .absent, .malformed].map calStatusCode = [0, 1, 2, 3] ∧
  [Cause.none, .transportOpenFailure, .shortResponse, .calFileMissing, .calFileMalformed, .calSaveFailure,
    .poseSourceFailure, .unhandledLoopException, .busWriteFailure, .busNotOpen, .illegalOp, .illegalOperand,
    .gapViolation, .calibrationFailed, .busAlreadyOpen].map causeCode =
      [0, 1, 2, 3, 4, 5, 6, 7, 8, 9, 10, 11, 12, 13, 14] ∧
  (∀ (i : Instr) (s t : State), (∀ (b0 b1 b2 b3 b4 b5 b6 : Byte) (pad : List Byte),
      i ≠ .rs b0 b1 b2 b3 b4 b5 b6 pad) → s.seq = .idle → exec i s = .next t →
    ∃ (e : Cause) (r : Result), t.resp = some ⟨t.statusWord, e, r⟩ ∧ t.statusWord.getLsbD 1 = false)

/-! ## Decoding and the step -/

/-- A step runs the decoded instruction, for every instruction, well-formed or not: with `SEQ` idle and an instruction
presented, no plan of the host being under way or the instruction being an arrival, the step is `exec` of what the
decoder reads, on the state with that event taken from the inbox; and a request of the host's plan, when nothing comes in
between, is `exec` of what the decoder reads, on the state without that action, followed by what the host does about an
error (log entries 29 and 48). -/
def Obligations.StepRunsTheDecodedInstruction : Prop :=
  (∀ (s : State) (f : Fetch) (rest : List Event) (i : Instr), s.seq = .idle → s.inbox = .present f :: rest →
    (s.host.plan = [] ∨ ∃ bs : List Byte, f = .inFrame bs) → decode f = .ok i →
    step s = exec i { s with inbox := rest }) ∧
  (∀ (s : State) (r : Request) (g : Guard) (p : List HostAct) (i : Instr), s.seq = .idle →
    s.host.plan = .issue r g :: p → s.host.ended = false → (∀ e ∈ s.inbox.head?, e.waits = true) →
    decode (.request r) = .ok i → ∃ t : State, exec i { s with host := { s.host with plan := p } } = .next t ∧
      step s = .next (if t.lastError = .none then t else t.guarded g r.op t.lastError))

/-- R102 to R105, R115: words written out from the spec's layouts decode to the instructions they stand for. -/
def Obligations.WrittenOutWordsDecode : Prop :=
  decode (.outFrame [0x08, 0x04, 0x00, 0x01, 0x02, 0x28, 0x01, 0x38]) = .ok (.tqFree 0x01 0x38) ∧
  decode (.outFrame [0x08, 0x04, 0x00, 0x01, 0x00, 0x28, 0x01, 0x36]) = .ok (.tqNormal 0x01 0x36) ∧
  decode (.outFrame [0x09, 0x06, 0x00, 0x00, 0x40, 0x1F, 0x00, 0x00, 0x6E]) = .ok (.sp 0x00 0x40 0x1F 0x6E) ∧
  decode (.outFrame [0x07, 0x03, 0x00, 0x01, 0x2C, 0x02, 0x39]) = .ok (.rq 0x01 0x39) ∧
  decode (.inFrame [0x07, 0x00, 0x00, 0x00, 0xD2, 0x04, 0xDD]) = .ok (.rs 0x07 0x00 0x00 0x00 0xD2 0x04 0xDD []) ∧
  decode (.request { op := 0x10, id := 0x01 }) = .ok (.tqOn 0x01) ∧
  decode (.request { op := 0x26 }) = .ok .calRun ∧
  decode (.request { op := 0x32, id := 0x01, raw := 0x1F40 }) = .ok (.encSp 0x01 0x1F40)

/-- Decode and encode agree on every well-formed instruction, with every operand at every value. -/
def Obligations.DecodeOfEncodeIsTheInstruction : Prop :=
  ∀ i : Instr, WellFormed i → decode (encode i) = .ok i

/-- The other direction: a frame that decodes, outgoing or incoming, is exactly the frame the encoder gives its
instruction, so no byte of a frame is dropped or confused; and no byte string fits two of the four outgoing rows of the
table (R119). The fifth frame row, `RS`, fixes no byte (R105): what comes in is told from what goes out by its
direction (log entry 21). -/
def Obligations.EncodeOfDecodedFrameIsTheFrame : Prop :=
  (∀ (bs : List Byte) (i : Instr), decode (.outFrame bs) = .ok i → encode i = .outFrame bs) ∧
  (∀ (bs : List Byte) (i : Instr), decode (.inFrame bs) = .ok i → encode i = .inFrame bs) ∧
  ([rowTqFree, rowTqNormal, rowSp, rowRq].Pairwise fun a b =>
    ∀ bs : List Byte, ¬(a.fits bs = true ∧ b.fits bs = true))

/-! ## Reset and invariants -/

/-- R55, R291, R292. The state after reset, as far as the spec gives it, for every configuration and every store; and
with nothing presented the block stays as it is. -/
def Obligations.ResetValuesAreTheTable : Prop :=
  ∀ (c : Deployment) (store : Option (List Byte)) (s : State), State.resetWith c store = some s →
    s.cfg = c ∧ s.caloffYaw = 0 ∧ s.caloffPitch = 0 ∧ s.calStatus = .notLoaded ∧ s.busOpen = false ∧ s.rxq = [] ∧
    s.txq = [] ∧ s.txlen = 0 ∧ s.rxlen = 0 ∧ s.txbuf.length = 9 ∧ s.rxbuf.length = 12 ∧ s.rspShort = false ∧
    s.posValid = false ∧ s.saveFail = false ∧ s.calFail = false ∧ s.err = .none ∧ s.seq = .idle ∧
    s.tmrDelay = .stopped ∧ s.tmrRto = .stopped ∧ s.tmrGap = .expired ∧ s.calmem = store ∧
    (∀ a : Nat, s.actMem.read a = none) ∧ s.host.loop = .initializing ∧ s.host.loopState = none ∧
    s.host.stopFlag = false ∧ step s = .next s

/-- R293. A configuration that breaks `MIN ≤ CENTER ≤ MAX` on an axis, or gives both axes one id, has no state after
reset; one that keeps it, with the host parameters in their ranges (log entry 38), has one. -/
def Obligations.BadConfigurationsHaveNoReset : Prop :=
  ∀ (c : Deployment) (store : Option (List Byte)),
    (c.yaw.center < c.yaw.min ∨ c.yaw.max < c.yaw.center ∨ c.pitch.center < c.pitch.min ∨
      c.pitch.max < c.pitch.center ∨ c.yaw.id = c.pitch.id → State.resetWith c store = none) ∧
    (c.yaw.min ≤ c.yaw.center → c.yaw.center ≤ c.yaw.max → c.pitch.min ≤ c.pitch.center →
      c.pitch.center ≤ c.pitch.max → c.yaw.id ≠ c.pitch.id → 0 < c.freq → 0 ≤ c.deadband →
      ∃ s : State, State.resetWith c store = some s ∧ s.Inv)

/-- Every step keeps the machine's invariant (Safety.lean), from every state that has it, reachable or not. -/
def Obligations.EveryStepKeepsTheInvariant : Prop :=
  ∀ s t : State, s.Inv → step s = .next t → t.Inv

/-- The invariant holds of the state after reset. -/
def Obligations.ResetHasTheInvariant : Prop := State.reset.Inv

/-! ## The host -/

/-- R225 to R229, R234 of one tick in `Running`, with nothing coming in between: a failed poll issues nothing and leaves
`LoopState`. A sample goes through the pipeline, yaw first; within the deadband on both axes it causes no bus write and
leaves `LoopState`; at or outside it on either axis it is followed by exactly the two position commands, yaw first, with
the wait between them, and then the update of `LoopState`. The sleep that ends the tick makes up, with the time the
tick's processing took (log entry 30), at least `1/FREQ`. That the plan stands before the events that wait is the model's
choice: log entries 29 and 48, DESIGN CHOICE. -/
def Obligations.TicksFollowTheDeadband : Prop :=
  ∀ (s : State) (pose : Pose) (us : Nat) (rest : List Event), s.seq = .idle → s.host.plan = [] →
    s.inbox = .hostTick pose us :: rest → s.host.loop = .running → s.host.ended = false → s.host.stopFlag = false →
    (∀ e ∈ rest.head?, e.waits = true) →
    (pose = .failure → ∃ w : Nat, step s = .next { s with
        inbox := rest, host := { s.host with sample := none, plan := [.wait w] } } ∧
      1000000 / s.cfg.freq ≤ ((us + w : Nat) : Rat)) ∧
    (∀ (c : ControlSample) (ly lp vy vp : Deg), pose = .sample c → s.host.loopState = some (ly, lp) →
      vy = axisMap s.cfg.yaw (applyOffset s.cfg.calSignYaw s.caloffYaw c.yaw) →
      vp = axisMap s.cfg.pitch (applyOffset s.cfg.calSignPitch s.caloffPitch c.pitch) →
      ∃ (t : State) (w : Nat), core.run 6 s = .next t ∧
        t = { s with seqTrace := t.seqTrace, resp := t.resp, inbox := rest,
                     host := { s.host with sample := some c, plan := t.host.plan } } ∧
        (|vy - ly| < s.cfg.deadband → |vp - lp| < s.cfg.deadband → t.host.plan = [.wait w]) ∧
        (s.cfg.deadband ≤ |vy - ly| ∨ s.cfg.deadband ≤ |vp - lp| →
          t.host.plan = [.issue { op := 0x12, id := s.cfg.yaw.id, deg := vy } .shutdown, .wait 1000,
            .issue { op := 0x12, id := s.cfg.pitch.id, deg := vp } .shutdown, .commit vy vp, .wait w]) ∧
        1000000 / s.cfg.freq ≤ ((us + w : Nat) : Rat))

/-- R230, R232, R234, P2 with log entry 29 (the leading wait), for a settle time of at least `T_CMD_GAP`: a stop request
seen by a tick, with all writes of the shutdown succeeding and nothing coming in between (log entry 48), puts on the line
exactly the two centre frames, the settle wait, the two Free frames and then the close, adds no fault, and the host has
ended. -/
def Obligations.StopRunsTheShutdownSequence : Prop :=
  ∀ (s : State) (pose : Pose) (us : Nat) (rest : List Event) (ws : List WriteDraw),
    s.seq = .idle → s.host.plan = [] → s.inbox = .hostTick pose us :: rest → s.host.loop = .running →
    s.host.ended = false → s.host.stopFlag = true → s.busOpen = true → s.txq = [] → s.rqWindow = false →
    1000 ≤ s.cfg.tSettle → s.env.writes = [.ok, .ok, .ok, .ok] ++ ws → (∀ e ∈ rest.head?, e.waits = true) →
    ∃ t : State, core.run 11 s = .next t ∧ t.busOpen = false ∧ t.host.ended = true ∧
      t.host.loop = .shuttingDown ∧ t.host.plan = [] ∧ t.inbox = rest ∧ t.faults = s.faults ∧ t.err = s.err ∧
      t.env.writes = ws ∧
      t.wire = s.wire ++ [.waited 1000,
        .wrote (linePosition s.cfg.yaw.id (setposRaw s.cfg.rawRound s.cfg.yaw.center)), .waited 1000,
        .wrote (linePosition s.cfg.pitch.id (setposRaw s.cfg.rawRound s.cfg.pitch.center)),
        .waited s.cfg.tSettle, .wrote (lineFree s.cfg.yaw.id), .waited 1000,
        .wrote (lineFree s.cfg.pitch.id), .closed]

/-- R158, R231 to R233: an exception in `Running`, in the middle of any plan, gives up the rest of that plan and leads
through every step of the shutdown to the close of the channel and to the end of the host, whatever the writes do and
whatever arrives meanwhile: bytes, stop requests, further exceptions, at any place among its steps (`proceed` places
them, log entry 48). Each of the two centre frames and the two Free frames is tried exactly once, in order, and is either
written whole or cut, and no failure skips what follows. The leading wait, which makes eleven steps beside those of the
events that arrive, and the fields `ended` and `error` are the model's choice: log entry 29, DESIGN CHOICE. -/
def Obligations.ShutdownAlwaysCloses : Prop :=
  ∀ (s : State) (late : List Event), s.seq = .idle → s.inbox = .hostException :: late →
    (∀ e ∈ late, e.waits = false) → s.host.loop = .running → s.host.ended = false → s.busOpen = true →
    ∃ (t : State) (l : List WireEvent), core.run (11 + late.length) s = .next t ∧ t.busOpen = false ∧
      t.host.ended = true ∧ t.host.error = some .unhandledLoopException ∧ t.inbox = [] ∧ t.host.plan = [] ∧
      t.wire = s.wire ++ l ++ [.closed] ∧
      (s.txq = [] → ∃ y p fy fp : WireEvent,
        l = [.waited 1000, y, .waited 1000, p, .waited s.cfg.tSettle, fy, .waited 1000, fp] ∧
        triedOnce (linePosition s.cfg.yaw.id (setposRaw s.cfg.rawRound s.cfg.yaw.center)) y ∧
        triedOnce (linePosition s.cfg.pitch.id (setposRaw s.cfg.rawRound s.cfg.pitch.center)) p ∧
        triedOnce (lineFree s.cfg.yaw.id) fy ∧ triedOnce (lineFree s.cfg.pitch.id) fp)

/-- R223, R252: when the channel does not open, the host's start-up ends there: nothing is written, no further operation
is issued, and the failure is handed to the caller. That `LOOP` stays at `Initializing` then is the model's choice: log
entry 43, DESIGN CHOICE. -/
def Obligations.OpenFailureAbortsStartUp : Prop :=
  ∀ s : State, s.seq = .idle → s.host.plan = [] → s.inbox = [.hostStart] → s.host.loop = .initializing →
    s.host.started = false → s.host.ended = false → s.busOpen = false → s.nextOpen = false →
    ∃ t : State, core.run 2 s = .next t ∧ t.inbox = [] ∧ t.host.plan = [] ∧ t.host.ended = true ∧
      t.host.loop = .initializing ∧
      t.host.error = some .transportOpenFailure ∧ t.busOpen = false ∧ t.err = .transportOpenFailure ∧
      t.wire = s.wire ++ [.openFailed] ∧ t.actMem = s.actMem ∧ t.host.log = s.host.log ++ [.openFatal]

/-- R236 with log entry 44: the calibration action issues `CAL_RUN`, after the inter-command wait, exactly where the rule
puts it: with the channel open, after `TORQUE_ALL_ON` (`TorqueOn` of Safety.lean for both axes), before `Running`;
anywhere else it does nothing. A Free frame to an axis with no Normal frame to it since, a `TQ_OFF` for one, is enough. -/
def Obligations.CalibrationKeepsItsPlace : Prop :=
  ∀ (s : State) (rest : List Event), s.seq = .idle → s.host.plan = [] → s.inbox = .calibrate :: rest →
    (s.busOpen = true → TorqueOn s.cfg.yaw.id s.wire → TorqueOn s.cfg.pitch.id s.wire →
      s.host.loop = .initializing → s.host.ended = false → step s = .next { s with
        inbox := rest, host := { s.host with plan := [.wait 1000, .issue { op := 0x26 } .report] } }) ∧
    (s.busOpen = false ∨ ¬TorqueOn s.cfg.yaw.id s.wire ∨ ¬TorqueOn s.cfg.pitch.id s.wire ∨
      s.host.loop ≠ .initializing ∨ s.host.ended = true → step s = .next { s with inbox := rest }) ∧
    (∀ (id : Byte) (l r : List WireEvent), id = s.cfg.yaw.id ∨ id = s.cfg.pitch.id →
      s.wire = l ++ .wrote (lineFree id) :: r → .wrote (lineNormal id) ∉ r → step s = .next { s with inbox := rest })

/-- The model's host, by its choice (log entry 29, DESIGN CHOICE; for the calibration action log entry 44, DESIGN CHOICE; for
the store log entry 39, DEDUCED): an event that the host's phase does not admit is taken from the inbox and does nothing
else, and a host that has ended drops what a plan still held. It rests on R220 (the transitions of `LOOP`), R223 and R233
(the host issues nothing more after its end, and a second trigger neither restarts nor aborts the shutdown) and R18, R75
(no outside edit of the store during a run); that such an event can come, and that it is then consumed without effect, the
rules do not say. -/
def Obligations.InadmissibleEventsDoNothing : Prop :=
  ∀ (s : State) (rest : List Event), s.seq = .idle →
    (s.host.plan = [] → (∃ (p : Pose) (us : Nat), s.inbox = .hostTick p us :: rest) →
      s.host.loop ≠ .running ∨ s.host.ended = true → step s = .next { s with inbox := rest }) ∧
    (s.inbox = .hostException :: rest →
      s.host.loop ≠ .running ∨ s.host.ended = true → step s = .next { s with inbox := rest }) ∧
    (s.host.plan = [] → s.inbox = .hostStart :: rest →
      s.host.loop ≠ .initializing ∨ s.host.started = true ∨ s.host.ended = true →
      step s = .next { s with inbox := rest }) ∧
    (s.host.plan = [] → (∃ p : Pseudo, s.inbox = .pseudo p :: rest) ∨ s.inbox = .calibrate :: rest →
      s.host.loop = .shuttingDown ∨ s.host.ended = true → step s = .next { s with inbox := rest }) ∧
    (s.host.plan = [] → (∃ c : Option (List Byte), s.inbox = .storeEdit c :: rest) →
      s.host.loop = .running ∨ s.host.ended = false ∧ (s.host.started = true ∨ s.host.loop = .shuttingDown) →
      step s = .next { s with inbox := rest }) ∧
    (s.host.plan = [] → s.inbox = .proceed :: rest → step s = .next { s with inbox := rest }) ∧
    (∀ (a : HostAct) (p : List HostAct), s.host.ended = true → s.host.plan = a :: p →
      (∀ e ∈ s.inbox.head?, e.waits = true) → step s = .next { s with host := { s.host with plan := p } })
end

