-- ==== Sys2Proof/Laws/CalGrammar.lean ====
section
/-! SUPPORT. The parser of the calibration store against the grammar that R198 writes (`CalLine` of Safety.lean): a line is
parsed exactly when it matches, and to its exact value. -/

namespace Sys2Proof.Machine

theorem isDigit_iff (b : Byte) : isDigit b = true ↔ 0x30 ≤ b.toNat ∧ b.toNat ≤ 0x39 := by
  simp [isDigit]

theorem all_isDigit_iff (t : List Byte) : t.all isDigit = true ↔ DigitText t := by
  simp only [List.all_eq_true, isDigit_iff, DigitText]

theorem digitsValue_eq (t : List Byte) : digitsValue t = decimalValue t := by
  unfold digitsValue decimalValue
  induction t using List.reverseRecOn with
  | nil => rfl
  | append_singleton t b ih =>
    simp only [List.foldl_append, ih, List.foldl, List.reverse_append, List.reverse_singleton, List.singleton_append,
      List.map_cons, Nat.ofDigits_cons]
    omega

/-- `value` as a power of ten of either sign (R198). -/
theorem scale10_eq (m e : Int) : scale10 m e = (m : Rat) * (10 : Rat) ^ e := by
  unfold scale10
  split
  · rename_i h
    lift e to Nat using h
    push_cast
    simp
  · rename_i h
    obtain ⟨n, hn⟩ : ∃ n : Nat, e = -(n : Int) := ⟨(-e).toNat, by omega⟩
    subst hn
    simp only [neg_neg, Int.toNat_natCast, zpow_neg, zpow_natCast, Rat.mkRat_eq_div]
    push_cast
    rfl

/-- An optional sign is taken from a text that goes on with something else. -/
theorem takeSign_of (sg t : List Byte) (neg : Bool) (h : SignText sg neg)
    (ht : ∀ b ∈ t.head?, b ≠ 0x2B ∧ b ≠ 0x2D) : takeSign (sg ++ t) = (neg, t) := by
  rcases h with ⟨rfl, rfl⟩ | ⟨rfl, rfl⟩ | ⟨rfl, rfl⟩
  · cases t with
    | nil => rfl
    | cons b t =>
      have := ht b (by simp)
      simp only [List.nil_append, takeSign]
      rw [if_neg this.2, if_neg this.1]
  · simp [takeSign]
  · simp [takeSign]

theorem takeSign_split (l : List Byte) : ∃ sg, SignText sg (takeSign l).1 ∧ l = sg ++ (takeSign l).2 := by
  unfold takeSign
  split
  · exact ⟨[], .inl ⟨rfl, rfl⟩, rfl⟩
  · split
    · rename_i h; subst h; exact ⟨[0x2D], .inr (.inr ⟨rfl, rfl⟩), rfl⟩
    · split
      · rename_i h; subst h; exact ⟨[0x2B], .inr (.inl ⟨rfl, rfl⟩), rfl⟩
      · exact ⟨[], .inl ⟨rfl, rfl⟩, rfl⟩

theorem digit_ne (b : Byte) (h : 0x30 ≤ b.toNat ∧ b.toNat ≤ 0x39) :
    b ≠ 0x2B ∧ b ≠ 0x2D ∧ b ≠ 0x2E ∧ b ≠ 0x20 ∧ b ≠ 0x09 ∧ b ≠ 0x0D ∧ b ≠ 0x65 ∧ b ≠ 0x45 := by
  refine ⟨?_, ?_, ?_, ?_, ?_, ?_, ?_, ?_⟩ <;> rintro rfl <;> simp at h

theorem DigitText.head (t : List Byte) (h : DigitText t) : ∀ b ∈ t.head?, 0x30 ≤ b.toNat ∧ b.toNat ≤ 0x39 :=
  fun b hb => h b (List.mem_of_mem_head? hb)

/-- `EXP?` is parsed exactly as the grammar has it. -/
theorem parseExp_iff (l : List Byte) (e : Int) : parseExp l = some e ↔ ExpText l e := by
  cases l with
  | nil => simp [parseExp, ExpText, eq_comm]
  | cons c t =>
    simp only [parseExp, ExpText, List.cons_ne_nil, false_and, false_or, List.cons.injEq]
    constructor
    · intro h
      split at h
      · rename_i hc
        split at h
        · rename_i hd
          obtain ⟨sg, hs, ht⟩ := takeSign_split t
          refine ⟨c, sg, _, _, ⟨rfl, ht⟩, hc, hs, (all_isDigit_iff _).1 hd.2, hd.1, ?_⟩
          simp only [digitsValue_eq, Option.some.injEq] at h
          exact h.symm
        · cases h
      · cases h
    · rintro ⟨c', sg, ds, neg, ⟨rfl, rfl⟩, hc, hs, hd, hn, rfl⟩
      have h := takeSign_of sg ds neg hs
        (fun b hb => ⟨(digit_ne b (hd.head _ b hb)).1, (digit_ne b (hd.head _ b hb)).2.1⟩)
      simp only [hc, if_true, h, hn, ne_eq, not_false_eq_true, (all_isDigit_iff _).2 hd, and_self, digitsValue_eq]

theorem takeWhile_isDigit (w r : List Byte) (hw : DigitText w) (hr : ∀ b ∈ r.head?, isDigit b = false) :
    (w ++ r).takeWhile isDigit = w ∧ (w ++ r).dropWhile isDigit = r := by
  have h1 : ∀ b ∈ w, isDigit b = true := fun b hb => (isDigit_iff b).2 (hw b hb)
  rw [List.takeWhile_append_of_pos h1, List.dropWhile_append_of_pos h1]
  cases r with
  | nil => simp
  | cons b r => simp [hr b (by simp)]

/-- `MANT` followed by something that does not continue it. -/
theorem parseMant_of (mant whole frac rest : List Byte) (h : MantText mant whole frac)
    (hr : ∀ b ∈ rest.head?, isDigit b = false ∧ b ≠ 0x2E) :
    parseMant (mant ++ rest) = some (decimalValue (whole ++ frac), frac.length, rest) := by
  obtain ⟨hw, hf, ⟨rfl, hn, rfl⟩ | ⟨rfl, hn⟩⟩ := h
  · have := takeWhile_isDigit mant rest hw (fun b hb => (hr b hb).1)
    unfold parseMant
    rw [this.1, this.2]
    cases rest with
    | nil => simp [hn, digitsValue_eq]
    | cons b t =>
      simp only
      rw [if_neg (hr b (by simp)).2, if_neg hn, List.append_nil, digitsValue_eq]
      rfl
  · have h1 := takeWhile_isDigit whole (0x2E :: (frac ++ rest)) hw (by simp [isDigit])
    have h2 := takeWhile_isDigit frac rest hf (fun b hb => (hr b hb).1)
    unfold parseMant
    rw [List.append_assoc, List.cons_append, h1.1, h1.2]
    simp only [if_true, h2.1, h2.2, digitsValue_eq]
    rw [if_neg]
    tauto

theorem parseMant_split (l : List Byte) (m k : Nat) (rest : List Byte) (h : parseMant l = some (m, k, rest)) :
    ∃ mant whole frac, l = mant ++ rest ∧ MantText mant whole frac ∧ m = decimalValue (whole ++ frac) ∧
      k = frac.length := by
  have hd : ∀ t : List Byte, DigitText (t.takeWhile isDigit) := fun t b hb =>
    (isDigit_iff b).1 (List.mem_takeWhile_imp hb)
  have hl : l = l.takeWhile isDigit ++ l.dropWhile isDigit := List.takeWhile_append_dropWhile.symm
  unfold parseMant at h
  simp only at h
  split at h
  · rename_i he
    split at h
    · cases h
    · rename_i hw
      simp only [Option.some.injEq, Prod.mk.injEq] at h
      obtain ⟨rfl, rfl, rfl⟩ := h
      refine ⟨_, l.takeWhile isDigit, [], ?_, ⟨hd l, by simp [DigitText], .inl ⟨rfl, hw, rfl⟩⟩, ?_, rfl⟩
      · rw [he] at hl; exact hl
      · simp [digitsValue_eq]
  · rename_i b t he
    split at h
    · rename_i hb
      subst hb
      split at h
      · cases h
      · rename_i hw
        simp only [Option.some.injEq, Prod.mk.injEq] at h
        obtain ⟨rfl, rfl, rfl⟩ := h
        refine ⟨_, l.takeWhile isDigit, t.takeWhile isDigit, ?_, ⟨hd l, hd t, .inr ⟨rfl, by tauto⟩⟩,
          digitsValue_eq _, rfl⟩
        rw [List.append_assoc, List.cons_append, List.takeWhile_append_dropWhile, ← he]
        exact hl
    · split at h
      · cases h
      · rename_i hw
        simp only [Option.some.injEq, Prod.mk.injEq] at h
        obtain ⟨rfl, rfl, rfl⟩ := h
        refine ⟨_, l.takeWhile isDigit, [], ?_, ⟨hd l, by simp [DigitText], .inl ⟨rfl, hw, rfl⟩⟩, ?_, rfl⟩
        · rw [he] at hl; exact hl
        · simp [digitsValue_eq]

theorem MantText.ne_nil {mant whole frac : List Byte} (h : MantText mant whole frac) : mant ≠ [] := by
  obtain ⟨_, _, ⟨rfl, hn, _⟩ | ⟨rfl, _⟩⟩ := h
  · exact hn
  · simp

theorem MantText.mem {mant whole frac : List Byte} (h : MantText mant whole frac) :
    ∀ b ∈ mant, (0x30 ≤ b.toNat ∧ b.toNat ≤ 0x39) ∨ b = 0x2E := by
  obtain ⟨hw, hf, ⟨rfl, hn, rfl⟩ | ⟨rfl, hn⟩⟩ := h
  · exact fun b hb => .inl (hw b hb)
  · intro b hb
    simp only [List.mem_append, List.mem_cons] at hb
    rcases hb with hb | rfl | hb
    · exact .inl (hw b hb)
    · exact .inr rfl
    · exact .inl (hf b hb)

/-- `NUMBER` is parsed exactly as the grammar has it, with its exact value (R198). -/
theorem parseNumber_iff (l : List Byte) (v : Deg) : parseNumber l = some v ↔
    ∃ (sg mant whole frac ex : List Byte) (neg : Bool) (e : Int), l = sg ++ (mant ++ ex) ∧ SignText sg neg ∧
      MantText mant whole frac ∧ ExpText ex e ∧
      v = (if neg then -1 else 1) * (decimalValue (whole ++ frac) : Rat) * (10 : Rat) ^ (e - frac.length) := by
  have val : ∀ (neg : Bool) (m : Nat) (e : Int),
      scale10 (if neg then -(m : Int) else (m : Int)) e = (if neg then -1 else 1) * (m : Rat) * (10 : Rat) ^ e := by
    intro neg m e
    rw [scale10_eq]
    cases neg <;> simp
  constructor
  · intro h
    simp only [parseNumber] at h
    split at h
    · cases h
    · rename_i m k rest hm
      split at h
      · cases h
      · rename_i e he
        obtain ⟨sg, hs, hl⟩ := takeSign_split l
        obtain ⟨mant, whole, frac, h2, h3, rfl, rfl⟩ := parseMant_split _ _ _ _ hm
        refine ⟨sg, mant, whole, frac, rest, _, e, ?_, hs, h3, (parseExp_iff _ _).1 he, ?_⟩
        · rw [← h2]; exact hl
        · rw [← val]; exact (Option.some.inj h).symm
  · rintro ⟨sg, mant, whole, frac, ex, neg, e, rfl, hs, hm, he, rfl⟩
    have h1 : takeSign (sg ++ (mant ++ ex)) = (neg, mant ++ ex) := by
      apply takeSign_of _ _ _ hs
      intro b hb
      rw [List.head?_append_of_ne_nil _ hm.ne_nil] at hb
      rcases hm.mem b (List.mem_of_mem_head? hb) with h | rfl
      · exact ⟨(digit_ne b h).1, (digit_ne b h).2.1⟩
      · decide
    have h2 : parseMant (mant ++ ex) = some (decimalValue (whole ++ frac), frac.length, ex) := by
      apply parseMant_of _ _ _ _ hm
      intro b hb
      rcases he with ⟨rfl, _⟩ | ⟨c, s, ds, n, rfl, hc, _⟩
      · simp at hb
      · simp only [List.head?_cons, Option.mem_def, Option.some.injEq] at hb
        subst hb
        rcases hc with rfl | rfl <;> decide
    simp only [parseNumber, h1, h2, (parseExp_iff _ _).2 he, val]

/-- What a number of the grammar begins and ends with is neither a blank nor a CR. -/
theorem number_ends {sg mant whole frac ex : List Byte} {neg : Bool} {e : Int} (hs : SignText sg neg)
    (hm : MantText mant whole frac) (he : ExpText ex e) :
    sg ++ (mant ++ ex) ≠ [] ∧ ∀ b ∈ sg ++ (mant ++ ex), isBlank b = false ∧ b ≠ 0x0D := by
  refine ⟨by simp [hm.ne_nil], fun b hb => ?_⟩
  have dg : ∀ b : Byte, 0x30 ≤ b.toNat ∧ b.toNat ≤ 0x39 → isBlank b = false ∧ b ≠ 0x0D := by
    intro b h
    have := digit_ne b h
    exact ⟨by simp only [isBlank, Bool.or_eq_false_iff, beq_eq_false_iff_ne]; exact ⟨this.2.2.2.1, this.2.2.2.2.1⟩,
      this.2.2.2.2.2.1⟩
  have sgn : ∀ (t : List Byte) (n : Bool), SignText t n → ∀ b ∈ t, isBlank b = false ∧ b ≠ 0x0D := by
    rintro t n (⟨rfl, _⟩ | ⟨rfl, _⟩ | ⟨rfl, _⟩) b hb
    · simp at hb
    · rw [List.mem_singleton.1 hb]; decide
    · rw [List.mem_singleton.1 hb]; decide
  simp only [List.mem_append] at hb
  rcases hb with hb | hb | hb
  · exact sgn _ _ hs b hb
  · rcases hm.mem b hb with h | rfl
    · exact dg b h
    · decide
  · rcases he with ⟨rfl, _⟩ | ⟨c, s, ds, n, rfl, hc, h1, h2, _⟩
    · simp at hb
    · simp only [List.mem_cons, List.mem_append] at hb
      rcases hb with rfl | hb | hb
      · rcases hc with rfl | rfl <;> decide
      · exact sgn _ _ h1 b hb
      · exact dg b (h2 b hb)

theorem isBlank_iff (b : Byte) : isBlank b = true ↔ b = 0x20 ∨ b = 0x09 := by simp [isBlank]

theorem dropWhile_isBlank (w r : List Byte) (hw : ∀ b ∈ w, isBlank b = true)
    (hr : ∀ b ∈ r.head?, isBlank b = false) : (w ++ r).dropWhile isBlank = r := by
  rw [List.dropWhile_append_of_pos hw]
  cases r with
  | nil => rfl
  | cons b r => simp [hr b (by simp)]

theorem trimBlank_of (lead core trail : List Byte) (h1 : ∀ b ∈ lead, isBlank b = true)
    (h2 : ∀ b ∈ trail, isBlank b = true) (hn : core ≠ []) (hc : ∀ b ∈ core, isBlank b = false) :
    trimBlank (lead ++ core ++ trail) = core := by
  unfold trimBlank
  rw [List.append_assoc, dropWhile_isBlank lead (core ++ trail) h1, List.reverse_append,
    dropWhile_isBlank _ _ (by simpa using h2), List.reverse_reverse]
  · intro b hb
    exact hc b (by simpa using List.mem_of_mem_head? hb)
  · intro b hb
    rw [List.head?_append_of_ne_nil _ hn] at hb
    exact hc b (List.mem_of_mem_head? hb)

theorem trimBlank_split (l : List Byte) : ∃ lead trail, l = lead ++ trimBlank l ++ trail ∧
    (∀ b ∈ lead, isBlank b = true) ∧ ∀ b ∈ trail, isBlank b = true := by
  refine ⟨l.takeWhile isBlank, ((l.dropWhile isBlank).reverse.takeWhile isBlank).reverse, ?_,
    fun b hb => List.mem_takeWhile_imp hb, fun b hb => List.mem_takeWhile_imp (List.mem_reverse.1 hb)⟩
  unfold trimBlank
  rw [List.append_assoc, ← List.reverse_append, List.takeWhile_append_dropWhile, List.reverse_reverse,
    List.takeWhile_append_dropWhile]

theorem dropCr_split (l : List Byte) : ∃ cr, l = dropCr l ++ cr ∧ (cr = [] ∨ cr = [0x0D]) := by
  unfold dropCr
  split
  · rename_i h
    exact ⟨[0x0D], (List.dropLast_append_getLast? _ h).symm, .inr rfl⟩
  · exact ⟨[], by simp, .inl rfl⟩

/-- A line is parsed exactly when it matches the grammar, and to its exact value (R198). -/
theorem parseLine_iff (l : List Byte) (v : Deg) : parseLine l = some v ↔ CalLine l v := by
  unfold parseLine CalLine
  rw [parseNumber_iff]
  constructor
  · rintro ⟨sg, mant, whole, frac, ex, neg, e, hl, hs, hm, he, hv⟩
    obtain ⟨cr, h1, h2⟩ := dropCr_split l
    obtain ⟨lead, trail, h3, h4, h5⟩ := trimBlank_split (dropCr l)
    refine ⟨lead, sg, mant, whole, frac, ex, trail, cr, neg, e, ?_, ?_, h2, hs, hm, he, hv⟩
    · rw [← hl, ← h3]; exact h1
    · intro b hb
      rw [← isBlank_iff]
      exact (List.mem_append.1 hb).elim (h4 b) (h5 b)
  · rintro ⟨lead, sg, mant, whole, frac, ex, trail, cr, neg, e, rfl, hb, hc, hs, hm, he, hv⟩
    obtain ⟨hn, hk⟩ := number_ends hs hm he
    have h1 : ∀ b ∈ lead, isBlank b = true := fun b h => (isBlank_iff b).2 (hb b (by simp [h]))
    have h2 : ∀ b ∈ trail, isBlank b = true := fun b h => (isBlank_iff b).2 (hb b (by simp [h]))
    refine ⟨sg, mant, whole, frac, ex, neg, e, ?_, hs, hm, he, hv⟩
    have h3 : dropCr (lead ++ (sg ++ (mant ++ ex)) ++ trail ++ cr) = lead ++ (sg ++ (mant ++ ex)) ++ trail := by
      unfold dropCr
      rcases hc with rfl | rfl
      · rw [List.append_nil, if_neg]
        intro h
        have hmem := List.mem_of_mem_getLast? h
        simp only [List.mem_append] at hmem
        rcases hmem with (h | h) | h
        · exact absurd (h1 _ h) (by decide)
        · exact (hk 0x0D (by simpa using h)).2 rfl
        · exact absurd (h2 _ h) (by decide)
      · simp
    rw [h3, trimBlank_of _ _ _ h1 h2 hn (fun b h => (hk b h).1)]

end Sys2Proof.Machine
end

