-- ==== Sys2Proof/Laws/CalText.lean ====
section
/-! SUPPORT. Finite decimals: what has one is exactly what a power of ten makes an integer; everything the store's
grammar denotes and everything a position denotes is one (spec/10_state.md R33). -/

namespace Sys2Proof.Machine

/-- A denominator that divides some power of ten divides the one `finiteDecimal` looks at. -/
theorem finiteDecimal_of_dvd (q : Rat) (k : Nat) (h : q.den ∣ 10 ^ k) : finiteDecimal q = true := by
  have hd : q.den ≠ 0 := q.den_nz
  simp only [finiteDecimal, beq_iff_eq]
  apply Nat.mod_eq_zero_of_dvd
  rw [← Nat.factorization_le_iff_dvd hd (by positivity)] at h ⊢
  intro p
  have h1 := h p
  simp only [Nat.factorization_pow, Finsupp.smul_apply, smul_eq_mul] at h1 ⊢
  by_cases hp : p.Prime
  · rcases Nat.eq_zero_or_pos (Nat.factorization 10 p) with h0 | h0
    · rw [h0] at h1 ⊢; omega
    · have h2 : 2 ^ (q.den.factorization p) ≤ q.den :=
        (Nat.pow_le_pow_left hp.two_le _).trans (Nat.ordProj_le p hd)
      have h3 : q.den.factorization p ≤ q.den.log2 := (Nat.le_log2 hd).mpr h2
      calc _ ≤ q.den.log2 * 1 := by omega
        _ ≤ _ := Nat.mul_le_mul_left _ h0
  · simp [Nat.factorization_eq_zero_of_not_prime _ hp]

/-- The value of a literal of the grammar is a finite decimal (R198). -/
theorem scale10_finiteDecimal (m e : Int) : finiteDecimal (scale10 m e) = true := by
  unfold scale10
  split
  · apply finiteDecimal_of_dvd _ 0
    simp only [Rat.den_intCast]
    simp
  · apply finiteDecimal_of_dvd _ (-e).toNat
    rw [Rat.den_mkRat]
    split
    · simp
    · exact Nat.div_dvd_of_dvd (Nat.gcd_dvd_left _ _)

theorem parseNumber_finiteDecimal (l : List Byte) (y : Deg) (h : parseNumber l = some y) :
    finiteDecimal y = true := by
  simp only [parseNumber] at h
  split at h
  · cases h
  · split at h
    · cases h
    · cases h
      exact scale10_finiteDecimal _ _

/-- What a store parses to is a pair of finite decimals (R33). -/
theorem parseCal_finiteDecimal (m : List Byte) (y p : Deg) (h : parseCal m = some (y, p)) :
    finiteDecimal y = true ∧ finiteDecimal p = true := by
  unfold parseCal at h
  split at h
  · cases h
  · split at h
    · cases h
      exact ⟨parseNumber_finiteDecimal _ _ ‹_›, parseNumber_finiteDecimal _ _ ‹_›⟩
    · cases h

/-- A position in degrees is a finite decimal (R33, R194). -/
theorem rawToDeg_finiteDecimal (v : Raw) : finiteDecimal (rawToDeg v) = true := by
  apply finiteDecimal_of_dvd _ 2
  simp only [rawToDeg]
  exact Rat.den_mkRat v 100 ▸ (Nat.div_dvd_of_dvd (Nat.gcd_dvd_left _ _))

/-- A finite decimal becomes an integer when multiplied by a power of ten. -/
theorem finiteDecimal_isInt (q : Rat) (h : finiteDecimal q = true) : ∃ k : Nat, ((10 : Rat) ^ k * q).isInt := by
  simp only [finiteDecimal, beq_iff_eq] at h
  obtain ⟨c, hc⟩ := Nat.dvd_of_mod_eq_zero h
  refine ⟨q.den.log2, ?_⟩
  have : (10 : Rat) ^ q.den.log2 * q = ((c * q.num : Int) : Rat) := by
    have h1 : ((10 ^ q.den.log2 : Nat) : Rat) = ((q.den * c : Nat) : Rat) := by rw [hc]
    push_cast at h1
    rw [h1]
    nth_rewrite 2 [← Rat.num_div_den q]
    have : (q.den : Rat) ≠ 0 := by exact_mod_cast q.den_nz
    push_cast
    field_simp
  rw [this]
  simp only [Rat.isInt, Rat.den_intCast]
  rfl

end Sys2Proof.Machine
end

