-- ==== Sys2Proof/Laws/Memory.lean ====
section
/-! SUPPORT. The laws of the actuator register space: what a read gives after a write or an erase, and that every
operation keeps the canonical form. -/

namespace Sys2Proof.Machine

theorem Memory.read_write_same (m : Memory) (a : Nat) (v : Byte) : (m.write a v).read a = some v := by
  induction m with
  | nil => simp [Memory.write, Memory.read]
  | cons c t ih =>
    obtain ⟨b, w⟩ := c
    simp only [Memory.write]
    split
    · simp [Memory.read]
    · split
      · simp [Memory.read]
      · rename_i h1 h2; simp [Memory.read, h2, ih]

theorem Memory.read_write_other (m : Memory) (a x : Nat) (v : Byte) (h : x ≠ a) :
    (m.write a v).read x = m.read x := by
  induction m with
  | nil => simp [Memory.write, Memory.read, h]
  | cons c t ih =>
    obtain ⟨b, w⟩ := c
    simp only [Memory.write]
    split
    · simp [Memory.read, h]
    · split
      · rename_i h1 h2; subst h2; simp [Memory.read, h]
      · simp [Memory.read, ih]

theorem Memory.read_erase_same (m : Memory) (a : Nat) : (m.erase a).read a = none := by
  induction m with
  | nil => simp [Memory.erase, Memory.read]
  | cons c t ih =>
    obtain ⟨b, w⟩ := c
    by_cases h : a = b <;> simp [Memory.erase, Memory.read, h]
    · subst h; exact ih
    · exact ih

theorem Memory.read_erase_other (m : Memory) (a x : Nat) (h : x ≠ a) : (m.erase a).read x = m.read x := by
  induction m with
  | nil => simp [Memory.erase]
  | cons c t ih =>
    obtain ⟨b, w⟩ := c
    by_cases hb : a = b
    · subst hb; simp [Memory.erase, Memory.read, h, ih]
    · simp [Memory.erase, Memory.read, hb, ih]

/-- A write lists the written cell and cells that were listed. -/
theorem Memory.mem_write (m : Memory) (a : Nat) (v : Byte) (c : Host.Cell) (h : c ∈ m.write a v) :
    c = (a, v) ∨ c ∈ m := by
  induction m with
  | nil => simpa [Memory.write] using h
  | cons d t ih =>
    obtain ⟨b, w⟩ := d
    simp only [Memory.write] at h
    split at h
    · simpa only [List.mem_cons] using h
    · split at h
      · rcases List.mem_cons.mp h with h | h
        · exact .inl h
        · exact .inr (by simp [h])
      · rcases List.mem_cons.mp h with h | h
        · exact .inr (by simp [h])
        · rcases ih h with h | h
          · exact .inl h
          · exact .inr (by simp [h])

/-- An erase lists only cells that were listed. -/
theorem Memory.mem_erase (m : Memory) (a : Nat) (c : Host.Cell) (h : c ∈ m.erase a) : c ∈ m := by
  induction m with
  | nil => simp [Memory.erase] at h
  | cons d t ih =>
    obtain ⟨b, w⟩ := d
    simp only [Memory.erase] at h
    split at h
    · exact List.mem_cons_of_mem _ (ih h)
    · rcases List.mem_cons.mp h with h | h
      · simp [h]
      · exact List.mem_cons_of_mem _ (ih h)

theorem Memory.write_wf (m : Memory) (a : Nat) (v : Byte) (ha : a < 65536) (h : m.wf) : (m.write a v).wf := by
  refine ⟨?_, fun c hc => ?_⟩
  · have hs := h.1
    clear h
    induction m with
    | nil => simp [Memory.write]
    | cons d t ih =>
      obtain ⟨b, w⟩ := d
      have ht := (List.pairwise_cons.mp hs).2
      have hb := (List.pairwise_cons.mp hs).1
      simp only [Memory.write]
      split
      · rename_i hab
        refine List.pairwise_cons.mpr ⟨fun y hy => ?_, hs⟩
        rcases List.mem_cons.mp hy with rfl | hy
        · exact hab
        · exact Nat.lt_trans hab (hb y hy)
      · split
        · rename_i _ hab
          subst hab
          exact List.pairwise_cons.mpr ⟨hb, ht⟩
        · rename_i h1 h2
          refine List.pairwise_cons.mpr ⟨fun y hy => ?_, ih ht⟩
          rcases Memory.mem_write t a v y hy with rfl | hy
          · change b < a
            omega
          · exact hb y hy
  · rcases Memory.mem_write m a v c hc with rfl | hc
    · exact ha
    · exact h.2 c hc

theorem Memory.erase_wf (m : Memory) (a : Nat) (h : m.wf) : (m.erase a).wf := by
  refine ⟨?_, fun c hc => h.2 c (Memory.mem_erase m a c hc)⟩
  have hs := h.1
  clear h
  induction m with
  | nil => simp [Memory.erase]
  | cons d t ih =>
    obtain ⟨b, w⟩ := d
    have ht := (List.pairwise_cons.mp hs).2
    have hb := (List.pairwise_cons.mp hs).1
    simp only [Memory.erase]
    split
    · exact ih ht
    · exact List.pairwise_cons.mpr ⟨fun y hy => hb y (Memory.mem_erase t a y hy), ih ht⟩

theorem regAddr_lt (id reg : Byte) : regAddr id reg < 65536 := by
  unfold regAddr; omega

/-- The address of a register determines the actuator and the register. -/
theorem regAddr_inj {id id' reg reg' : Byte} (h : regAddr id reg = regAddr id' reg') : id = id' ∧ reg = reg' := by
  unfold regAddr at h
  constructor <;> apply BitVec.eq_of_toNat_eq <;> omega

/-- The memory after reset has the canonical form. -/
theorem State.reset_memory_wf : Memory.wf State.reset.actMem := ⟨List.Pairwise.nil, by simp [State.reset, State.powerOn]⟩

end Sys2Proof.Machine
end

