-- ==== Sys2Proof/Laws/State.lean ====
section
/-! SUPPORT. One lemma per field for each of the state's named updates, so that no later proof unfolds one. -/

namespace Sys2Proof.Machine

variable (s : State)

@[simp] theorem State.accept_cfg : (s.accept).cfg = s.cfg := rfl
@[simp] theorem State.accept_caloffYaw : (s.accept).caloffYaw = s.caloffYaw := rfl
@[simp] theorem State.accept_caloffPitch : (s.accept).caloffPitch = s.caloffPitch := rfl
@[simp] theorem State.accept_txbuf : (s.accept).txbuf = s.txbuf := rfl
@[simp] theorem State.accept_txlen : (s.accept).txlen = s.txlen := rfl
@[simp] theorem State.accept_rxbuf : (s.accept).rxbuf = s.rxbuf := rfl
@[simp] theorem State.accept_rxlen : (s.accept).rxlen = s.rxlen := rfl
@[simp] theorem State.accept_seq : (s.accept).seq = s.seq := rfl
@[simp] theorem State.accept_seqTrace : (s.accept).seqTrace = [] := rfl
@[simp] theorem State.accept_busOpen : (s.accept).busOpen = s.busOpen := rfl
@[simp] theorem State.accept_rspShort : (s.accept).rspShort = s.rspShort := rfl
@[simp] theorem State.accept_posValid : (s.accept).posValid = s.posValid := rfl
@[simp] theorem State.accept_calStatus : (s.accept).calStatus = s.calStatus := rfl
@[simp] theorem State.accept_saveFail : (s.accept).saveFail = s.saveFail := rfl
@[simp] theorem State.accept_calFail : (s.accept).calFail = s.calFail := rfl
@[simp] theorem State.accept_err : (s.accept).err = s.err := rfl
@[simp] theorem State.accept_rxq : (s.accept).rxq = s.rxq := rfl
@[simp] theorem State.accept_txq : (s.accept).txq = s.txq := rfl
@[simp] theorem State.accept_tmrDelay : (s.accept).tmrDelay = s.tmrDelay := rfl
@[simp] theorem State.accept_tmrRto : (s.accept).tmrRto = s.tmrRto := rfl
@[simp] theorem State.accept_tmrGap : (s.accept).tmrGap = s.tmrGap := rfl
@[simp] theorem State.accept_calmem : (s.accept).calmem = s.calmem := rfl
@[simp] theorem State.accept_actMem : (s.accept).actMem = s.actMem := rfl
@[simp] theorem State.accept_resp : (s.accept).resp = s.resp := rfl
@[simp] theorem State.accept_log : (s.accept).log = s.log := rfl
@[simp] theorem State.accept_wire : (s.accept).wire = s.wire := rfl
@[simp] theorem State.accept_faults : (s.accept).faults = s.faults := rfl
@[simp] theorem State.accept_rqWindow : (s.accept).rqWindow = s.rqWindow := rfl
@[simp] theorem State.accept_lineClean : (s.accept).lineClean = s.lineClean := rfl
@[simp] theorem State.accept_env : (s.accept).env = s.env := rfl
@[simp] theorem State.accept_draws : (s.accept).draws = s.draws := rfl
@[simp] theorem State.accept_inbox : (s.accept).inbox = s.inbox := rfl
@[simp] theorem State.accept_host : (s.accept).host = s.host := rfl

@[simp] theorem State.enter_cfg (p : Phase) : (s.enter p).cfg = s.cfg := rfl
@[simp] theorem State.enter_caloffYaw (p : Phase) : (s.enter p).caloffYaw = s.caloffYaw := rfl
@[simp] theorem State.enter_caloffPitch (p : Phase) : (s.enter p).caloffPitch = s.caloffPitch := rfl
@[simp] theorem State.enter_txbuf (p : Phase) : (s.enter p).txbuf = s.txbuf := rfl
@[simp] theorem State.enter_txlen (p : Phase) : (s.enter p).txlen = s.txlen := rfl
@[simp] theorem State.enter_rxbuf (p : Phase) : (s.enter p).rxbuf = s.rxbuf := rfl
@[simp] theorem State.enter_rxlen (p : Phase) : (s.enter p).rxlen = s.rxlen := rfl
@[simp] theorem State.enter_seq (p : Phase) : (s.enter p).seq = p := rfl
@[simp] theorem State.enter_seqTrace (p : Phase) : (s.enter p).seqTrace = s.seqTrace ++ [p] := rfl
@[simp] theorem State.enter_busOpen (p : Phase) : (s.enter p).busOpen = s.busOpen := rfl
@[simp] theorem State.enter_rspShort (p : Phase) : (s.enter p).rspShort = s.rspShort := rfl
@[simp] theorem State.enter_posValid (p : Phase) : (s.enter p).posValid = s.posValid := rfl
@[simp] theorem State.enter_calStatus (p : Phase) : (s.enter p).calStatus = s.calStatus := rfl
@[simp] theorem State.enter_saveFail (p : Phase) : (s.enter p).saveFail = s.saveFail := rfl
@[simp] theorem State.enter_calFail (p : Phase) : (s.enter p).calFail = s.calFail := rfl
@[simp] theorem State.enter_err (p : Phase) : (s.enter p).err = s.err := rfl
@[simp] theorem State.enter_rxq (p : Phase) : (s.enter p).rxq = s.rxq := rfl
@[simp] theorem State.enter_txq (p : Phase) : (s.enter p).txq = s.txq := rfl
@[simp] theorem State.enter_tmrDelay (p : Phase) : (s.enter p).tmrDelay = s.tmrDelay := rfl
@[simp] theorem State.enter_tmrRto (p : Phase) : (s.enter p).tmrRto = s.tmrRto := rfl
@[simp] theorem State.enter_tmrGap (p : Phase) : (s.enter p).tmrGap = s.tmrGap := rfl
@[simp] theorem State.enter_calmem (p : Phase) : (s.enter p).calmem = s.calmem := rfl
@[simp] theorem State.enter_actMem (p : Phase) : (s.enter p).actMem = s.actMem := rfl
@[simp] theorem State.enter_resp (p : Phase) : (s.enter p).resp = s.resp := rfl
@[simp] theorem State.enter_log (p : Phase) : (s.enter p).log = s.log := rfl
@[simp] theorem State.enter_wire (p : Phase) : (s.enter p).wire = s.wire := rfl
@[simp] theorem State.enter_faults (p : Phase) : (s.enter p).faults = s.faults := rfl
@[simp] theorem State.enter_rqWindow (p : Phase) : (s.enter p).rqWindow = s.rqWindow := rfl
@[simp] theorem State.enter_lineClean (p : Phase) : (s.enter p).lineClean = s.lineClean := rfl
@[simp] theorem State.enter_env (p : Phase) : (s.enter p).env = s.env := rfl
@[simp] theorem State.enter_draws (p : Phase) : (s.enter p).draws = s.draws := rfl
@[simp] theorem State.enter_inbox (p : Phase) : (s.enter p).inbox = s.inbox := rfl
@[simp] theorem State.enter_host (p : Phase) : (s.enter p).host = s.host := rfl

@[simp] theorem State.deliver_cfg (e : Cause) (r : Result) : (s.deliver e r).cfg = s.cfg := rfl
@[simp] theorem State.deliver_caloffYaw (e : Cause) (r : Result) : (s.deliver e r).caloffYaw = s.caloffYaw := rfl
@[simp] theorem State.deliver_caloffPitch (e : Cause) (r : Result) : (s.deliver e r).caloffPitch = s.caloffPitch := rfl
@[simp] theorem State.deliver_txbuf (e : Cause) (r : Result) : (s.deliver e r).txbuf = s.txbuf := rfl
@[simp] theorem State.deliver_txlen (e : Cause) (r : Result) : (s.deliver e r).txlen = s.txlen := rfl
@[simp] theorem State.deliver_rxbuf (e : Cause) (r : Result) : (s.deliver e r).rxbuf = s.rxbuf := rfl
@[simp] theorem State.deliver_rxlen (e : Cause) (r : Result) : (s.deliver e r).rxlen = s.rxlen := rfl
@[simp] theorem State.deliver_seq (e : Cause) (r : Result) : (s.deliver e r).seq = .idle := rfl
@[simp] theorem State.deliver_seqTrace (e : Cause) (r : Result) : (s.deliver e r).seqTrace = s.seqTrace := rfl
@[simp] theorem State.deliver_busOpen (e : Cause) (r : Result) : (s.deliver e r).busOpen = s.busOpen := rfl
@[simp] theorem State.deliver_rspShort (e : Cause) (r : Result) : (s.deliver e r).rspShort = s.rspShort := rfl
@[simp] theorem State.deliver_posValid (e : Cause) (r : Result) : (s.deliver e r).posValid = s.posValid := rfl
@[simp] theorem State.deliver_calStatus (e : Cause) (r : Result) : (s.deliver e r).calStatus = s.calStatus := rfl
@[simp] theorem State.deliver_saveFail (e : Cause) (r : Result) : (s.deliver e r).saveFail = s.saveFail := rfl
@[simp] theorem State.deliver_calFail (e : Cause) (r : Result) : (s.deliver e r).calFail = s.calFail := rfl
@[simp] theorem State.deliver_err (e : Cause) (r : Result) : (s.deliver e r).err = s.err := rfl
@[simp] theorem State.deliver_rxq (e : Cause) (r : Result) : (s.deliver e r).rxq = s.rxq := rfl
@[simp] theorem State.deliver_txq (e : Cause) (r : Result) : (s.deliver e r).txq = s.txq := rfl
@[simp] theorem State.deliver_tmrDelay (e : Cause) (r : Result) : (s.deliver e r).tmrDelay = s.tmrDelay := rfl
@[simp] theorem State.deliver_tmrRto (e : Cause) (r : Result) : (s.deliver e r).tmrRto = s.tmrRto := rfl
@[simp] theorem State.deliver_tmrGap (e : Cause) (r : Result) : (s.deliver e r).tmrGap = s.tmrGap := rfl
@[simp] theorem State.deliver_calmem (e : Cause) (r : Result) : (s.deliver e r).calmem = s.calmem := rfl
@[simp] theorem State.deliver_actMem (e : Cause) (r : Result) : (s.deliver e r).actMem = s.actMem := rfl
@[simp] theorem State.deliver_resp (e : Cause) (r : Result) : (s.deliver e r).resp = some ⟨(s.deliver e r).statusWord, e, r⟩ := rfl
@[simp] theorem State.deliver_log (e : Cause) (r : Result) : (s.deliver e r).log = s.log := rfl
@[simp] theorem State.deliver_wire (e : Cause) (r : Result) : (s.deliver e r).wire = s.wire := rfl
@[simp] theorem State.deliver_faults (e : Cause) (r : Result) : (s.deliver e r).faults = s.faults := rfl
@[simp] theorem State.deliver_rqWindow (e : Cause) (r : Result) : (s.deliver e r).rqWindow = s.rqWindow := rfl
@[simp] theorem State.deliver_lineClean (e : Cause) (r : Result) : (s.deliver e r).lineClean = s.lineClean := rfl
@[simp] theorem State.deliver_env (e : Cause) (r : Result) : (s.deliver e r).env = s.env := rfl
@[simp] theorem State.deliver_draws (e : Cause) (r : Result) : (s.deliver e r).draws = s.draws := rfl
@[simp] theorem State.deliver_inbox (e : Cause) (r : Result) : (s.deliver e r).inbox = s.inbox := rfl
@[simp] theorem State.deliver_host (e : Cause) (r : Result) : (s.deliver e r).host = s.host := rfl

@[simp] theorem State.complete_cfg (r : Result) : (s.complete r).cfg = s.cfg := rfl
@[simp] theorem State.complete_caloffYaw (r : Result) : (s.complete r).caloffYaw = s.caloffYaw := rfl
@[simp] theorem State.complete_caloffPitch (r : Result) : (s.complete r).caloffPitch = s.caloffPitch := rfl
@[simp] theorem State.complete_txbuf (r : Result) : (s.complete r).txbuf = s.txbuf := rfl
@[simp] theorem State.complete_txlen (r : Result) : (s.complete r).txlen = s.txlen := rfl
@[simp] theorem State.complete_rxbuf (r : Result) : (s.complete r).rxbuf = s.rxbuf := rfl
@[simp] theorem State.complete_rxlen (r : Result) : (s.complete r).rxlen = s.rxlen := rfl
@[simp] theorem State.complete_seq (r : Result) : (s.complete r).seq = .idle := rfl
@[simp] theorem State.complete_seqTrace (r : Result) : (s.complete r).seqTrace = s.seqTrace := rfl
@[simp] theorem State.complete_busOpen (r : Result) : (s.complete r).busOpen = s.busOpen := rfl
@[simp] theorem State.complete_rspShort (r : Result) : (s.complete r).rspShort = s.rspShort := rfl
@[simp] theorem State.complete_posValid (r : Result) : (s.complete r).posValid = s.posValid := rfl
@[simp] theorem State.complete_calStatus (r : Result) : (s.complete r).calStatus = s.calStatus := rfl
@[simp] theorem State.complete_saveFail (r : Result) : (s.complete r).saveFail = s.saveFail := rfl
@[simp] theorem State.complete_calFail (r : Result) : (s.complete r).calFail = s.calFail := rfl
@[simp] theorem State.complete_err (r : Result) : (s.complete r).err = s.err := rfl
@[simp] theorem State.complete_rxq (r : Result) : (s.complete r).rxq = s.rxq := rfl
@[simp] theorem State.complete_txq (r : Result) : (s.complete r).txq = s.txq := rfl
@[simp] theorem State.complete_tmrDelay (r : Result) : (s.complete r).tmrDelay = s.tmrDelay := rfl
@[simp] theorem State.complete_tmrRto (r : Result) : (s.complete r).tmrRto = s.tmrRto := rfl
@[simp] theorem State.complete_tmrGap (r : Result) : (s.complete r).tmrGap = s.tmrGap := rfl
@[simp] theorem State.complete_calmem (r : Result) : (s.complete r).calmem = s.calmem := rfl
@[simp] theorem State.complete_actMem (r : Result) : (s.complete r).actMem = s.actMem := rfl
@[simp] theorem State.complete_resp (r : Result) : (s.complete r).resp = some ⟨(s.complete r).statusWord, .none, r⟩ := rfl
@[simp] theorem State.complete_log (r : Result) : (s.complete r).log = s.log := rfl
@[simp] theorem State.complete_wire (r : Result) : (s.complete r).wire = s.wire := rfl
@[simp] theorem State.complete_faults (r : Result) : (s.complete r).faults = s.faults := rfl
@[simp] theorem State.complete_rqWindow (r : Result) : (s.complete r).rqWindow = s.rqWindow := rfl
@[simp] theorem State.complete_lineClean (r : Result) : (s.complete r).lineClean = s.lineClean := rfl
@[simp] theorem State.complete_env (r : Result) : (s.complete r).env = s.env := rfl
@[simp] theorem State.complete_draws (r : Result) : (s.complete r).draws = s.draws := rfl
@[simp] theorem State.complete_inbox (r : Result) : (s.complete r).inbox = s.inbox := rfl
@[simp] theorem State.complete_host (r : Result) : (s.complete r).host = s.host := rfl

@[simp] theorem State.raise_cfg (c : Cause) : (s.raise c).cfg = s.cfg := rfl
@[simp] theorem State.raise_caloffYaw (c : Cause) : (s.raise c).caloffYaw = s.caloffYaw := rfl
@[simp] theorem State.raise_caloffPitch (c : Cause) : (s.raise c).caloffPitch = s.caloffPitch := rfl
@[simp] theorem State.raise_txbuf (c : Cause) : (s.raise c).txbuf = s.txbuf := rfl
@[simp] theorem State.raise_txlen (c : Cause) : (s.raise c).txlen = s.txlen := rfl
@[simp] theorem State.raise_rxbuf (c : Cause) : (s.raise c).rxbuf = s.rxbuf := rfl
@[simp] theorem State.raise_rxlen (c : Cause) : (s.raise c).rxlen = s.rxlen := rfl
@[simp] theorem State.raise_seq (c : Cause) : (s.raise c).seq = .idle := rfl
@[simp] theorem State.raise_seqTrace (c : Cause) : (s.raise c).seqTrace = s.seqTrace := rfl
@[simp] theorem State.raise_busOpen (c : Cause) : (s.raise c).busOpen = s.busOpen := rfl
@[simp] theorem State.raise_rspShort (c : Cause) : (s.raise c).rspShort = s.rspShort := rfl
@[simp] theorem State.raise_posValid (c : Cause) : (s.raise c).posValid = s.posValid := rfl
@[simp] theorem State.raise_calStatus (c : Cause) : (s.raise c).calStatus = s.calStatus := rfl
@[simp] theorem State.raise_saveFail (c : Cause) : (s.raise c).saveFail = s.saveFail := rfl
@[simp] theorem State.raise_calFail (c : Cause) : (s.raise c).calFail = s.calFail := rfl
@[simp] theorem State.raise_err (c : Cause) : (s.raise c).err = c := rfl
@[simp] theorem State.raise_rxq (c : Cause) : (s.raise c).rxq = s.rxq := rfl
@[simp] theorem State.raise_txq (c : Cause) : (s.raise c).txq = s.txq := rfl
@[simp] theorem State.raise_tmrDelay (c : Cause) : (s.raise c).tmrDelay = s.tmrDelay := rfl
@[simp] theorem State.raise_tmrRto (c : Cause) : (s.raise c).tmrRto = s.tmrRto := rfl
@[simp] theorem State.raise_tmrGap (c : Cause) : (s.raise c).tmrGap = s.tmrGap := rfl
@[simp] theorem State.raise_calmem (c : Cause) : (s.raise c).calmem = s.calmem := rfl
@[simp] theorem State.raise_actMem (c : Cause) : (s.raise c).actMem = s.actMem := rfl
@[simp] theorem State.raise_resp (c : Cause) : (s.raise c).resp = some ⟨(s.raise c).statusWord, c, .none⟩ := rfl
@[simp] theorem State.raise_log (c : Cause) : (s.raise c).log = s.log := rfl
@[simp] theorem State.raise_wire (c : Cause) : (s.raise c).wire = s.wire := rfl
@[simp] theorem State.raise_faults (c : Cause) : (s.raise c).faults = s.faults := rfl
@[simp] theorem State.raise_rqWindow (c : Cause) : (s.raise c).rqWindow = s.rqWindow := rfl
@[simp] theorem State.raise_lineClean (c : Cause) : (s.raise c).lineClean = s.lineClean := rfl
@[simp] theorem State.raise_env (c : Cause) : (s.raise c).env = s.env := rfl
@[simp] theorem State.raise_draws (c : Cause) : (s.raise c).draws = s.draws := rfl
@[simp] theorem State.raise_inbox (c : Cause) : (s.raise c).inbox = s.inbox := rfl
@[simp] theorem State.raise_host (c : Cause) : (s.raise c).host = s.host := rfl

@[simp] theorem State.absorb_cfg (c : Cause) : (s.absorb c).cfg = s.cfg := rfl
@[simp] theorem State.absorb_caloffYaw (c : Cause) : (s.absorb c).caloffYaw = s.caloffYaw := rfl
@[simp] theorem State.absorb_caloffPitch (c : Cause) : (s.absorb c).caloffPitch = s.caloffPitch := rfl
@[simp] theorem State.absorb_txbuf (c : Cause) : (s.absorb c).txbuf = s.txbuf := rfl
@[simp] theorem State.absorb_txlen (c : Cause) : (s.absorb c).txlen = s.txlen := rfl
@[simp] theorem State.absorb_rxbuf (c : Cause) : (s.absorb c).rxbuf = s.rxbuf := rfl
@[simp] theorem State.absorb_rxlen (c : Cause) : (s.absorb c).rxlen = s.rxlen := rfl
@[simp] theorem State.absorb_seq (c : Cause) : (s.absorb c).seq = s.seq := rfl
@[simp] theorem State.absorb_seqTrace (c : Cause) : (s.absorb c).seqTrace = s.seqTrace := rfl
@[simp] theorem State.absorb_busOpen (c : Cause) : (s.absorb c).busOpen = s.busOpen := rfl
@[simp] theorem State.absorb_rspShort (c : Cause) : (s.absorb c).rspShort = s.rspShort := rfl
@[simp] theorem State.absorb_posValid (c : Cause) : (s.absorb c).posValid = s.posValid := rfl
@[simp] theorem State.absorb_calStatus (c : Cause) : (s.absorb c).calStatus = s.calStatus := rfl
@[simp] theorem State.absorb_saveFail (c : Cause) : (s.absorb c).saveFail = s.saveFail := rfl
@[simp] theorem State.absorb_calFail (c : Cause) : (s.absorb c).calFail = s.calFail := rfl
@[simp] theorem State.absorb_err (c : Cause) : (s.absorb c).err = c := rfl
@[simp] theorem State.absorb_rxq (c : Cause) : (s.absorb c).rxq = s.rxq := rfl
@[simp] theorem State.absorb_txq (c : Cause) : (s.absorb c).txq = s.txq := rfl
@[simp] theorem State.absorb_tmrDelay (c : Cause) : (s.absorb c).tmrDelay = s.tmrDelay := rfl
@[simp] theorem State.absorb_tmrRto (c : Cause) : (s.absorb c).tmrRto = s.tmrRto := rfl
@[simp] theorem State.absorb_tmrGap (c : Cause) : (s.absorb c).tmrGap = s.tmrGap := rfl
@[simp] theorem State.absorb_calmem (c : Cause) : (s.absorb c).calmem = s.calmem := rfl
@[simp] theorem State.absorb_actMem (c : Cause) : (s.absorb c).actMem = s.actMem := rfl
@[simp] theorem State.absorb_resp (c : Cause) : (s.absorb c).resp = s.resp := rfl
@[simp] theorem State.absorb_log (c : Cause) : (s.absorb c).log = s.log := rfl
@[simp] theorem State.absorb_wire (c : Cause) : (s.absorb c).wire = s.wire := rfl
@[simp] theorem State.absorb_faults (c : Cause) : (s.absorb c).faults = s.faults := rfl
@[simp] theorem State.absorb_rqWindow (c : Cause) : (s.absorb c).rqWindow = s.rqWindow := rfl
@[simp] theorem State.absorb_lineClean (c : Cause) : (s.absorb c).lineClean = s.lineClean := rfl
@[simp] theorem State.absorb_env (c : Cause) : (s.absorb c).env = s.env := rfl
@[simp] theorem State.absorb_draws (c : Cause) : (s.absorb c).draws = s.draws := rfl
@[simp] theorem State.absorb_inbox (c : Cause) : (s.absorb c).inbox = s.inbox := rfl
@[simp] theorem State.absorb_host (c : Cause) : (s.absorb c).host = s.host := rfl

@[simp] theorem State.refuse_cfg (c : Cause) : (s.refuse c).cfg = s.cfg := rfl
@[simp] theorem State.refuse_caloffYaw (c : Cause) : (s.refuse c).caloffYaw = s.caloffYaw := rfl
@[simp] theorem State.refuse_caloffPitch (c : Cause) : (s.refuse c).caloffPitch = s.caloffPitch := rfl
@[simp] theorem State.refuse_txbuf (c : Cause) : (s.refuse c).txbuf = s.txbuf := rfl
@[simp] theorem State.refuse_txlen (c : Cause) : (s.refuse c).txlen = s.txlen := rfl
@[simp] theorem State.refuse_rxbuf (c : Cause) : (s.refuse c).rxbuf = s.rxbuf := rfl
@[simp] theorem State.refuse_rxlen (c : Cause) : (s.refuse c).rxlen = s.rxlen := rfl
@[simp] theorem State.refuse_seq (c : Cause) : (s.refuse c).seq = s.seq := rfl
@[simp] theorem State.refuse_seqTrace (c : Cause) : (s.refuse c).seqTrace = s.seqTrace := rfl
@[simp] theorem State.refuse_busOpen (c : Cause) : (s.refuse c).busOpen = s.busOpen := rfl
@[simp] theorem State.refuse_rspShort (c : Cause) : (s.refuse c).rspShort = s.rspShort := rfl
@[simp] theorem State.refuse_posValid (c : Cause) : (s.refuse c).posValid = s.posValid := rfl
@[simp] theorem State.refuse_calStatus (c : Cause) : (s.refuse c).calStatus = s.calStatus := rfl
@[simp] theorem State.refuse_saveFail (c : Cause) : (s.refuse c).saveFail = s.saveFail := rfl
@[simp] theorem State.refuse_calFail (c : Cause) : (s.refuse c).calFail = s.calFail := rfl
@[simp] theorem State.refuse_err (c : Cause) : (s.refuse c).err = s.err := rfl
@[simp] theorem State.refuse_rxq (c : Cause) : (s.refuse c).rxq = s.rxq := rfl
@[simp] theorem State.refuse_txq (c : Cause) : (s.refuse c).txq = s.txq := rfl
@[simp] theorem State.refuse_tmrDelay (c : Cause) : (s.refuse c).tmrDelay = s.tmrDelay := rfl
@[simp] theorem State.refuse_tmrRto (c : Cause) : (s.refuse c).tmrRto = s.tmrRto := rfl
@[simp] theorem State.refuse_tmrGap (c : Cause) : (s.refuse c).tmrGap = s.tmrGap := rfl
@[simp] theorem State.refuse_calmem (c : Cause) : (s.refuse c).calmem = s.calmem := rfl
@[simp] theorem State.refuse_actMem (c : Cause) : (s.refuse c).actMem = s.actMem := rfl
@[simp] theorem State.refuse_resp (c : Cause) : (s.refuse c).resp = some ⟨s.statusWord, c, .none⟩ := rfl
@[simp] theorem State.refuse_log (c : Cause) : (s.refuse c).log = s.log := rfl
@[simp] theorem State.refuse_wire (c : Cause) : (s.refuse c).wire = s.wire := rfl
@[simp] theorem State.refuse_faults (c : Cause) : (s.refuse c).faults = s.faults := rfl
@[simp] theorem State.refuse_rqWindow (c : Cause) : (s.refuse c).rqWindow = s.rqWindow := rfl
@[simp] theorem State.refuse_lineClean (c : Cause) : (s.refuse c).lineClean = s.lineClean := rfl
@[simp] theorem State.refuse_env (c : Cause) : (s.refuse c).env = s.env := rfl
@[simp] theorem State.refuse_draws (c : Cause) : (s.refuse c).draws = s.draws := rfl
@[simp] theorem State.refuse_inbox (c : Cause) : (s.refuse c).inbox = s.inbox := rfl
@[simp] theorem State.refuse_host (c : Cause) : (s.refuse c).host = s.host := rfl

@[simp] theorem State.emit_cfg (e : LogEvent) : (s.emit e).cfg = s.cfg := rfl
@[simp] theorem State.emit_caloffYaw (e : LogEvent) : (s.emit e).caloffYaw = s.caloffYaw := rfl
@[simp] theorem State.emit_caloffPitch (e : LogEvent) : (s.emit e).caloffPitch = s.caloffPitch := rfl
@[simp] theorem State.emit_txbuf (e : LogEvent) : (s.emit e).txbuf = s.txbuf := rfl
@[simp] theorem State.emit_txlen (e : LogEvent) : (s.emit e).txlen = s.txlen := rfl
@[simp] theorem State.emit_rxbuf (e : LogEvent) : (s.emit e).rxbuf = s.rxbuf := rfl
@[simp] theorem State.emit_rxlen (e : LogEvent) : (s.emit e).rxlen = s.rxlen := rfl
@[simp] theorem State.emit_seq (e : LogEvent) : (s.emit e).seq = s.seq := rfl
@[simp] theorem State.emit_seqTrace (e : LogEvent) : (s.emit e).seqTrace = s.seqTrace := rfl
@[simp] theorem State.emit_busOpen (e : LogEvent) : (s.emit e).busOpen = s.busOpen := rfl
@[simp] theorem State.emit_rspShort (e : LogEvent) : (s.emit e).rspShort = s.rspShort := rfl
@[simp] theorem State.emit_posValid (e : LogEvent) : (s.emit e).posValid = s.posValid := rfl
@[simp] theorem State.emit_calStatus (e : LogEvent) : (s.emit e).calStatus = s.calStatus := rfl
@[simp] theorem State.emit_saveFail (e : LogEvent) : (s.emit e).saveFail = s.saveFail := rfl
@[simp] theorem State.emit_calFail (e : LogEvent) : (s.emit e).calFail = s.calFail := rfl
@[simp] theorem State.emit_err (e : LogEvent) : (s.emit e).err = s.err := rfl
@[simp] theorem State.emit_rxq (e : LogEvent) : (s.emit e).rxq = s.rxq := rfl
@[simp] theorem State.emit_txq (e : LogEvent) : (s.emit e).txq = s.txq := rfl
@[simp] theorem State.emit_tmrDelay (e : LogEvent) : (s.emit e).tmrDelay = s.tmrDelay := rfl
@[simp] theorem State.emit_tmrRto (e : LogEvent) : (s.emit e).tmrRto = s.tmrRto := rfl
@[simp] theorem State.emit_tmrGap (e : LogEvent) : (s.emit e).tmrGap = s.tmrGap := rfl
@[simp] theorem State.emit_calmem (e : LogEvent) : (s.emit e).calmem = s.calmem := rfl
@[simp] theorem State.emit_actMem (e : LogEvent) : (s.emit e).actMem = s.actMem := rfl
@[simp] theorem State.emit_resp (e : LogEvent) : (s.emit e).resp = s.resp := rfl
@[simp] theorem State.emit_log (e : LogEvent) : (s.emit e).log = s.log ++ [⟨e.level, e⟩] := rfl
@[simp] theorem State.emit_wire (e : LogEvent) : (s.emit e).wire = s.wire := rfl
@[simp] theorem State.emit_faults (e : LogEvent) : (s.emit e).faults = s.faults := rfl
@[simp] theorem State.emit_rqWindow (e : LogEvent) : (s.emit e).rqWindow = s.rqWindow := rfl
@[simp] theorem State.emit_lineClean (e : LogEvent) : (s.emit e).lineClean = s.lineClean := rfl
@[simp] theorem State.emit_env (e : LogEvent) : (s.emit e).env = s.env := rfl
@[simp] theorem State.emit_draws (e : LogEvent) : (s.emit e).draws = s.draws := rfl
@[simp] theorem State.emit_inbox (e : LogEvent) : (s.emit e).inbox = s.inbox := rfl
@[simp] theorem State.emit_host (e : LogEvent) : (s.emit e).host = s.host := rfl

@[simp] theorem State.record_cfg (e : WireEvent) : (s.record e).cfg = s.cfg := rfl
@[simp] theorem State.record_caloffYaw (e : WireEvent) : (s.record e).caloffYaw = s.caloffYaw := rfl
@[simp] theorem State.record_caloffPitch (e : WireEvent) : (s.record e).caloffPitch = s.caloffPitch := rfl
@[simp] theorem State.record_txbuf (e : WireEvent) : (s.record e).txbuf = s.txbuf := rfl
@[simp] theorem State.record_txlen (e : WireEvent) : (s.record e).txlen = s.txlen := rfl
@[simp] theorem State.record_rxbuf (e : WireEvent) : (s.record e).rxbuf = s.rxbuf := rfl
@[simp] theorem State.record_rxlen (e : WireEvent) : (s.record e).rxlen = s.rxlen := rfl
@[simp] theorem State.record_seq (e : WireEvent) : (s.record e).seq = s.seq := rfl
@[simp] theorem State.record_seqTrace (e : WireEvent) : (s.record e).seqTrace = s.seqTrace := rfl
@[simp] theorem State.record_busOpen (e : WireEvent) : (s.record e).busOpen = s.busOpen := rfl
@[simp] theorem State.record_rspShort (e : WireEvent) : (s.record e).rspShort = s.rspShort := rfl
@[simp] theorem State.record_posValid (e : WireEvent) : (s.record e).posValid = s.posValid := rfl
@[simp] theorem State.record_calStatus (e : WireEvent) : (s.record e).calStatus = s.calStatus := rfl
@[simp] theorem State.record_saveFail (e : WireEvent) : (s.record e).saveFail = s.saveFail := rfl
@[simp] theorem State.record_calFail (e : WireEvent) : (s.record e).calFail = s.calFail := rfl
@[simp] theorem State.record_err (e : WireEvent) : (s.record e).err = s.err := rfl
@[simp] theorem State.record_rxq (e : WireEvent) : (s.record e).rxq = s.rxq := rfl
@[simp] theorem State.record_txq (e : WireEvent) : (s.record e).txq = s.txq := rfl
@[simp] theorem State.record_tmrDelay (e : WireEvent) : (s.record e).tmrDelay = s.tmrDelay := rfl
@[simp] theorem State.record_tmrRto (e : WireEvent) : (s.record e).tmrRto = s.tmrRto := rfl
@[simp] theorem State.record_tmrGap (e : WireEvent) : (s.record e).tmrGap = s.tmrGap := rfl
@[simp] theorem State.record_calmem (e : WireEvent) : (s.record e).calmem = s.calmem := rfl
@[simp] theorem State.record_actMem (e : WireEvent) : (s.record e).actMem = s.actMem := rfl
@[simp] theorem State.record_resp (e : WireEvent) : (s.record e).resp = s.resp := rfl
@[simp] theorem State.record_log (e : WireEvent) : (s.record e).log = s.log := rfl
@[simp] theorem State.record_wire (e : WireEvent) : (s.record e).wire = s.wire ++ [e] := rfl
@[simp] theorem State.record_faults (e : WireEvent) : (s.record e).faults = s.faults := rfl
@[simp] theorem State.record_rqWindow (e : WireEvent) : (s.record e).rqWindow = s.rqWindow := rfl
@[simp] theorem State.record_lineClean (e : WireEvent) : (s.record e).lineClean = s.lineClean := rfl
@[simp] theorem State.record_env (e : WireEvent) : (s.record e).env = s.env := rfl
@[simp] theorem State.record_draws (e : WireEvent) : (s.record e).draws = s.draws := rfl
@[simp] theorem State.record_inbox (e : WireEvent) : (s.record e).inbox = s.inbox := rfl
@[simp] theorem State.record_host (e : WireEvent) : (s.record e).host = s.host := rfl

@[simp] theorem State.addFault_cfg (w : GapKind) : (s.addFault w).cfg = s.cfg := rfl
@[simp] theorem State.addFault_caloffYaw (w : GapKind) : (s.addFault w).caloffYaw = s.caloffYaw := rfl
@[simp] theorem State.addFault_caloffPitch (w : GapKind) : (s.addFault w).caloffPitch = s.caloffPitch := rfl
@[simp] theorem State.addFault_txbuf (w : GapKind) : (s.addFault w).txbuf = s.txbuf := rfl
@[simp] theorem State.addFault_txlen (w : GapKind) : (s.addFault w).txlen = s.txlen := rfl
@[simp] theorem State.addFault_rxbuf (w : GapKind) : (s.addFault w).rxbuf = s.rxbuf := rfl
@[simp] theorem State.addFault_rxlen (w : GapKind) : (s.addFault w).rxlen = s.rxlen := rfl
@[simp] theorem State.addFault_seq (w : GapKind) : (s.addFault w).seq = s.seq := rfl
@[simp] theorem State.addFault_seqTrace (w : GapKind) : (s.addFault w).seqTrace = s.seqTrace := rfl
@[simp] theorem State.addFault_busOpen (w : GapKind) : (s.addFault w).busOpen = s.busOpen := rfl
@[simp] theorem State.addFault_rspShort (w : GapKind) : (s.addFault w).rspShort = s.rspShort := rfl
@[simp] theorem State.addFault_posValid (w : GapKind) : (s.addFault w).posValid = s.posValid := rfl
@[simp] theorem State.addFault_calStatus (w : GapKind) : (s.addFault w).calStatus = s.calStatus := rfl
@[simp] theorem State.addFault_saveFail (w : GapKind) : (s.addFault w).saveFail = s.saveFail := rfl
@[simp] theorem State.addFault_calFail (w : GapKind) : (s.addFault w).calFail = s.calFail := rfl
@[simp] theorem State.addFault_err (w : GapKind) : (s.addFault w).err = s.err := rfl
@[simp] theorem State.addFault_rxq (w : GapKind) : (s.addFault w).rxq = s.rxq := rfl
@[simp] theorem State.addFault_txq (w : GapKind) : (s.addFault w).txq = s.txq := rfl
@[simp] theorem State.addFault_tmrDelay (w : GapKind) : (s.addFault w).tmrDelay = s.tmrDelay := rfl
@[simp] theorem State.addFault_tmrRto (w : GapKind) : (s.addFault w).tmrRto = s.tmrRto := rfl
@[simp] theorem State.addFault_tmrGap (w : GapKind) : (s.addFault w).tmrGap = s.tmrGap := rfl
@[simp] theorem State.addFault_calmem (w : GapKind) : (s.addFault w).calmem = s.calmem := rfl
@[simp] theorem State.addFault_actMem (w : GapKind) : (s.addFault w).actMem = [] := rfl
@[simp] theorem State.addFault_resp (w : GapKind) : (s.addFault w).resp = s.resp := rfl
@[simp] theorem State.addFault_log (w : GapKind) : (s.addFault w).log = s.log := rfl
@[simp] theorem State.addFault_wire (w : GapKind) : (s.addFault w).wire = s.wire := rfl
@[simp] theorem State.addFault_faults (w : GapKind) : (s.addFault w).faults = s.faults ++ [.gapViolation w] := rfl
@[simp] theorem State.addFault_rqWindow (w : GapKind) : (s.addFault w).rqWindow = s.rqWindow := rfl
@[simp] theorem State.addFault_lineClean (w : GapKind) : (s.addFault w).lineClean = false := rfl
@[simp] theorem State.addFault_env (w : GapKind) : (s.addFault w).env = s.env := rfl
@[simp] theorem State.addFault_draws (w : GapKind) : (s.addFault w).draws = s.draws := rfl
@[simp] theorem State.addFault_inbox (w : GapKind) : (s.addFault w).inbox = s.inbox := rfl
@[simp] theorem State.addFault_host (w : GapKind) : (s.addFault w).host = s.host := rfl

@[simp] theorem State.setTx_cfg (f : List Byte) : (s.setTx f).cfg = s.cfg := rfl
@[simp] theorem State.setTx_caloffYaw (f : List Byte) : (s.setTx f).caloffYaw = s.caloffYaw := rfl
@[simp] theorem State.setTx_caloffPitch (f : List Byte) : (s.setTx f).caloffPitch = s.caloffPitch := rfl
@[simp] theorem State.setTx_txbuf (f : List Byte) : (s.setTx f).txbuf = f ++ s.txbuf.drop f.length := rfl
@[simp] theorem State.setTx_txlen (f : List Byte) : (s.setTx f).txlen = f.length := rfl
@[simp] theorem State.setTx_rxbuf (f : List Byte) : (s.setTx f).rxbuf = s.rxbuf := rfl
@[simp] theorem State.setTx_rxlen (f : List Byte) : (s.setTx f).rxlen = s.rxlen := rfl
@[simp] theorem State.setTx_seq (f : List Byte) : (s.setTx f).seq = s.seq := rfl
@[simp] theorem State.setTx_seqTrace (f : List Byte) : (s.setTx f).seqTrace = s.seqTrace := rfl
@[simp] theorem State.setTx_busOpen (f : List Byte) : (s.setTx f).busOpen = s.busOpen := rfl
@[simp] theorem State.setTx_rspShort (f : List Byte) : (s.setTx f).rspShort = s.rspShort := rfl
@[simp] theorem State.setTx_posValid (f : List Byte) : (s.setTx f).posValid = s.posValid := rfl
@[simp] theorem State.setTx_calStatus (f : List Byte) : (s.setTx f).calStatus = s.calStatus := rfl
@[simp] theorem State.setTx_saveFail (f : List Byte) : (s.setTx f).saveFail = s.saveFail := rfl
@[simp] theorem State.setTx_calFail (f : List Byte) : (s.setTx f).calFail = s.calFail := rfl
@[simp] theorem State.setTx_err (f : List Byte) : (s.setTx f).err = s.err := rfl
@[simp] theorem State.setTx_rxq (f : List Byte) : (s.setTx f).rxq = s.rxq := rfl
@[simp] theorem State.setTx_txq (f : List Byte) : (s.setTx f).txq = s.txq := rfl
@[simp] theorem State.setTx_tmrDelay (f : List Byte) : (s.setTx f).tmrDelay = s.tmrDelay := rfl
@[simp] theorem State.setTx_tmrRto (f : List Byte) : (s.setTx f).tmrRto = s.tmrRto := rfl
@[simp] theorem State.setTx_tmrGap (f : List Byte) : (s.setTx f).tmrGap = s.tmrGap := rfl
@[simp] theorem State.setTx_calmem (f : List Byte) : (s.setTx f).calmem = s.calmem := rfl
@[simp] theorem State.setTx_actMem (f : List Byte) : (s.setTx f).actMem = s.actMem := rfl
@[simp] theorem State.setTx_resp (f : List Byte) : (s.setTx f).resp = s.resp := rfl
@[simp] theorem State.setTx_log (f : List Byte) : (s.setTx f).log = s.log := rfl
@[simp] theorem State.setTx_wire (f : List Byte) : (s.setTx f).wire = s.wire := rfl
@[simp] theorem State.setTx_faults (f : List Byte) : (s.setTx f).faults = s.faults := rfl
@[simp] theorem State.setTx_rqWindow (f : List Byte) : (s.setTx f).rqWindow = s.rqWindow := rfl
@[simp] theorem State.setTx_lineClean (f : List Byte) : (s.setTx f).lineClean = s.lineClean := rfl
@[simp] theorem State.setTx_env (f : List Byte) : (s.setTx f).env = s.env := rfl
@[simp] theorem State.setTx_draws (f : List Byte) : (s.setTx f).draws = s.draws := rfl
@[simp] theorem State.setTx_inbox (f : List Byte) : (s.setTx f).inbox = s.inbox := rfl
@[simp] theorem State.setTx_host (f : List Byte) : (s.setTx f).host = s.host := rfl

@[simp] theorem State.setRx_cfg (r : List Byte) : (s.setRx r).cfg = s.cfg := rfl
@[simp] theorem State.setRx_caloffYaw (r : List Byte) : (s.setRx r).caloffYaw = s.caloffYaw := rfl
@[simp] theorem State.setRx_caloffPitch (r : List Byte) : (s.setRx r).caloffPitch = s.caloffPitch := rfl
@[simp] theorem State.setRx_txbuf (r : List Byte) : (s.setRx r).txbuf = s.txbuf := rfl
@[simp] theorem State.setRx_txlen (r : List Byte) : (s.setRx r).txlen = s.txlen := rfl
@[simp] theorem State.setRx_rxbuf (r : List Byte) : (s.setRx r).rxbuf = r ++ rxTailBytes s.draws r.length := rfl
@[simp] theorem State.setRx_rxlen (r : List Byte) : (s.setRx r).rxlen = r.length := rfl
@[simp] theorem State.setRx_seq (r : List Byte) : (s.setRx r).seq = s.seq := rfl
@[simp] theorem State.setRx_seqTrace (r : List Byte) : (s.setRx r).seqTrace = s.seqTrace := rfl
@[simp] theorem State.setRx_busOpen (r : List Byte) : (s.setRx r).busOpen = s.busOpen := rfl
@[simp] theorem State.setRx_rspShort (r : List Byte) : (s.setRx r).rspShort = s.rspShort := rfl
@[simp] theorem State.setRx_posValid (r : List Byte) : (s.setRx r).posValid = s.posValid := rfl
@[simp] theorem State.setRx_calStatus (r : List Byte) : (s.setRx r).calStatus = s.calStatus := rfl
@[simp] theorem State.setRx_saveFail (r : List Byte) : (s.setRx r).saveFail = s.saveFail := rfl
@[simp] theorem State.setRx_calFail (r : List Byte) : (s.setRx r).calFail = s.calFail := rfl
@[simp] theorem State.setRx_err (r : List Byte) : (s.setRx r).err = s.err := rfl
@[simp] theorem State.setRx_rxq (r : List Byte) : (s.setRx r).rxq = s.rxq := rfl
@[simp] theorem State.setRx_txq (r : List Byte) : (s.setRx r).txq = s.txq := rfl
@[simp] theorem State.setRx_tmrDelay (r : List Byte) : (s.setRx r).tmrDelay = s.tmrDelay := rfl
@[simp] theorem State.setRx_tmrRto (r : List Byte) : (s.setRx r).tmrRto = s.tmrRto := rfl
@[simp] theorem State.setRx_tmrGap (r : List Byte) : (s.setRx r).tmrGap = s.tmrGap := rfl
@[simp] theorem State.setRx_calmem (r : List Byte) : (s.setRx r).calmem = s.calmem := rfl
@[simp] theorem State.setRx_actMem (r : List Byte) : (s.setRx r).actMem = s.actMem := rfl
@[simp] theorem State.setRx_resp (r : List Byte) : (s.setRx r).resp = s.resp := rfl
@[simp] theorem State.setRx_log (r : List Byte) : (s.setRx r).log = s.log := rfl
@[simp] theorem State.setRx_wire (r : List Byte) : (s.setRx r).wire = s.wire := rfl
@[simp] theorem State.setRx_faults (r : List Byte) : (s.setRx r).faults = s.faults := rfl
@[simp] theorem State.setRx_rqWindow (r : List Byte) : (s.setRx r).rqWindow = s.rqWindow := rfl
@[simp] theorem State.setRx_lineClean (r : List Byte) : (s.setRx r).lineClean = s.lineClean := rfl
@[simp] theorem State.setRx_env (r : List Byte) : (s.setRx r).env = s.env := rfl
@[simp] theorem State.setRx_draws (r : List Byte) : (s.setRx r).draws = s.draws + 1 := rfl
@[simp] theorem State.setRx_inbox (r : List Byte) : (s.setRx r).inbox = s.inbox := rfl
@[simp] theorem State.setRx_host (r : List Byte) : (s.setRx r).host = s.host := rfl

@[simp] theorem State.elapse_cfg (us : Nat) : (s.elapse us).cfg = s.cfg := rfl
@[simp] theorem State.elapse_caloffYaw (us : Nat) : (s.elapse us).caloffYaw = s.caloffYaw := rfl
@[simp] theorem State.elapse_caloffPitch (us : Nat) : (s.elapse us).caloffPitch = s.caloffPitch := rfl
@[simp] theorem State.elapse_txbuf (us : Nat) : (s.elapse us).txbuf = s.txbuf := rfl
@[simp] theorem State.elapse_txlen (us : Nat) : (s.elapse us).txlen = s.txlen := rfl
@[simp] theorem State.elapse_rxbuf (us : Nat) : (s.elapse us).rxbuf = s.rxbuf := rfl
@[simp] theorem State.elapse_rxlen (us : Nat) : (s.elapse us).rxlen = s.rxlen := rfl
@[simp] theorem State.elapse_seq (us : Nat) : (s.elapse us).seq = s.seq := rfl
@[simp] theorem State.elapse_seqTrace (us : Nat) : (s.elapse us).seqTrace = s.seqTrace := rfl
@[simp] theorem State.elapse_busOpen (us : Nat) : (s.elapse us).busOpen = s.busOpen := rfl
@[simp] theorem State.elapse_rspShort (us : Nat) : (s.elapse us).rspShort = s.rspShort := rfl
@[simp] theorem State.elapse_posValid (us : Nat) : (s.elapse us).posValid = s.posValid := rfl
@[simp] theorem State.elapse_calStatus (us : Nat) : (s.elapse us).calStatus = s.calStatus := rfl
@[simp] theorem State.elapse_saveFail (us : Nat) : (s.elapse us).saveFail = s.saveFail := rfl
@[simp] theorem State.elapse_calFail (us : Nat) : (s.elapse us).calFail = s.calFail := rfl
@[simp] theorem State.elapse_err (us : Nat) : (s.elapse us).err = s.err := rfl
@[simp] theorem State.elapse_rxq (us : Nat) : (s.elapse us).rxq = s.rxq := rfl
@[simp] theorem State.elapse_txq (us : Nat) : (s.elapse us).txq = s.txq := rfl
@[simp] theorem State.elapse_tmrDelay (us : Nat) : (s.elapse us).tmrDelay = s.tmrDelay := rfl
@[simp] theorem State.elapse_tmrRto (us : Nat) : (s.elapse us).tmrRto = s.tmrRto := rfl
@[simp] theorem State.elapse_tmrGap (us : Nat) : (s.elapse us).tmrGap = s.tmrGap.add us := rfl
@[simp] theorem State.elapse_calmem (us : Nat) : (s.elapse us).calmem = s.calmem := rfl
@[simp] theorem State.elapse_actMem (us : Nat) : (s.elapse us).actMem = s.actMem := rfl
@[simp] theorem State.elapse_resp (us : Nat) : (s.elapse us).resp = s.resp := rfl
@[simp] theorem State.elapse_log (us : Nat) : (s.elapse us).log = s.log := rfl
@[simp] theorem State.elapse_wire (us : Nat) : (s.elapse us).wire = s.wire ++ [.waited us] := rfl
@[simp] theorem State.elapse_faults (us : Nat) : (s.elapse us).faults = s.faults := rfl
@[simp] theorem State.elapse_rqWindow (us : Nat) : (s.elapse us).rqWindow = s.rqWindow := rfl
@[simp] theorem State.elapse_lineClean (us : Nat) : (s.elapse us).lineClean = s.lineClean := rfl
@[simp] theorem State.elapse_env (us : Nat) : (s.elapse us).env = s.env := rfl
@[simp] theorem State.elapse_draws (us : Nat) : (s.elapse us).draws = s.draws := rfl
@[simp] theorem State.elapse_inbox (us : Nat) : (s.elapse us).inbox = s.inbox := rfl
@[simp] theorem State.elapse_host (us : Nat) : (s.elapse us).host = s.host := rfl

@[simp] theorem State.delay_cfg (us : Nat) : (s.delay us).cfg = s.cfg := rfl
@[simp] theorem State.delay_caloffYaw (us : Nat) : (s.delay us).caloffYaw = s.caloffYaw := rfl
@[simp] theorem State.delay_caloffPitch (us : Nat) : (s.delay us).caloffPitch = s.caloffPitch := rfl
@[simp] theorem State.delay_txbuf (us : Nat) : (s.delay us).txbuf = s.txbuf := rfl
@[simp] theorem State.delay_txlen (us : Nat) : (s.delay us).txlen = s.txlen := rfl
@[simp] theorem State.delay_rxbuf (us : Nat) : (s.delay us).rxbuf = s.rxbuf := rfl
@[simp] theorem State.delay_rxlen (us : Nat) : (s.delay us).rxlen = s.rxlen := rfl
@[simp] theorem State.delay_seq (us : Nat) : (s.delay us).seq = s.seq := rfl
@[simp] theorem State.delay_seqTrace (us : Nat) : (s.delay us).seqTrace = s.seqTrace := rfl
@[simp] theorem State.delay_busOpen (us : Nat) : (s.delay us).busOpen = s.busOpen := rfl
@[simp] theorem State.delay_rspShort (us : Nat) : (s.delay us).rspShort = s.rspShort := rfl
@[simp] theorem State.delay_posValid (us : Nat) : (s.delay us).posValid = s.posValid := rfl
@[simp] theorem State.delay_calStatus (us : Nat) : (s.delay us).calStatus = s.calStatus := rfl
@[simp] theorem State.delay_saveFail (us : Nat) : (s.delay us).saveFail = s.saveFail := rfl
@[simp] theorem State.delay_calFail (us : Nat) : (s.delay us).calFail = s.calFail := rfl
@[simp] theorem State.delay_err (us : Nat) : (s.delay us).err = s.err := rfl
@[simp] theorem State.delay_rxq (us : Nat) : (s.delay us).rxq = s.rxq := rfl
@[simp] theorem State.delay_txq (us : Nat) : (s.delay us).txq = s.txq := rfl
@[simp] theorem State.delay_tmrDelay (us : Nat) : (s.delay us).tmrDelay = .stopped := rfl
@[simp] theorem State.delay_tmrRto (us : Nat) : (s.delay us).tmrRto = s.tmrRto := rfl
@[simp] theorem State.delay_tmrGap (us : Nat) : (s.delay us).tmrGap = s.tmrGap.add us := rfl
@[simp] theorem State.delay_calmem (us : Nat) : (s.delay us).calmem = s.calmem := rfl
@[simp] theorem State.delay_actMem (us : Nat) : (s.delay us).actMem = s.actMem := rfl
@[simp] theorem State.delay_resp (us : Nat) : (s.delay us).resp = s.resp := rfl
@[simp] theorem State.delay_log (us : Nat) : (s.delay us).log = s.log := rfl
@[simp] theorem State.delay_wire (us : Nat) : (s.delay us).wire = s.wire ++ [.waited us] := rfl
@[simp] theorem State.delay_faults (us : Nat) : (s.delay us).faults = s.faults := rfl
@[simp] theorem State.delay_rqWindow (us : Nat) : (s.delay us).rqWindow = s.rqWindow := rfl
@[simp] theorem State.delay_lineClean (us : Nat) : (s.delay us).lineClean = s.lineClean := rfl
@[simp] theorem State.delay_env (us : Nat) : (s.delay us).env = s.env := rfl
@[simp] theorem State.delay_draws (us : Nat) : (s.delay us).draws = s.draws := rfl
@[simp] theorem State.delay_inbox (us : Nat) : (s.delay us).inbox = s.inbox := rfl
@[simp] theorem State.delay_host (us : Nat) : (s.delay us).host = s.host := rfl

@[simp] theorem State.popOpen_cfg : (s.popOpen).cfg = s.cfg := rfl
@[simp] theorem State.popOpen_caloffYaw : (s.popOpen).caloffYaw = s.caloffYaw := rfl
@[simp] theorem State.popOpen_caloffPitch : (s.popOpen).caloffPitch = s.caloffPitch := rfl
@[simp] theorem State.popOpen_txbuf : (s.popOpen).txbuf = s.txbuf := rfl
@[simp] theorem State.popOpen_txlen : (s.popOpen).txlen = s.txlen := rfl
@[simp] theorem State.popOpen_rxbuf : (s.popOpen).rxbuf = s.rxbuf := rfl
@[simp] theorem State.popOpen_rxlen : (s.popOpen).rxlen = s.rxlen := rfl
@[simp] theorem State.popOpen_seq : (s.popOpen).seq = s.seq := rfl
@[simp] theorem State.popOpen_seqTrace : (s.popOpen).seqTrace = s.seqTrace := rfl
@[simp] theorem State.popOpen_busOpen : (s.popOpen).busOpen = s.busOpen := rfl
@[simp] theorem State.popOpen_rspShort : (s.popOpen).rspShort = s.rspShort := rfl
@[simp] theorem State.popOpen_posValid : (s.popOpen).posValid = s.posValid := rfl
@[simp] theorem State.popOpen_calStatus : (s.popOpen).calStatus = s.calStatus := rfl
@[simp] theorem State.popOpen_saveFail : (s.popOpen).saveFail = s.saveFail := rfl
@[simp] theorem State.popOpen_calFail : (s.popOpen).calFail = s.calFail := rfl
@[simp] theorem State.popOpen_err : (s.popOpen).err = s.err := rfl
@[simp] theorem State.popOpen_rxq : (s.popOpen).rxq = s.rxq := rfl
@[simp] theorem State.popOpen_txq : (s.popOpen).txq = s.txq := rfl
@[simp] theorem State.popOpen_tmrDelay : (s.popOpen).tmrDelay = s.tmrDelay := rfl
@[simp] theorem State.popOpen_tmrRto : (s.popOpen).tmrRto = s.tmrRto := rfl
@[simp] theorem State.popOpen_tmrGap : (s.popOpen).tmrGap = s.tmrGap := rfl
@[simp] theorem State.popOpen_calmem : (s.popOpen).calmem = s.calmem := rfl
@[simp] theorem State.popOpen_actMem : (s.popOpen).actMem = s.actMem := rfl
@[simp] theorem State.popOpen_resp : (s.popOpen).resp = s.resp := rfl
@[simp] theorem State.popOpen_log : (s.popOpen).log = s.log := rfl
@[simp] theorem State.popOpen_wire : (s.popOpen).wire = s.wire := rfl
@[simp] theorem State.popOpen_faults : (s.popOpen).faults = s.faults := rfl
@[simp] theorem State.popOpen_rqWindow : (s.popOpen).rqWindow = s.rqWindow := rfl
@[simp] theorem State.popOpen_lineClean : (s.popOpen).lineClean = s.lineClean := rfl
@[simp] theorem State.popOpen_env : (s.popOpen).env = { s.env with opens := s.env.opens.tail } := rfl
@[simp] theorem State.popOpen_draws : (s.popOpen).draws = s.draws + 1 := rfl
@[simp] theorem State.popOpen_inbox : (s.popOpen).inbox = s.inbox := rfl
@[simp] theorem State.popOpen_host : (s.popOpen).host = s.host := rfl

@[simp] theorem State.popWrite_cfg : (s.popWrite).cfg = s.cfg := rfl
@[simp] theorem State.popWrite_caloffYaw : (s.popWrite).caloffYaw = s.caloffYaw := rfl
@[simp] theorem State.popWrite_caloffPitch : (s.popWrite).caloffPitch = s.caloffPitch := rfl
@[simp] theorem State.popWrite_txbuf : (s.popWrite).txbuf = s.txbuf := rfl
@[simp] theorem State.popWrite_txlen : (s.popWrite).txlen = s.txlen := rfl
@[simp] theorem State.popWrite_rxbuf : (s.popWrite).rxbuf = s.rxbuf := rfl
@[simp] theorem State.popWrite_rxlen : (s.popWrite).rxlen = s.rxlen := rfl
@[simp] theorem State.popWrite_seq : (s.popWrite).seq = s.seq := rfl
@[simp] theorem State.popWrite_seqTrace : (s.popWrite).seqTrace = s.seqTrace := rfl
@[simp] theorem State.popWrite_busOpen : (s.popWrite).busOpen = s.busOpen := rfl
@[simp] theorem State.popWrite_rspShort : (s.popWrite).rspShort = s.rspShort := rfl
@[simp] theorem State.popWrite_posValid : (s.popWrite).posValid = s.posValid := rfl
@[simp] theorem State.popWrite_calStatus : (s.popWrite).calStatus = s.calStatus := rfl
@[simp] theorem State.popWrite_saveFail : (s.popWrite).saveFail = s.saveFail := rfl
@[simp] theorem State.popWrite_calFail : (s.popWrite).calFail = s.calFail := rfl
@[simp] theorem State.popWrite_err : (s.popWrite).err = s.err := rfl
@[simp] theorem State.popWrite_rxq : (s.popWrite).rxq = s.rxq := rfl
@[simp] theorem State.popWrite_txq : (s.popWrite).txq = s.txq := rfl
@[simp] theorem State.popWrite_tmrDelay : (s.popWrite).tmrDelay = s.tmrDelay := rfl
@[simp] theorem State.popWrite_tmrRto : (s.popWrite).tmrRto = s.tmrRto := rfl
@[simp] theorem State.popWrite_tmrGap : (s.popWrite).tmrGap = s.tmrGap := rfl
@[simp] theorem State.popWrite_calmem : (s.popWrite).calmem = s.calmem := rfl
@[simp] theorem State.popWrite_actMem : (s.popWrite).actMem = s.actMem := rfl
@[simp] theorem State.popWrite_resp : (s.popWrite).resp = s.resp := rfl
@[simp] theorem State.popWrite_log : (s.popWrite).log = s.log := rfl
@[simp] theorem State.popWrite_wire : (s.popWrite).wire = s.wire := rfl
@[simp] theorem State.popWrite_faults : (s.popWrite).faults = s.faults := rfl
@[simp] theorem State.popWrite_rqWindow : (s.popWrite).rqWindow = s.rqWindow := rfl
@[simp] theorem State.popWrite_lineClean : (s.popWrite).lineClean = s.lineClean := rfl
@[simp] theorem State.popWrite_env : (s.popWrite).env = { s.env with writes := s.env.writes.tail } := rfl
@[simp] theorem State.popWrite_draws : (s.popWrite).draws = s.draws + 1 := rfl
@[simp] theorem State.popWrite_inbox : (s.popWrite).inbox = s.inbox := rfl
@[simp] theorem State.popWrite_host : (s.popWrite).host = s.host := rfl

@[simp] theorem State.receive_cfg : (s.receive).cfg = s.cfg := rfl
@[simp] theorem State.receive_caloffYaw : (s.receive).caloffYaw = s.caloffYaw := rfl
@[simp] theorem State.receive_caloffPitch : (s.receive).caloffPitch = s.caloffPitch := rfl
@[simp] theorem State.receive_txbuf : (s.receive).txbuf = s.txbuf := rfl
@[simp] theorem State.receive_txlen : (s.receive).txlen = s.txlen := rfl
@[simp] theorem State.receive_rxbuf : (s.receive).rxbuf = s.rxbuf := rfl
@[simp] theorem State.receive_rxlen : (s.receive).rxlen = s.rxlen := rfl
@[simp] theorem State.receive_seq : (s.receive).seq = s.seq := rfl
@[simp] theorem State.receive_seqTrace : (s.receive).seqTrace = s.seqTrace := rfl
@[simp] theorem State.receive_busOpen : (s.receive).busOpen = s.busOpen := rfl
@[simp] theorem State.receive_rspShort : (s.receive).rspShort = s.rspShort := rfl
@[simp] theorem State.receive_posValid : (s.receive).posValid = s.posValid := rfl
@[simp] theorem State.receive_calStatus : (s.receive).calStatus = s.calStatus := rfl
@[simp] theorem State.receive_saveFail : (s.receive).saveFail = s.saveFail := rfl
@[simp] theorem State.receive_calFail : (s.receive).calFail = s.calFail := rfl
@[simp] theorem State.receive_err : (s.receive).err = s.err := rfl
@[simp] theorem State.receive_rxq : (s.receive).rxq = s.rxq ++ s.nextArrivals := rfl
@[simp] theorem State.receive_txq : (s.receive).txq = s.txq := rfl
@[simp] theorem State.receive_tmrDelay : (s.receive).tmrDelay = s.tmrDelay := rfl
@[simp] theorem State.receive_tmrRto : (s.receive).tmrRto = s.tmrRto := rfl
@[simp] theorem State.receive_tmrGap : (s.receive).tmrGap = s.tmrGap := rfl
@[simp] theorem State.receive_calmem : (s.receive).calmem = s.calmem := rfl
@[simp] theorem State.receive_actMem : (s.receive).actMem = s.actMem := rfl
@[simp] theorem State.receive_resp : (s.receive).resp = s.resp := rfl
@[simp] theorem State.receive_log : (s.receive).log = s.log := rfl
@[simp] theorem State.receive_wire : (s.receive).wire = s.wire := rfl
@[simp] theorem State.receive_faults : (s.receive).faults = s.faults := rfl
@[simp] theorem State.receive_rqWindow : (s.receive).rqWindow = s.rqWindow := rfl
@[simp] theorem State.receive_lineClean : (s.receive).lineClean = s.lineClean := rfl
@[simp] theorem State.receive_env : (s.receive).env = { s.env with arrivals := s.env.arrivals.tail } := rfl
@[simp] theorem State.receive_draws : (s.receive).draws = s.draws + 1 := rfl
@[simp] theorem State.receive_inbox : (s.receive).inbox = s.inbox := rfl
@[simp] theorem State.receive_host : (s.receive).host = s.host := rfl

@[simp] theorem State.busFlush_cfg : (s.busFlush).cfg = s.cfg := rfl
@[simp] theorem State.busFlush_caloffYaw : (s.busFlush).caloffYaw = s.caloffYaw := rfl
@[simp] theorem State.busFlush_caloffPitch : (s.busFlush).caloffPitch = s.caloffPitch := rfl
@[simp] theorem State.busFlush_txbuf : (s.busFlush).txbuf = s.txbuf := rfl
@[simp] theorem State.busFlush_txlen : (s.busFlush).txlen = s.txlen := rfl
@[simp] theorem State.busFlush_rxbuf : (s.busFlush).rxbuf = s.rxbuf := rfl
@[simp] theorem State.busFlush_rxlen : (s.busFlush).rxlen = s.rxlen := rfl
@[simp] theorem State.busFlush_seq : (s.busFlush).seq = s.seq := rfl
@[simp] theorem State.busFlush_seqTrace : (s.busFlush).seqTrace = s.seqTrace := rfl
@[simp] theorem State.busFlush_busOpen : (s.busFlush).busOpen = s.busOpen := rfl
@[simp] theorem State.busFlush_rspShort : (s.busFlush).rspShort = s.rspShort := rfl
@[simp] theorem State.busFlush_posValid : (s.busFlush).posValid = s.posValid := rfl
@[simp] theorem State.busFlush_calStatus : (s.busFlush).calStatus = s.calStatus := rfl
@[simp] theorem State.busFlush_saveFail : (s.busFlush).saveFail = s.saveFail := rfl
@[simp] theorem State.busFlush_calFail : (s.busFlush).calFail = s.calFail := rfl
@[simp] theorem State.busFlush_err : (s.busFlush).err = s.err := rfl
@[simp] theorem State.busFlush_rxq : (s.busFlush).rxq = [] := rfl
@[simp] theorem State.busFlush_txq : (s.busFlush).txq = [] := rfl
@[simp] theorem State.busFlush_tmrDelay : (s.busFlush).tmrDelay = s.tmrDelay := rfl
@[simp] theorem State.busFlush_tmrRto : (s.busFlush).tmrRto = s.tmrRto := rfl
@[simp] theorem State.busFlush_tmrGap : (s.busFlush).tmrGap = s.tmrGap := rfl
@[simp] theorem State.busFlush_calmem : (s.busFlush).calmem = s.calmem := rfl
@[simp] theorem State.busFlush_actMem : (s.busFlush).actMem = s.actMem := rfl
@[simp] theorem State.busFlush_resp : (s.busFlush).resp = s.resp := rfl
@[simp] theorem State.busFlush_log : (s.busFlush).log = s.log := rfl
@[simp] theorem State.busFlush_wire : (s.busFlush).wire = s.wire ++ [.flushed] := rfl
@[simp] theorem State.busFlush_faults : (s.busFlush).faults = s.faults := rfl
@[simp] theorem State.busFlush_rqWindow : (s.busFlush).rqWindow = false := rfl
@[simp] theorem State.busFlush_lineClean : (s.busFlush).lineClean = s.lineClean := rfl
@[simp] theorem State.busFlush_env : (s.busFlush).env = s.env := rfl
@[simp] theorem State.busFlush_draws : (s.busFlush).draws = s.draws := rfl
@[simp] theorem State.busFlush_inbox : (s.busFlush).inbox = s.inbox := rfl
@[simp] theorem State.busFlush_host : (s.busFlush).host = s.host := rfl

@[simp] theorem State.setCaloff_cfg (y p : Deg) : (s.setCaloff y p).cfg = s.cfg := rfl
@[simp] theorem State.setCaloff_caloffYaw (y p : Deg) : (s.setCaloff y p).caloffYaw = y := rfl
@[simp] theorem State.setCaloff_caloffPitch (y p : Deg) : (s.setCaloff y p).caloffPitch = p := rfl
@[simp] theorem State.setCaloff_txbuf (y p : Deg) : (s.setCaloff y p).txbuf = s.txbuf := rfl
@[simp] theorem State.setCaloff_txlen (y p : Deg) : (s.setCaloff y p).txlen = s.txlen := rfl
@[simp] theorem State.setCaloff_rxbuf (y p : Deg) : (s.setCaloff y p).rxbuf = s.rxbuf := rfl
@[simp] theorem State.setCaloff_rxlen (y p : Deg) : (s.setCaloff y p).rxlen = s.rxlen := rfl
@[simp] theorem State.setCaloff_seq (y p : Deg) : (s.setCaloff y p).seq = s.seq := rfl
@[simp] theorem State.setCaloff_seqTrace (y p : Deg) : (s.setCaloff y p).seqTrace = s.seqTrace := rfl
@[simp] theorem State.setCaloff_busOpen (y p : Deg) : (s.setCaloff y p).busOpen = s.busOpen := rfl
@[simp] theorem State.setCaloff_rspShort (y p : Deg) : (s.setCaloff y p).rspShort = s.rspShort := rfl
@[simp] theorem State.setCaloff_posValid (y p : Deg) : (s.setCaloff y p).posValid = s.posValid := rfl
@[simp] theorem State.setCaloff_calStatus (y p : Deg) : (s.setCaloff y p).calStatus = s.calStatus := rfl
@[simp] theorem State.setCaloff_saveFail (y p : Deg) : (s.setCaloff y p).saveFail = s.saveFail := rfl
@[simp] theorem State.setCaloff_calFail (y p : Deg) : (s.setCaloff y p).calFail = s.calFail := rfl
@[simp] theorem State.setCaloff_err (y p : Deg) : (s.setCaloff y p).err = s.err := rfl
@[simp] theorem State.setCaloff_rxq (y p : Deg) : (s.setCaloff y p).rxq = s.rxq := rfl
@[simp] theorem State.setCaloff_txq (y p : Deg) : (s.setCaloff y p).txq = s.txq := rfl
@[simp] theorem State.setCaloff_tmrDelay (y p : Deg) : (s.setCaloff y p).tmrDelay = s.tmrDelay := rfl
@[simp] theorem State.setCaloff_tmrRto (y p : Deg) : (s.setCaloff y p).tmrRto = s.tmrRto := rfl
@[simp] theorem State.setCaloff_tmrGap (y p : Deg) : (s.setCaloff y p).tmrGap = s.tmrGap := rfl
@[simp] theorem State.setCaloff_calmem (y p : Deg) : (s.setCaloff y p).calmem = s.calmem := rfl
@[simp] theorem State.setCaloff_actMem (y p : Deg) : (s.setCaloff y p).actMem = s.actMem := rfl
@[simp] theorem State.setCaloff_resp (y p : Deg) : (s.setCaloff y p).resp = s.resp := rfl
@[simp] theorem State.setCaloff_log (y p : Deg) : (s.setCaloff y p).log = s.log := rfl
@[simp] theorem State.setCaloff_wire (y p : Deg) : (s.setCaloff y p).wire = s.wire := rfl
@[simp] theorem State.setCaloff_faults (y p : Deg) : (s.setCaloff y p).faults = s.faults := rfl
@[simp] theorem State.setCaloff_rqWindow (y p : Deg) : (s.setCaloff y p).rqWindow = s.rqWindow := rfl
@[simp] theorem State.setCaloff_lineClean (y p : Deg) : (s.setCaloff y p).lineClean = s.lineClean := rfl
@[simp] theorem State.setCaloff_env (y p : Deg) : (s.setCaloff y p).env = s.env := rfl
@[simp] theorem State.setCaloff_draws (y p : Deg) : (s.setCaloff y p).draws = s.draws := rfl
@[simp] theorem State.setCaloff_inbox (y p : Deg) : (s.setCaloff y p).inbox = s.inbox := rfl
@[simp] theorem State.setCaloff_host (y p : Deg) : (s.setCaloff y p).host = s.host := rfl

@[simp] theorem State.plan_cfg (acts : List HostAct) : (s.plan acts).cfg = s.cfg := rfl
@[simp] theorem State.plan_caloffYaw (acts : List HostAct) : (s.plan acts).caloffYaw = s.caloffYaw := rfl
@[simp] theorem State.plan_caloffPitch (acts : List HostAct) : (s.plan acts).caloffPitch = s.caloffPitch := rfl
@[simp] theorem State.plan_txbuf (acts : List HostAct) : (s.plan acts).txbuf = s.txbuf := rfl
@[simp] theorem State.plan_txlen (acts : List HostAct) : (s.plan acts).txlen = s.txlen := rfl
@[simp] theorem State.plan_rxbuf (acts : List HostAct) : (s.plan acts).rxbuf = s.rxbuf := rfl
@[simp] theorem State.plan_rxlen (acts : List HostAct) : (s.plan acts).rxlen = s.rxlen := rfl
@[simp] theorem State.plan_seq (acts : List HostAct) : (s.plan acts).seq = s.seq := rfl
@[simp] theorem State.plan_seqTrace (acts : List HostAct) : (s.plan acts).seqTrace = s.seqTrace := rfl
@[simp] theorem State.plan_busOpen (acts : List HostAct) : (s.plan acts).busOpen = s.busOpen := rfl
@[simp] theorem State.plan_rspShort (acts : List HostAct) : (s.plan acts).rspShort = s.rspShort := rfl
@[simp] theorem State.plan_posValid (acts : List HostAct) : (s.plan acts).posValid = s.posValid := rfl
@[simp] theorem State.plan_calStatus (acts : List HostAct) : (s.plan acts).calStatus = s.calStatus := rfl
@[simp] theorem State.plan_saveFail (acts : List HostAct) : (s.plan acts).saveFail = s.saveFail := rfl
@[simp] theorem State.plan_calFail (acts : List HostAct) : (s.plan acts).calFail = s.calFail := rfl
@[simp] theorem State.plan_err (acts : List HostAct) : (s.plan acts).err = s.err := rfl
@[simp] theorem State.plan_rxq (acts : List HostAct) : (s.plan acts).rxq = s.rxq := rfl
@[simp] theorem State.plan_txq (acts : List HostAct) : (s.plan acts).txq = s.txq := rfl
@[simp] theorem State.plan_tmrDelay (acts : List HostAct) : (s.plan acts).tmrDelay = s.tmrDelay := rfl
@[simp] theorem State.plan_tmrRto (acts : List HostAct) : (s.plan acts).tmrRto = s.tmrRto := rfl
@[simp] theorem State.plan_tmrGap (acts : List HostAct) : (s.plan acts).tmrGap = s.tmrGap := rfl
@[simp] theorem State.plan_calmem (acts : List HostAct) : (s.plan acts).calmem = s.calmem := rfl
@[simp] theorem State.plan_actMem (acts : List HostAct) : (s.plan acts).actMem = s.actMem := rfl
@[simp] theorem State.plan_resp (acts : List HostAct) : (s.plan acts).resp = s.resp := rfl
@[simp] theorem State.plan_log (acts : List HostAct) : (s.plan acts).log = s.log := rfl
@[simp] theorem State.plan_wire (acts : List HostAct) : (s.plan acts).wire = s.wire := rfl
@[simp] theorem State.plan_faults (acts : List HostAct) : (s.plan acts).faults = s.faults := rfl
@[simp] theorem State.plan_rqWindow (acts : List HostAct) : (s.plan acts).rqWindow = s.rqWindow := rfl
@[simp] theorem State.plan_lineClean (acts : List HostAct) : (s.plan acts).lineClean = s.lineClean := rfl
@[simp] theorem State.plan_env (acts : List HostAct) : (s.plan acts).env = s.env := rfl
@[simp] theorem State.plan_draws (acts : List HostAct) : (s.plan acts).draws = s.draws := rfl
@[simp] theorem State.plan_inbox (acts : List HostAct) : (s.plan acts).inbox = s.inbox := rfl
@[simp] theorem State.plan_host (acts : List HostAct) :
    (s.plan acts).host = { s.host with plan := acts ++ s.host.plan } := rfl

@[simp] theorem State.dropPlan_cfg : (s.dropPlan).cfg = s.cfg := rfl
@[simp] theorem State.dropPlan_caloffYaw : (s.dropPlan).caloffYaw = s.caloffYaw := rfl
@[simp] theorem State.dropPlan_caloffPitch : (s.dropPlan).caloffPitch = s.caloffPitch := rfl
@[simp] theorem State.dropPlan_txbuf : (s.dropPlan).txbuf = s.txbuf := rfl
@[simp] theorem State.dropPlan_txlen : (s.dropPlan).txlen = s.txlen := rfl
@[simp] theorem State.dropPlan_rxbuf : (s.dropPlan).rxbuf = s.rxbuf := rfl
@[simp] theorem State.dropPlan_rxlen : (s.dropPlan).rxlen = s.rxlen := rfl
@[simp] theorem State.dropPlan_seq : (s.dropPlan).seq = s.seq := rfl
@[simp] theorem State.dropPlan_seqTrace : (s.dropPlan).seqTrace = s.seqTrace := rfl
@[simp] theorem State.dropPlan_busOpen : (s.dropPlan).busOpen = s.busOpen := rfl
@[simp] theorem State.dropPlan_rspShort : (s.dropPlan).rspShort = s.rspShort := rfl
@[simp] theorem State.dropPlan_posValid : (s.dropPlan).posValid = s.posValid := rfl
@[simp] theorem State.dropPlan_calStatus : (s.dropPlan).calStatus = s.calStatus := rfl
@[simp] theorem State.dropPlan_saveFail : (s.dropPlan).saveFail = s.saveFail := rfl
@[simp] theorem State.dropPlan_calFail : (s.dropPlan).calFail = s.calFail := rfl
@[simp] theorem State.dropPlan_err : (s.dropPlan).err = s.err := rfl
@[simp] theorem State.dropPlan_rxq : (s.dropPlan).rxq = s.rxq := rfl
@[simp] theorem State.dropPlan_txq : (s.dropPlan).txq = s.txq := rfl
@[simp] theorem State.dropPlan_tmrDelay : (s.dropPlan).tmrDelay = s.tmrDelay := rfl
@[simp] theorem State.dropPlan_tmrRto : (s.dropPlan).tmrRto = s.tmrRto := rfl
@[simp] theorem State.dropPlan_tmrGap : (s.dropPlan).tmrGap = s.tmrGap := rfl
@[simp] theorem State.dropPlan_calmem : (s.dropPlan).calmem = s.calmem := rfl
@[simp] theorem State.dropPlan_actMem : (s.dropPlan).actMem = s.actMem := rfl
@[simp] theorem State.dropPlan_resp : (s.dropPlan).resp = s.resp := rfl
@[simp] theorem State.dropPlan_log : (s.dropPlan).log = s.log := rfl
@[simp] theorem State.dropPlan_wire : (s.dropPlan).wire = s.wire := rfl
@[simp] theorem State.dropPlan_faults : (s.dropPlan).faults = s.faults := rfl
@[simp] theorem State.dropPlan_rqWindow : (s.dropPlan).rqWindow = s.rqWindow := rfl
@[simp] theorem State.dropPlan_lineClean : (s.dropPlan).lineClean = s.lineClean := rfl
@[simp] theorem State.dropPlan_env : (s.dropPlan).env = s.env := rfl
@[simp] theorem State.dropPlan_draws : (s.dropPlan).draws = s.draws := rfl
@[simp] theorem State.dropPlan_inbox : (s.dropPlan).inbox = s.inbox := rfl
@[simp] theorem State.dropPlan_host : (s.dropPlan).host = { s.host with plan := [] } := rfl

/-- The `STATUS` view depends on eight fields only (R48). -/
theorem State.statusWord_congr (t : State) (h1 : t.busOpen = s.busOpen) (h2 : t.seq = s.seq)
    (h3 : t.rspShort = s.rspShort) (h4 : t.posValid = s.posValid) (h5 : t.calStatus = s.calStatus)
    (h6 : t.saveFail = s.saveFail) (h7 : t.calFail = s.calFail) (h8 : t.err = s.err) :
    t.statusWord = s.statusWord := by
  simp only [State.statusWord, h1, h2, h3, h4, h5, h6, h7, h8]

end Sys2Proof.Machine
end

