-- ==== Sys2Proof/Laws/Ops.lean ====
section
/-! SUPPORT. What each shared operation can do, said once: when it succeeds or fails, what it then leaves, and
which fields it never touches. -/

namespace Sys2Proof.Machine

/-! ## Refusal of bus-using operations -/

theorem State.needBus_open (s : State) (f : State → State) (h : s.busOpen = true) : s.needBus f = f s := by
  simp [State.needBus, h]

theorem State.needBus_closed (s : State) (f : State → State) (h : s.busOpen = false) :
    s.needBus f = s.refuse .busNotOpen := by
  simp [State.needBus, h]

/-! ## Rules of use -/

/-- When the gap has passed and no request awaits its read, the check of a write finds nothing. -/
theorem State.checkGap_spaced (s : State) (hg : s.tmrGap.atLeast params.tCmdGap = true) (hw : s.rqWindow = false) :
    s.checkGap = s := by
  simp [State.checkGap, hg, hw]

/-- The two parts of a spaced line. -/
theorem State.lineSpaced_iff (s : State) :
    s.lineSpaced = true ↔ s.tmrGap.atLeast params.tCmdGap = true ∧ s.rqWindow = false := by
  simp [State.lineSpaced]

/-- The faults that the check of a write adds. -/
theorem State.checkGap_faults (s : State) :
    s.checkGap.faults = s.faults ++ (if s.tmrGap.atLeast params.tCmdGap = true then [] else [.gapViolation .spacing]) ++
      (if s.rqWindow = true then [.gapViolation .window] else []) := by
  unfold State.checkGap
  by_cases h1 : s.tmrGap.atLeast params.tCmdGap = true <;> by_cases h2 : s.rqWindow = true <;>
    simp [h1, h2, State.addFault]

/-- The check touches the fault record and what is known of the actuators, nothing else. -/
theorem State.checkGap_frame (s : State) :
    s.checkGap = { s with faults := s.checkGap.faults, actMem := s.checkGap.actMem,
                          lineClean := s.checkGap.lineClean } := by
  unfold State.checkGap
  split <;> split <;> rfl

/-- Either the check finds nothing, or it records a fault and nothing is known of the actuators any more. -/
theorem State.checkGap_cases (s : State) :
    (s.checkGap = s ∧ s.tmrGap.atLeast params.tCmdGap = true ∧ s.rqWindow = false) ∨
      (s.checkGap.faults ≠ [] ∧ s.checkGap.actMem = [] ∧ s.checkGap.lineClean = false) := by
  unfold State.checkGap
  by_cases h1 : s.tmrGap.atLeast params.tCmdGap = true <;> by_cases h2 : s.rqWindow = true <;> simp_all

/-! ## The actuators -/

theorem State.actuate_frame (s : State) (bs : List Byte) :
    s.actuate bs = { s with actMem := (s.actuate bs).actMem, lineClean := (s.actuate bs).lineClean } := by
  unfold State.actuate
  split
  · split <;> rfl
  · rename_i h
    have : s.lineClean = false := by simpa using h
    simp

/-- Everything a whole frame can do to the actuator space. -/
theorem actuatorEffect_cases (settled : Bool) (bs : List Byte) (m m' : Memory)
    (h : actuatorEffect settled bs m = some m') :
    (∃ id v, (v = params.dataFree ∨ v = params.dataNormal) ∧ m' = m.write (regAddr id params.addrTorqueMode) v) ∨
      (∃ id, m' = m.erase (regAddr id params.addrTorqueMode)) ∨
      (∃ id : Byte, m' = (((m.erase (regAddr id params.addrTgtPos)).erase (regAddr id 0x2B)).erase
        (regAddr id params.addrCurPos)).erase (regAddr id 0x2D)) ∨ m' = m := by
  unfold actuatorEffect at h
  split at h
  · cases h
  · split at h
    · split at h
      · exact .inl ⟨_, _, .inl rfl, (Option.some.inj h).symm⟩
      · split at h
        · exact .inl ⟨_, _, .inr rfl, (Option.some.inj h).symm⟩
        · exact .inr (.inl ⟨_, (Option.some.inj h).symm⟩)
      · exact .inr (.inr (.inl ⟨_, (Option.some.inj h).symm⟩))
      · exact .inr (.inr (.inr (Option.some.inj h).symm))
      · cases h
    · cases h

theorem actuatorEffect_wf (settled : Bool) (bs : List Byte) (m m' : Memory)
    (h : actuatorEffect settled bs m = some m') (hm : m.wf) : m'.wf := by
  rcases actuatorEffect_cases settled bs m m' h with ⟨_, _, _, rfl⟩ | ⟨_, rfl⟩ | ⟨_, rfl⟩ | rfl
  · exact Memory.write_wf _ _ _ (regAddr_lt _ _) hm
  · exact Memory.erase_wf _ _ hm
  · exact Memory.erase_wf _ _ (Memory.erase_wf _ _ (Memory.erase_wf _ _ (Memory.erase_wf _ _ hm)))
  · exact hm

theorem State.actuate_wf (s : State) (bs : List Byte) (h : Memory.wf s.actMem) :
    Memory.wf (s.actuate bs).actMem := by
  unfold State.actuate
  split
  · split
    · exact actuatorEffect_wf _ _ _ _ ‹_› h
    · exact ⟨List.Pairwise.nil, by simp⟩
  · exact ⟨List.Pairwise.nil, by simp⟩

/-! ## BusWrite -/

/-- An empty write writes nothing and makes no draw; the rules of use are tested all the same. -/
theorem State.busWrite_nil (s : State) : s.busWrite [] = (true, s.checkGap) := by
  simp [State.busWrite]

theorem State.checkGap_nextWrite (s : State) : s.checkGap.nextWrite = s.nextWrite := by
  rw [State.checkGap_frame]; rfl

/-- A write that succeeds transmits everything. -/
theorem State.busWrite_ok (s : State) (bs : List Byte) (hb : bs ≠ []) (h : s.nextWrite = .ok) :
    s.busWrite bs = (true, State.transmit { s.checkGap.popWrite with txq := s.checkGap.txq ++ bs }) := by
  simp only [State.busWrite, hb, if_false, State.checkGap_nextWrite, h]

/-- A write that fails puts a proper initial part of its bytes on the line. -/
theorem State.busWrite_fail (s : State) (bs : List Byte) (k : Nat) (hb : bs ≠ []) (h : s.nextWrite = .fail k) :
    s.busWrite bs = (false, s.checkGap.popWrite.cutWrite (bs.take (min k (bs.length - 1)))) := by
  simp only [State.busWrite, hb, if_false, State.checkGap_nextWrite, h]

/-- The fields a write can touch. -/
theorem State.busWrite_frame (s : State) (bs : List Byte) :
    (s.busWrite bs).2 =
      { s with txq := (s.busWrite bs).2.txq, err := (s.busWrite bs).2.err, tmrGap := (s.busWrite bs).2.tmrGap,
               actMem := (s.busWrite bs).2.actMem, wire := (s.busWrite bs).2.wire,
               faults := (s.busWrite bs).2.faults, rqWindow := (s.busWrite bs).2.rqWindow,
               lineClean := (s.busWrite bs).2.lineClean, env := (s.busWrite bs).2.env,
               draws := (s.busWrite bs).2.draws } := by
  by_cases hb : bs = []
  · subst hb; rw [State.busWrite_nil, State.checkGap_frame]
  · cases h : s.nextWrite with
    | ok =>
      rw [State.busWrite_ok s bs hb h]
      simp only [State.transmit]
      rw [State.actuate_frame, State.checkGap_frame]
      rfl
    | fail k =>
      rw [State.busWrite_fail s bs k hb h]
      simp only [State.cutWrite]
      rw [State.checkGap_frame]
      split <;> rfl

/-- What a write that succeeds leaves of the wire, the queues, the draws and `ERR`, on any line. -/
theorem State.busWrite_ok_fields (s : State) (bs : List Byte) (hb : bs ≠ []) (h : s.nextWrite = .ok) :
    (s.busWrite bs).2.wire = s.wire ++ [.wrote (s.txq ++ bs)] ∧ (s.busWrite bs).2.rxq = s.rxq ∧
      (s.busWrite bs).2.env = { s.env with writes := s.env.writes.tail } ∧
      (s.busWrite bs).2.draws = s.draws + 1 ∧ (s.busWrite bs).2.err = s.err ∧
      (s.busWrite bs).2.tmrGap = .since 0 := by
  rw [State.busWrite_ok s bs hb h]
  simp only [State.transmit]
  rw [State.actuate_frame, State.checkGap_frame]
  exact ⟨rfl, rfl, rfl, rfl, rfl, trivial⟩

/-- Only a failed write touches `ERR`. -/
theorem State.busWrite_err (s : State) (bs : List Byte) :
    (s.busWrite bs).2.err = if (s.busWrite bs).1 then s.err else .busWriteFailure := by
  by_cases hb : bs = []
  · subst hb; rw [State.busWrite_nil, State.checkGap_frame]; rfl
  · cases h : s.nextWrite with
    | ok =>
      rw [State.busWrite_ok s bs hb h]
      simp only [State.transmit]
      rw [State.actuate_frame, State.checkGap_frame]
      rfl
    | fail k =>
      rw [State.busWrite_fail s bs k hb h]
      simp only [State.cutWrite]
      split <;> rfl

/-- After a write `TXQ` is empty, if it was before. -/
theorem State.busWrite_txq (s : State) (bs : List Byte) (h : s.txq = []) : (s.busWrite bs).2.txq = [] := by
  by_cases hb : bs = []
  · subst hb; rw [State.busWrite_nil, State.checkGap_frame]; exact h
  · cases hw : s.nextWrite with
    | ok => rw [State.busWrite_ok s bs hb hw]; rfl
    | fail k =>
      rw [State.busWrite_fail s bs k hb hw]
      simp only [State.cutWrite]
      split <;> rfl

/-- The fault record after a write, whatever its draw: what the check of the state before it adds (log entry 45). -/
theorem State.busWrite_faults (s : State) (bs : List Byte) : (s.busWrite bs).2.faults = s.checkGap.faults := by
  by_cases hb : bs = []
  · subst hb; rw [State.busWrite_nil]
  · cases hw : s.nextWrite with
    | ok =>
      rw [State.busWrite_ok s bs hb hw]
      simp only [State.transmit]
      rw [State.actuate_frame]
      rfl
    | fail k =>
      rw [State.busWrite_fail s bs k hb hw]
      simp only [State.cutWrite]
      split <;> rfl

/-- A line that is not clean stays so, and nothing is known of the actuators after a write on it or after one that
breaks a rule of use. -/
theorem State.busWrite_dirty (s : State) (bs : List Byte) (hm : s.checkGap.actMem = [])
    (hc : s.checkGap.lineClean = false) :
    (s.busWrite bs).2.actMem = [] ∧ (s.busWrite bs).2.lineClean = false := by
  by_cases hb : bs = []
  · subst hb; rw [State.busWrite_nil]; exact ⟨hm, hc⟩
  · cases hw : s.nextWrite with
    | ok =>
      rw [State.busWrite_ok s bs hb hw]
      simp [State.transmit, State.actuate, State.popWrite, hc]
    | fail k =>
      rw [State.busWrite_fail s bs k hb hw]
      simp only [State.cutWrite]
      split
      · exact ⟨hm, hc⟩
      · exact ⟨rfl, rfl⟩

/-- What a write with the gap passed, no window open and an empty `TXQ` leaves when it succeeds. -/
theorem State.busWrite_spaced (s : State) (bs : List Byte) (hb : bs ≠ [])
    (hg : s.tmrGap.atLeast params.tCmdGap = true) (hwin : s.rqWindow = false) (hq : s.txq = []) (hw : s.nextWrite = .ok) :
    s.busWrite bs =
      (true, { s with env := { s.env with writes := s.env.writes.tail }, draws := s.draws + 1,
                      wire := s.wire ++ [.wrote bs], tmrGap := .since 0,
                      rqWindow := carriesRequest bs, actMem := (s.actuate bs).actMem,
                      lineClean := (s.actuate bs).lineClean }) := by
  have hmem : (State.actuate bs { s.popWrite with txq := s.txq ++ bs }).actMem = (s.actuate bs).actMem := by
    simp only [State.actuate, State.popWrite]
    by_cases hl : s.lineClean = true <;> simp only [hl, if_true, if_false, Bool.false_eq_true]
    cases actuatorEffect (s.tmrGap.atLeast params.tTorque) bs s.actMem <;> rfl
  have hcl : (State.actuate bs { s.popWrite with txq := s.txq ++ bs }).lineClean = (s.actuate bs).lineClean := by
    simp only [State.actuate, State.popWrite]
    by_cases hl : s.lineClean = true <;> simp only [hl, if_true, if_false, Bool.false_eq_true]
    cases actuatorEffect (s.tmrGap.atLeast params.tTorque) bs s.actMem <;> rfl
  rw [State.busWrite_ok s bs hb hw, State.checkGap_spaced s hg hwin]
  rw [hq, List.nil_append] at hmem hcl ⊢
  simp only [State.transmit]
  rw [State.actuate_frame, hmem, hcl]
  simp [hwin, hq, State.popWrite]

/-! ## BusRead -/

/-- The wait of a read: the bytes are there, or arrivals were drawn. -/
theorem State.awaitBytes_rxq (s : State) (n : Nat) :
    (s.awaitBytes n).rxq = if s.rxq.length < n then s.rxq ++ s.nextArrivals else s.rxq := by
  unfold State.awaitBytes
  by_cases h : s.rxq.length < n
  · simp only [h, if_true]
    split <;> rfl
  · simp [h]

theorem State.awaitBytes_frame (s : State) (n : Nat) :
    s.awaitBytes n =
      { s with rxq := (s.awaitBytes n).rxq, tmrRto := (s.awaitBytes n).tmrRto, tmrGap := (s.awaitBytes n).tmrGap,
               env := (s.awaitBytes n).env, draws := (s.awaitBytes n).draws } := by
  unfold State.awaitBytes
  by_cases h : s.rxq.length < n
  · simp only [h, if_true]
    split <;> rfl
  · simp only [h, if_false]

/-- What a read returns: the first bytes of what is there, together with the arrivals if it had to wait. -/
theorem State.busRead_result (s : State) (n : Nat) :
    (s.busRead n).1 = (if s.rxq.length < n then s.rxq ++ s.nextArrivals else s.rxq).take n := by
  simp [State.busRead, State.awaitBytes_rxq]

/-- What a read leaves in `RXQ`. -/
theorem State.busRead_rxq (s : State) (n : Nat) :
    (s.busRead n).2.rxq = (if s.rxq.length < n then s.rxq ++ s.nextArrivals else s.rxq).drop n := by
  simp [State.busRead, State.awaitBytes_rxq]

/-- The fields a read can touch. -/
theorem State.busRead_frame (s : State) (n : Nat) :
    (s.busRead n).2 =
      { s with rxq := (s.busRead n).2.rxq, tmrRto := .stopped, tmrGap := (s.busRead n).2.tmrGap,
               wire := s.wire ++ [.readBack n (s.busRead n).1], rqWindow := false,
               env := (s.busRead n).2.env, draws := (s.busRead n).2.draws } := by
  simp only [State.busRead]
  rw [State.awaitBytes_frame]

/-! ## The calibration store -/

/-- What a read of the store gives: nothing when there is none, else its content or a failure, as drawn. -/
theorem State.memRead_cases (s : State) :
    (s.calmem = none ∧ s.memRead = .absent) ∨
      ∃ m, s.calmem = some m ∧
        ((s.nextRead = .whole ∧ s.memRead = .content m) ∨ (s.nextRead = .failed ∧ s.memRead = .failed)) := by
  unfold State.memRead
  cases hm : s.calmem with
  | none => exact .inl ⟨rfl, rfl⟩
  | some m =>
    cases hr : s.nextRead with
    | whole => exact .inr ⟨m, rfl, .inl ⟨rfl, rfl⟩⟩
    | failed => exact .inr ⟨m, rfl, .inr ⟨rfl, rfl⟩⟩

/-- Everything a load that ends with the default changes. -/
theorem State.loadDefault_eq (st : CalStatus) (c : Cause) (e : LogEvent) (s : State) :
    s.loadDefault st c e =
      State.complete (.degPair 0 0) { s with caloffYaw := 0, caloffPitch := 0, calStatus := st, err := c,
                                             log := s.log ++ [⟨e.level, e⟩] } := rfl

/-- A save that succeeds or fails. -/
theorem State.memWrite_cases (s : State) (b : List Byte) :
    (s.nextSave = .ok ∧ (s.memWrite b).1 = true ∧ (s.memWrite b).2.calmem = some b) ∨
      ∃ left, s.nextSave = .fail left ∧ (s.memWrite b).1 = false ∧ (s.memWrite b).2.calmem = left := by
  unfold State.memWrite
  cases h : s.nextSave with
  | ok => exact .inl ⟨rfl, rfl, rfl⟩
  | fail left => exact .inr ⟨left, rfl, rfl, rfl⟩

/-- The fields a save can touch. -/
theorem State.memWrite_frame (s : State) (b : List Byte) :
    (s.memWrite b).2 =
      { s with calmem := (s.memWrite b).2.calmem, env := { s.env with saves := s.env.saves.tail },
               draws := s.draws + 1 } := by
  unfold State.memWrite
  cases h : s.nextSave <;> rfl

/-! ## Endings -/

/-- A frame written at the end of an operation: completed, or raised to the issuer. -/
theorem State.writeAndEnd_cases (s : State) (f : List Byte) :
    ((s.busWrite f).1 = true ∧ s.writeAndEnd f = (s.busWrite f).2.complete .none) ∨
      ((s.busWrite f).1 = false ∧ s.writeAndEnd f = (s.busWrite f).2.raise .busWriteFailure) := by
  unfold State.writeAndEnd
  rcases h : s.busWrite f with ⟨_ | _, t⟩
  · exact .inr ⟨rfl, rfl⟩
  · exact .inl ⟨rfl, rfl⟩

/-! ## The step -/

/-- No action of the host comes before the events: no plan is under way, or the first of them comes at once. -/
theorem State.hostTurn_none (s : State)
    (h : s.host.plan = [] ∨ ∃ e rest, s.inbox = e :: rest ∧ e.immediate = true) : s.hostTurn = none := by
  unfold State.hostTurn
  rcases h with h | ⟨e, rest, h, hi⟩
  · simp [h]
  · cases s.host.plan <;> simp [h, hi]

/-- The plan's next action comes before an event that waits. -/
theorem State.hostTurn_waits (s : State) (a : HostAct) (p : List HostAct) (hp : s.host.plan = a :: p)
    (h : ∀ e ∈ s.inbox.head?, e.waits = true) :
    s.hostTurn = some (a, { s with host := { s.host with plan := p } }) := by
  unfold State.hostTurn
  cases hi : s.inbox with
  | nil => simp [hp]
  | cons e rest =>
    have := h e (by simp [hi])
    simp only [Event.waits, Bool.and_eq_true, Bool.not_eq_true', bne_iff_ne, ne_eq] at this
    simp [hp, this.1, this.2]

/-- `proceed` is used up by the plan's next action. -/
theorem State.hostTurn_proceed (s : State) (a : HostAct) (p : List HostAct) (rest : List Event)
    (hp : s.host.plan = a :: p) (hi : s.inbox = .proceed :: rest) :
    s.hostTurn = some (a, { s with host := { s.host with plan := p }, inbox := rest }) := by
  simp [State.hostTurn, hp, hi, Event.immediate]

/-- A step runs the event at the front of the inbox, on the state without it, unless the host's plan goes first. -/
theorem step_event (s : State) (e : Event) (rest : List Event) (hi : s.seq = .idle) (he : s.inbox = e :: rest)
    (h : s.host.plan = [] ∨ e.immediate = true) : step s = runEvent e { s with inbox := rest } := by
  have := s.hostTurn_none (h.imp id fun h => ⟨e, rest, he, h⟩)
  simp only [step, hi, if_true, State.runNext, this, he]

/-- A step takes the plan's next action while the host has not ended and nothing comes in between. -/
theorem step_act (s t : State) (a : HostAct) (hi : s.seq = .idle) (h : s.hostTurn = some (a, t))
    (he : t.host.ended = false) : step s = runAct a t := by
  simp [step, hi, State.runNext, h, he]

/-- With nothing to come a step changes nothing. -/
theorem step_nothing (s : State) (hi : s.seq = .idle) (hp : s.host.plan = []) (he : s.inbox = []) :
    step s = .next s := by
  simp [step, hi, State.runNext, s.hostTurn_none (.inl hp), he]

/-- Every meaning ends in a next state. -/
theorem exec_next (i : Instr) (s : State) : ∃ t, exec i s = .next t := by
  cases i <;> exact ⟨_, rfl⟩

end Sys2Proof.Machine
end

