-- ==== Sys2Proof/Laws/Frames.lean ====
section
/-! SUPPORT. The frames: checksums as sums of naturals, the built frames in the closed form of R109, which layout each
decodes to, and what each does to the actuators. -/

namespace Sys2Proof.Machine

/-- The checksum of a byte string is the sum of its values modulo 256 (R13, R131). -/
theorem sum8_toNat (l : List Byte) : (sum8 l).toNat = (l.map BitVec.toNat).sum % 256 := by
  have aux : ∀ (l : List Byte) (a : Byte),
      (l.foldl (fun acc b => acc + b) a).toNat = (a.toNat + (l.map BitVec.toNat).sum) % 256 := by
    intro l
    induction l with
    | nil => intro a; simp; omega
    | cons b t ih => intro a; simp [ih]; omega
  simpa [sum8] using aux l 0

theorem frameTq_free (id : Byte) : frameTq id .free = lineFree id := by
  simp only [frameTq, withSum, lineFree, sum8, dataOfMode, params, List.foldl, List.cons_append, List.nil_append,
    List.cons.injEq, and_true, true_and]
  bv_omega

theorem frameTq_normal (id : Byte) : frameTq id .normal = lineNormal id := by
  simp only [frameTq, withSum, lineNormal, sum8, dataOfMode, params, List.foldl, List.cons_append, List.nil_append,
    List.cons.injEq, and_true, true_and]
  bv_omega

theorem frameSp_closed (id : Byte) (raw : Half) : frameSp id raw = linePosition id raw := by
  have h1 : lo8 raw = raw.extractLsb' 0 8 := by unfold lo8; ext i; simp
  have h2 : hi8 raw = raw.extractLsb' 8 8 := by unfold hi8; ext i; simp
  simp only [frameSp, withSum, linePosition, sum8, put16le, h1, h2, List.foldl, List.cons_append, List.nil_append,
    List.cons.injEq, and_true, true_and]
  bv_omega

theorem frameRd_closed (id : Byte) : frameRd id = lineRequest id := by
  simp only [frameRd, withSum, lineRequest, sum8, params, List.foldl, List.cons_append, List.nil_append,
    List.cons.injEq, and_true, true_and]
  bv_omega

theorem decodeOut_free (id sum : Byte) :
    decodeOut [0x08, 0x04, 0x00, id, 0x02, 0x28, 0x01, sum] = .ok (.tqFree id sum) := by
  simp [decodeOut, FrameRow.fits, rowTqFree]

theorem decodeOut_normal (id sum : Byte) :
    decodeOut [0x08, 0x04, 0x00, id, 0x00, 0x28, 0x01, sum] = .ok (.tqNormal id sum) := by
  simp [decodeOut, FrameRow.fits, rowTqFree, rowTqNormal]

theorem decodeOut_sp (id lo hi sum : Byte) :
    decodeOut [0x09, 0x06, 0x00, id, lo, hi, 0x00, 0x00, sum] = .ok (.sp id lo hi sum) := by
  simp [decodeOut, FrameRow.fits, rowTqFree, rowTqNormal, rowSp]

theorem decodeOut_rq (id sum : Byte) :
    decodeOut [0x07, 0x03, 0x00, id, 0x2C, 0x02, sum] = .ok (.rq id sum) := by
  simp [decodeOut, FrameRow.fits, rowTqFree, rowTqNormal, rowSp, rowRq]

theorem lineFree_wf (id : Byte) : (Instr.tqFree id (0x37 + id)).wf = true := by
  simp only [Instr.wf, sum8, List.foldl, beq_iff_eq]; bv_omega

theorem lineNormal_wf (id : Byte) : (Instr.tqNormal id (0x35 + id)).wf = true := by
  simp only [Instr.wf, sum8, List.foldl, beq_iff_eq]; bv_omega

theorem linePosition_wf (id lo hi : Byte) : (Instr.sp id lo hi (0x0F + id + lo + hi)).wf = true := by
  simp only [Instr.wf, sum8, List.foldl, beq_iff_eq]; bv_omega

theorem lineRequest_wf (id : Byte) : (Instr.rq id (0x38 + id)).wf = true := by
  simp only [Instr.wf, sum8, List.foldl, beq_iff_eq]; bv_omega

/-- The Free frame makes the torque mode of its actuator known (R72, R273). -/
theorem actuatorEffect_free (b : Bool) (id : Byte) (m : Memory) :
    actuatorEffect b (lineFree id) m = some (m.write (regAddr id params.addrTorqueMode) params.dataFree) := by
  simp only [actuatorEffect, lineFree, decodeOut_free, lineFree_wf, if_true]

/-- The Normal frame needs Free and the wait (R302). -/
theorem actuatorEffect_normal (b : Bool) (id : Byte) (m : Memory) :
    actuatorEffect b (lineNormal id) m =
      some (if b && m.read (regAddr id params.addrTorqueMode) == some params.dataFree then
          m.write (regAddr id params.addrTorqueMode) params.dataNormal
        else m.erase (regAddr id params.addrTorqueMode)) := by
  simp only [actuatorEffect, lineNormal, decodeOut_normal, lineNormal_wf, if_true]
  split <;> simp_all

/-- A position frame makes target and position unknown (R82). -/
theorem actuatorEffect_position (b : Bool) (id lo hi : Byte) (m : Memory) :
    actuatorEffect b [0x09, 0x06, 0x00, id, lo, hi, 0x00, 0x00, 0x0F + id + lo + hi] m =
      some ((((m.erase (regAddr id params.addrTgtPos)).erase (regAddr id 0x2B)).erase
        (regAddr id params.addrCurPos)).erase (regAddr id 0x2D)) := by
  simp only [actuatorEffect, decodeOut_sp, linePosition_wf, if_true]

/-- A read request changes nothing (R82). -/
theorem actuatorEffect_request (b : Bool) (id : Byte) (m : Memory) :
    actuatorEffect b (lineRequest id) m = some m := by
  simp only [actuatorEffect, lineRequest, decodeOut_rq, lineRequest_wf, if_true]

/-! ## Requests on the line -/

theorem rowRq_fits_iff (l : List Byte) :
    rowRq.fits l = true ↔ ∃ id sum : Byte, l = [0x07, 0x03, 0x00, id, 0x2C, 0x02, sum] := by
  constructor
  · intro h
    match l, h with
    | [a, b, c, d, e, f, g], h =>
      simp only [FrameRow.fits, rowRq, List.length_cons, List.length_nil, List.zipWith, Bool.and_eq_true, beq_iff_eq,
        List.cons.injEq, and_true] at h
      refine ⟨d, g, ?_⟩
      have w : ∀ x : Byte, x &&& 0xFF = x := by decide
      simp only [w] at h
      obtain ⟨-, rfl, rfl, rfl, -, rfl, rfl, -⟩ := h
      rfl
  · rintro ⟨id, sum, rfl⟩
    simp [FrameRow.fits, rowRq]

/-- Bytes carry a request exactly when its seven bytes stand somewhere in them, whatever the checksum. -/
theorem carriesRequest_iff (bs : List Byte) : carriesRequest bs = true ↔
    ∃ (l r : List Byte) (id sum : Byte), bs = l ++ [0x07, 0x03, 0x00, id, 0x2C, 0x02, sum] ++ r := by
  induction bs with
  | nil => simp [carriesRequest]
  | cons b t ih =>
    simp only [carriesRequest, Bool.or_eq_true, rowRq_fits_iff, ih]
    constructor
    · rintro (⟨id, sum, h⟩ | ⟨l, r, id, sum, rfl⟩)
      · refine ⟨[], (b :: t).drop 7, id, sum, ?_⟩
        rw [List.nil_append, ← h]
        exact (List.take_append_drop 7 _).symm
      · exact ⟨b :: l, r, id, sum, by simp⟩
    · rintro ⟨l, r, id, sum, h⟩
      cases l with
      | nil => exact .inl ⟨id, sum, by rw [h]; rfl⟩
      | cons c l =>
        simp only [List.cons_append, List.cons.injEq] at h
        exact .inr ⟨l, r, id, sum, by simpa using h.2⟩

/-- A part of bytes that carry no request carries none. -/
theorem carriesRequest_take (bs : List Byte) (k : Nat) (h : carriesRequest bs = false) :
    carriesRequest (bs.take k) = false := by
  by_contra hc
  obtain ⟨l, r, id, sum, he⟩ := (carriesRequest_iff _).1 (by simpa using hc)
  have : carriesRequest bs = true := (carriesRequest_iff _).2
    ⟨l, r ++ bs.drop k, id, sum, by rw [← List.append_assoc, ← he, List.take_append_drop]⟩
  simp [this] at h

theorem carriesRequest_free (id sum : Byte) :
    carriesRequest [0x08, 0x04, 0x00, id, 0x02, 0x28, 0x01, sum] = false := by
  simp [carriesRequest, FrameRow.fits, rowRq]

theorem carriesRequest_normal (id sum : Byte) :
    carriesRequest [0x08, 0x04, 0x00, id, 0x00, 0x28, 0x01, sum] = false := by
  simp [carriesRequest, FrameRow.fits, rowRq]

theorem carriesRequest_sp (id lo hi sum : Byte) :
    carriesRequest [0x09, 0x06, 0x00, id, lo, hi, 0x00, 0x00, sum] = false := by
  simp [carriesRequest, FrameRow.fits, rowRq]

theorem carriesRequest_rq (id sum : Byte) : carriesRequest [0x07, 0x03, 0x00, id, 0x2C, 0x02, sum] = true :=
  (carriesRequest_iff _).2 ⟨[], [], id, sum, rfl⟩

/-- A cut request is none. -/
theorem carriesRequest_short (bs : List Byte) (h : bs.length < 7) : carriesRequest bs = false := by
  by_contra hc
  obtain ⟨l, r, id, sum, rfl⟩ := (carriesRequest_iff _).1 (by simpa using hc)
  simp at h
  omega

/-- On a clean line a whole frame has exactly its effect. -/
theorem State.actuate_clean (s : State) (bs : List Byte) (m : Memory) (h : s.lineClean = true)
    (he : actuatorEffect (s.tmrGap.atLeast params.tTorque) bs s.actMem = some m) :
    (s.actuate bs).actMem = m ∧ (s.actuate bs).lineClean = true := by
  simp [State.actuate, h, he]

/-- On a line that is not clean nothing is known of the actuators after any write. -/
theorem State.actuate_dirty (s : State) (bs : List Byte) (h : s.lineClean = false) :
    (s.actuate bs).actMem = [] ∧ (s.actuate bs).lineClean = false := by
  simp [State.actuate, h]

/-- What a position frame leaves readable. -/
theorem Memory.read_erase_moved (m : Memory) (id : Byte) (a : Nat) :
    Memory.read ((((m.erase (regAddr id params.addrTgtPos)).erase (regAddr id 0x2B)).erase
      (regAddr id params.addrCurPos)).erase (regAddr id 0x2D)) a = if a ∈ moved id then none else m.read a := by
  have step : ∀ (m : Memory) (x : Nat), Memory.read (m.erase x) a = if a = x then none else m.read a := by
    intro m x
    by_cases h : a = x
    · subst h; simp [Memory.read_erase_same]
    · simp [h, Memory.read_erase_other m x a h]
  simp only [step, moved, List.mem_cons, List.not_mem_nil, or_false]
  grind

end Sys2Proof.Machine
end

