-- ==== Sys2Proof/Laws/Calibration.lean ====
section
/-! SUPPORT. What the wire history says of the torque mode (spec/70_reset_and_hazards.md R302, R306), said once: the fold
over its events finds Normal exactly when torque is on as Safety.lean writes it. -/

namespace Sys2Proof.Machine

/-- Events that neither command the actuator's torque nor leave open what it heard. -/
def WireEvent.passes (id : Byte) (e : WireEvent) : Prop :=
  e.upsets = false ∧ e ≠ .wrote (lineFree id) ∧ e ≠ .wrote (lineNormal id)

theorem lineNormal_ne_lineFree (id : Byte) : lineNormal id ≠ lineFree id := by simp [lineFree, lineNormal]

theorem wholeFrame_free (id : Byte) : wholeFrame (lineFree id) = true := by
  simp only [wholeFrame, lineFree, decodeOut_free, lineFree_wf]

theorem wholeFrame_normal (id : Byte) : wholeFrame (lineNormal id) = true := by
  simp only [wholeFrame, lineNormal, decodeOut_normal, lineNormal_wf]

/-- The Free frame begins anew. -/
theorem modeAfter_free (id : Byte) (m : Commanded) : modeAfter id m (.wrote (lineFree id)) = .free 0 := by
  simp [modeAfter, frameTq_free]

/-- The Normal frame counts after Free and the wait. -/
theorem modeAfter_normal (id : Byte) (m : Commanded) :
    modeAfter id m (.wrote (lineNormal id)) =
      match m with
      | .free us => if 100000 ≤ us then .normal else .unknown
      | _ => .unknown := by
  simp only [modeAfter, frameTq_free, frameTq_normal, lineNormal_ne_lineFree, if_false, if_true]
  cases m <;> rfl

/-- Any other event keeps the mode, and its wait counts. -/
theorem modeAfter_passes (id : Byte) (m : Commanded) (e : WireEvent) (h : e.passes id) :
    modeAfter id m e =
      match m with
      | .free us => .free (us + e.waitTime)
      | m => m := by
  obtain ⟨h1, h2, h3⟩ := h
  cases e with
  | wrote bs =>
    have hf : bs ≠ lineFree id := fun h => h2 (by rw [h])
    have hn : bs ≠ lineNormal id := fun h => h3 (by rw [h])
    have hw : wholeFrame bs = true := by simpa [WireEvent.upsets] using h1
    cases m <;> simp [modeAfter, frameTq_free, frameTq_normal, hf, hn, hw, WireEvent.waitTime]
  | cut part =>
    have : part = [] := by simpa [WireEvent.upsets] using h1
    subst this
    cases m <;> rfl
  | _ => cases m <;> rfl

/-- An event that leaves open what the actuators heard leaves the mode unknown. -/
theorem modeAfter_upsets (id : Byte) (m : Commanded) (e : WireEvent) (h : e.upsets = true) :
    modeAfter id m e = .unknown := by
  cases e with
  | wrote bs =>
    have hw : wholeFrame bs = false := by simpa [WireEvent.upsets] using h
    have hf : bs ≠ lineFree id := fun h => by simp [h, wholeFrame_free] at hw
    have hn : bs ≠ lineNormal id := fun h => by simp [h, wholeFrame_normal] at hw
    simp [modeAfter, frameTq_free, frameTq_normal, hf, hn, hw]
  | cut part =>
    cases part with
    | nil => simp [WireEvent.upsets] at h
    | cons => rfl
  | _ => simp [WireEvent.upsets] at h

theorem foldl_passes (id : Byte) (l : List WireEvent) (m : Commanded) (h : ∀ e ∈ l, e.passes id) :
    l.foldl (modeAfter id) m =
      match m with
      | .free us => .free (us + (l.map WireEvent.waitTime).sum)
      | m => m := by
  induction l generalizing m with
  | nil => cases m <;> simp
  | cons e l ih =>
    rw [List.foldl_cons, modeAfter_passes id m e (h e (by simp)), ih _ fun x hx => h x (by simp [hx])]
    cases m <;> simp [Nat.add_assoc]

theorem commandedMode_cases (id : Byte) (w : List WireEvent) :
    (∀ us, commandedMode id w = .free us → ∃ l m : List WireEvent, w = l ++ .wrote (lineFree id) :: m ∧
      (m.map WireEvent.waitTime).sum = us ∧ ∀ e ∈ m, e.passes id) ∧
    (commandedMode id w = .normal → TorqueOn id w) := by
  induction w using List.reverseRecOn with
  | nil => simp [commandedMode]
  | append_singleton w e ih =>
    have hc : commandedMode id (w ++ [e]) = modeAfter id (commandedMode id w) e := by simp [commandedMode]
    by_cases hf : e = .wrote (lineFree id)
    · subst hf
      rw [hc, modeAfter_free]
      exact ⟨fun us h => ⟨w, [], rfl, by simpa using h, by simp⟩, by simp⟩
    by_cases hn : e = .wrote (lineNormal id)
    · subst hn
      rw [hc, modeAfter_normal]
      cases hm : commandedMode id w with
      | free us =>
        obtain ⟨l, m, rfl, hs, hp⟩ := ih.1 us hm
        by_cases h : 100000 ≤ us
        · simp only [h, if_true]
          exact ⟨by simp, fun _ => ⟨l, m, [], by simp, hs ▸ h, by simpa [WireEvent.passes] using hp⟩⟩
        · simp [h]
      | _ => simp
    by_cases hu : e.upsets = true
    · rw [hc, modeAfter_upsets id _ e hu]
      simp
    have he : e.passes id := ⟨by simpa using hu, hf, hn⟩
    rw [hc, modeAfter_passes id _ e he]
    cases hm : commandedMode id w with
    | unknown => simp
    | free us =>
      obtain ⟨l, m, rfl, hs, hp⟩ := ih.1 us hm
      refine ⟨fun v hv => ⟨l, m ++ [e], by simp, ?_, ?_⟩, by simp⟩
      · simpa [hs] using hv
      · intro x hx
        rcases List.mem_append.1 hx with hx | hx
        · exact hp x hx
        · rw [List.mem_singleton.1 hx]; exact he
    | normal =>
      obtain ⟨l, m, r, rfl, hs, hp⟩ := ih.2 hm
      refine ⟨by simp, fun _ => ⟨l, m, r ++ [e], by simp, hs, ?_⟩⟩
      intro x hx
      rw [← List.append_assoc] at hx
      rcases List.mem_append.1 hx with hx | hx
      · exact hp x hx
      · rw [List.mem_singleton.1 hx]; exact he

/-- The fold over the wire history finds Normal exactly when torque is on. -/
theorem commandedMode_normal_iff (id : Byte) (w : List WireEvent) : commandedMode id w = .normal ↔ TorqueOn id w := by
  refine ⟨(commandedMode_cases id w).2, ?_⟩
  rintro ⟨l, m, r, rfl, hs, hp⟩
  have hm := foldl_passes id m (.free 0) fun e he => hp e (by simp [he])
  have hr := foldl_passes id r .normal fun e he => hp e (by simp [he])
  simp only [commandedMode, List.foldl_append, List.foldl_cons, modeAfter_free, hm, modeAfter_normal]
  simp [hs, hr]

/-- Torque is on for both axes exactly when the history says so of both. -/
theorem State.torqueAllOn_iff (s : State) :
    s.torqueAllOn = true ↔ TorqueOn s.cfg.yaw.id s.wire ∧ TorqueOn s.cfg.pitch.id s.wire := by
  simp [State.torqueAllOn, commandedMode_normal_iff]

/-- A Free frame with no Normal frame to the same actuator since: torque is not on. -/
theorem not_torqueOn_of_free (id : Byte) (l r : List WireEvent) (h : .wrote (lineNormal id) ∉ r) :
    ¬TorqueOn id (l ++ .wrote (lineFree id) :: r) := by
  rw [← commandedMode_normal_iff]
  have key : ∀ (r : List WireEvent) (m : Commanded), m ≠ .normal → .wrote (lineNormal id) ∉ r →
      r.foldl (modeAfter id) m ≠ .normal := by
    intro r
    induction r with
    | nil => intro m hm _; exact hm
    | cons e r ih =>
      intro m hm hr
      refine ih _ ?_ fun hc => hr (by simp [hc])
      by_cases hf : e = .wrote (lineFree id)
      · subst hf; simp [modeAfter_free]
      by_cases hu : e.upsets = true
      · simp [modeAfter_upsets id m e hu]
      · rw [modeAfter_passes id m e ⟨by simpa using hu, hf, fun hc => hr (by simp [hc])⟩]
        cases m <;> simp_all
  simpa [commandedMode, modeAfter_free] using key r (.free 0) (by simp) h

end Sys2Proof.Machine
end

