-- ==== Sys2Proof/Laws/Exchange.lean ====
section
/-! SUPPORT. What the exchange of `read_position` can do, said once (spec/42_servo_commands.md R176): what it answers, what
it puts on the wire and which draws it uses, when its request fails and when it is written. -/

namespace Sys2Proof.Machine

theorem responseAnswer_take (b : List Byte) : responseAnswer (b.take 12) = responseAnswer b := by
  have h4 : (b.take 12).getD 4 0 = b.getD 4 0 := by simp [List.getD_eq_getElem?_getD]
  have h5 : (b.take 12).getD 5 0 = b.getD 5 0 := by simp [List.getD_eq_getElem?_getD]
  simp only [responseAnswer, responseDegrees, h4, h5, List.length_take]
  congr 1
  simp only [eq_iff_iff]
  omega

/-- `DEC_RD` and the conversion answer what the response carries (R136, R194). -/
theorem decodeResponse_answer (b : List Byte) : (decodeResponse b).map rawToDeg = responseAnswer b := by
  simp only [decodeResponse, responseAnswer, responseDegrees, params, get16le, le16]
  by_cases h : b.length < 7
  · simp [h, show ¬7 ≤ b.length by omega]
  · simp [h, show 7 ≤ b.length by omega, rawToDeg, Rat.mkRat_eq_div]

/-- The state in which `RDPOS` writes its request. -/
def State.beforeRequest (id : Byte) (s : State) : State :=
  (((((s.enter .rdFlush).busFlush).enter .rdEnc).setTx (frameRd id)).enter .rdWrite)

/-- The request fails: no answer, the cut bytes on the wire, code 8 and a warning. -/
theorem readPosition_fail (id : Byte) (s : State) (k : Nat) (h : s.nextWrite = .fail k) :
    (readPosition id s).1 = none ∧
      (readPosition id s).2.wire = s.wire ++ [.flushed, .cut ((lineRequest id).take (min k 6))] ∧
      (readPosition id s).2.env = { s.env with writes := s.env.writes.tail } ∧
      (readPosition id s).2.err = .busWriteFailure ∧
      (readPosition id s).2.log = s.log ++ [⟨.warning, .writeFailed id⟩] := by
  have hw : (s.beforeRequest id).nextWrite = .fail k := h
  have hb : frameRd id ≠ [] := by simp [frameRd, withSum]
  have hl : (frameRd id).length - 1 = 6 := rfl
  have he := State.busWrite_fail _ _ k hb hw
  have hr : readPosition id s =
      (none, ((State.absorb .busWriteFailure
        { (((s.beforeRequest id).checkGap.popWrite).cutWrite ((frameRd id).take (min k 6))).setRx [] with
            rspShort := true, posValid := false }).emit (.writeFailed id))) := by
    unfold readPosition
    simp only [State.beforeRequest] at he ⊢
    rw [he]
    rfl
  rw [hr, State.checkGap_frame, frameRd_closed]
  unfold State.cutWrite
  refine ⟨rfl, ?_, ?_, ?_, ?_⟩ <;> split <;> simp_all [State.beforeRequest, State.busFlush, State.enter, State.setTx, State.popWrite, State.setRx, State.absorb, State.emit, LogEvent.level]

/-- The request is written: flush, request, wait and read on the wire, and the answer is that of the bytes that arrive; a
short response leaves code 2 and a warning. -/
theorem readPosition_ok (id : Byte) (s : State) (h : s.nextWrite = .ok) :
    (readPosition id s).1 = responseAnswer s.popWrite.nextArrivals ∧
      (readPosition id s).2.wire = s.wire ++ [.flushed, .wrote (lineRequest id), .waited 50000,
        .readBack 12 (s.popWrite.nextArrivals.take 12)] ∧
      (readPosition id s).2.env = { s.env with writes := s.env.writes.tail, arrivals := s.env.arrivals.tail } ∧
      (s.popWrite.nextArrivals.length < 7 → (readPosition id s).2.err = .shortResponse) ∧
      (7 ≤ s.popWrite.nextArrivals.length → (readPosition id s).2.err = s.err) := by
  have hw : (s.beforeRequest id).nextWrite = .ok := h
  have hb : frameRd id ≠ [] := by simp [frameRd, withSum]
  have he : (s.beforeRequest id).busWrite (frameRd id) = (true, ((s.beforeRequest id).busWrite (frameRd id)).2) := by
    rw [State.busWrite_ok _ _ hb hw]
  obtain ⟨f1, f2, f3, f4, f5, -⟩ := State.busWrite_ok_fields _ _ hb hw
  obtain ⟨u, hu⟩ : ∃ u, u = ((s.beforeRequest id).busWrite (frameRd id)).2 := ⟨_, rfl⟩
  rw [← hu] at he f1 f2 f3 f4 f5
  obtain ⟨s4, hs4⟩ : ∃ s4, s4 = ((u.enter .rdWait).delay params.tPostWrite).enter .rdRead := ⟨_, rfl⟩
  have hrxq : s4.rxq = [] := by rw [hs4]; exact f2
  have henv : s4.env = { s.env with writes := s.env.writes.tail } := by rw [hs4]; exact f3
  have hdraws : s4.draws = s.draws + 1 := by rw [hs4]; exact f4
  have herr : s4.err = s.err := by rw [hs4]; exact f5
  have harr : s4.nextArrivals = s.popWrite.nextArrivals := by
    simp only [State.nextArrivals, henv, hdraws, State.popWrite]
  have hwire : s4.wire = s.wire ++ [.flushed, .wrote (lineRequest id), .waited 50000] := by
    have : s4.wire = u.wire ++ [.waited 50000] := by rw [hs4]; rfl
    rw [this, f1, ← frameRd_closed]
    simp [State.beforeRequest, State.busFlush, State.enter, State.setTx]
  have hread : (s4.busRead 12).1 = s.popWrite.nextArrivals.take 12 := by
    rw [State.busRead_result, hrxq, harr]; simp
  have hrenv : (s4.busRead 12).2.env = { s.env with writes := s.env.writes.tail, arrivals := s.env.arrivals.tail } := by
    simp only [State.busRead, State.awaitBytes, hrxq]
    simp only [List.length_nil, Nat.zero_lt_succ, if_true]
    split <;> simp [State.receive, henv]
  have hr : readPosition id s = (match decodeResponse (s4.busRead 12).1 with
      | some v => (some (rawToDeg v), { ((s4.busRead 12).2.setRx (s4.busRead 12).1).enter .rdDecode with
          rspShort := false, posValid := true })
      | none => (none, (State.absorb .shortResponse { ((s4.busRead 12).2.setRx (s4.busRead 12).1).enter .rdDecode with
          rspShort := true, posValid := false }).emit (.shortResponse id (s4.busRead 12).1.length))) := by
    unfold readPosition
    simp only [State.beforeRequest] at he hs4 ⊢
    rw [he, hs4]
    rfl
  have hans := decodeResponse_answer (s4.busRead 12).1
  rw [hread, responseAnswer_take] at hans
  have hbw : (s4.busRead 12).2.wire = s4.wire ++ [.readBack 12 (s4.busRead 12).1] := by rw [State.busRead_frame]
  have hbe : (s4.busRead 12).2.err = s4.err := by rw [State.busRead_frame]
  rw [hr, hread]
  rw [hread] at hbw
  cases hd : decodeResponse (s.popWrite.nextArrivals.take 12) with
  | none =>
    rw [hd] at hans
    have hs : s.popWrite.nextArrivals.length < 7 := by
      by_contra hc
      simp [responseAnswer, hc] at hans
    refine ⟨hans, ?_, ?_, fun _ => rfl, fun h7 => absurd hs (by omega)⟩
    · simp [State.emit, State.absorb, State.enter, State.setRx, hbw, hwire]
    · simp [State.emit, State.absorb, State.enter, State.setRx, hrenv]
  | some v =>
    rw [hd] at hans
    have hs : ¬s.popWrite.nextArrivals.length < 7 := by
      intro hc
      simp [responseAnswer, hc] at hans
    refine ⟨hans, ?_, ?_, fun h7 => absurd h7 hs, fun _ => ?_⟩
    · simp [State.enter, State.setRx, hbw, hwire]
    · simp [State.enter, State.setRx, hrenv]
    · simp [State.enter, State.setRx, hbe, herr]

/-- Every exchange has one of its two forms. -/
theorem readPosition_exchanged (id : Byte) (s : State) :
    ∃ w, (readPosition id s).2.wire = s.wire ++ w ∧ exchanged id w (readPosition id s).1 := by
  cases h : s.nextWrite with
  | ok =>
    obtain ⟨h1, h2, -⟩ := readPosition_ok id s h
    exact ⟨_, h2, .inr ⟨_, by simp, by rw [h1, responseAnswer_take], rfl⟩⟩
  | fail k =>
    obtain ⟨h1, h2, -⟩ := readPosition_fail id s k h
    exact ⟨_, h2, .inl ⟨_, List.take_prefix _ _, by simp [lineRequest], rfl, h1⟩⟩

end Sys2Proof.Machine
end

