-- ==== Sys2Proof/Laws/Host.lean ====
section
/-! SUPPORT. What an instruction never touches: the host's state, the events still to come and the configuration (R5, R31,
R268). -/

namespace Sys2Proof.Machine

/-- The block's surroundings are the same in both states. -/
def State.SameOutside (s t : State) : Prop := t.host = s.host ∧ t.inbox = s.inbox ∧ t.cfg = s.cfg

theorem State.SameOutside.trans {s t u : State} (h : s.SameOutside t) (k : t.SameOutside u) : s.SameOutside u :=
  ⟨k.1.trans h.1, k.2.1.trans h.2.1, k.2.2.trans h.2.2⟩

/-- The end of an operation is inside the block. -/
theorem State.SameOutside.deliver {s t : State} (h : s.SameOutside t) (e : Cause) (r : Result) :
    s.SameOutside (t.deliver e r) := h

theorem State.busWrite_outside (s : State) (bs : List Byte) : s.SameOutside (s.busWrite bs).2 := by
  rw [State.busWrite_frame]; exact ⟨rfl, rfl, rfl⟩

theorem State.writeAndEnd_outside (s : State) (f : List Byte) : s.SameOutside (s.writeAndEnd f) := by
  rcases s.writeAndEnd_cases f with ⟨_, h⟩ | ⟨_, h⟩ <;> rw [h] <;>
    exact (s.busWrite_outside f).trans ⟨rfl, rfl, rfl⟩

/-- A frame at the end of an operation is inside the block too. -/
theorem State.SameOutside.write {s t : State} (h : s.SameOutside t) (f : List Byte) :
    s.SameOutside (t.writeAndEnd f) := h.trans (t.writeAndEnd_outside f)

theorem State.busRead_outside (s : State) (n : Nat) : s.SameOutside (s.busRead n).2 := by
  rw [State.busRead_frame]; exact ⟨rfl, rfl, rfl⟩

theorem State.arrive_outside (s : State) (bs : List Byte) : s.SameOutside (s.arrive bs) := by
  unfold State.arrive; split <;> exact ⟨rfl, rfl, rfl⟩

theorem State.popRead_outside (s : State) : s.SameOutside s.popRead := by
  unfold State.popRead; split <;> exact ⟨rfl, rfl, rfl⟩

theorem State.needBus_outside (s : State) (f : State → State) (h : s.SameOutside (f s)) :
    s.SameOutside (s.needBus f) := by
  unfold State.needBus; split
  · exact h
  · exact ⟨rfl, rfl, rfl⟩

theorem readPosition_outside (id : Byte) (s : State) : s.SameOutside (readPosition id s).2 := by
  have h := (s.beforeRequest id).busWrite_outside (frameRd id)
  simp only [State.beforeRequest] at h
  simp only [readPosition]
  split
  · rename_i t he
    rw [he] at h
    exact h
  · rename_i t he
    rw [he] at h
    have hr := State.busRead_outside (((t.enter .rdWait).delay params.tPostWrite).enter .rdRead) params.readLen
    have h2 : s.SameOutside _ := h.trans (u := (State.busRead params.readLen _).2) hr
    generalize State.busRead params.readLen (((t.enter .rdWait).delay params.tPostWrite).enter .rdRead) = r at h2 ⊢
    split <;> exact h2

theorem calSave_outside (y p : Deg) (s : State) : s.SameOutside (calSave y p s) := by
  unfold calSave State.memWrite
  cases State.nextSave ((s.enter .csFormat).enter .csWrite) <;> exact ⟨rfl, rfl, rfl⟩

theorem opOpen_outside (s : State) : s.SameOutside (opOpen s) := by
  unfold opOpen
  split
  · exact ⟨rfl, rfl, rfl⟩
  · dsimp only
    split <;> exact ⟨rfl, rfl, rfl⟩

theorem opClose_outside (s : State) : s.SameOutside (opClose s) := by
  unfold opClose; split <;> exact ⟨rfl, rfl, rfl⟩

theorem opWrite_outside (bytes : List Byte) (s : State) : s.SameOutside (opWrite bytes s) :=
  s.needBus_outside _ (State.SameOutside.write (t := s.accept.enter .writing) ⟨rfl, rfl, rfl⟩ _)

theorem opRead_outside (n : Byte) (s : State) : s.SameOutside (opRead n s) :=
  s.needBus_outside _ ((State.busRead_outside (s.accept.enter .reading) n.toNat).trans ⟨rfl, rfl, rfl⟩)

theorem opTqOn_outside (id : Byte) (s : State) : s.SameOutside (opTqOn id s) := by
  refine s.needBus_outside _ ?_
  have h1 := State.busWrite_outside (((s.accept.enter .tqEncFree).setTx (frameTq id .free)).enter .tqWrFree)
    (frameTq id .free)
  dsimp only
  split
  · rename_i u he
    rw [he] at h1
    exact h1
  · rename_i u he
    rw [he] at h1
    have h2 : s.SameOutside u := h1
    exact State.SameOutside.write (t := ((((u.enter .tqWait).delay params.tTorque).enter
      .tqEncNormal).setTx (frameTq id .normal)).enter .tqWrNormal) h2 _

theorem opTqOff_outside (id : Byte) (s : State) : s.SameOutside (opTqOff id s) :=
  s.needBus_outside _ (State.SameOutside.write
    (t := ((s.accept.enter .tqEncFree).setTx (frameTq id .free)).enter .tqWrFree) ⟨rfl, rfl, rfl⟩ _)

theorem opSetpos_outside (id : Byte) (d : Deg) (s : State) : s.SameOutside (opSetpos id d s) := by
  refine s.needBus_outside _ ?_
  dsimp only
  refine State.SameOutside.write ?_ _
  simp [State.SameOutside]

theorem opRdpos_outside (id : Byte) (s : State) : s.SameOutside (opRdpos id s) := by
  refine s.needBus_outside _ ?_
  dsimp only
  have h1 := readPosition_outside id s.accept
  generalize readPosition id s.accept = a at h1 ⊢
  exact h1.deliver _ _

theorem opCalLd_outside (s : State) : s.SameOutside (opCalLd s) := by
  have h1 := State.popRead_outside (s.accept.enter .clRead)
  unfold opCalLd
  dsimp only
  generalize State.popRead (s.accept.enter .clRead) = u at h1 ⊢
  split
  · exact h1
  · exact h1
  · split <;> exact h1

theorem opCalSv_outside (y p : Deg) (s : State) : s.SameOutside (opCalSv y p s) := by
  unfold opCalSv
  split
  · have h1 := calSave_outside y p s.accept
    generalize calSave y p s.accept = u at h1 ⊢
    exact h1.deliver _ _
  · exact ⟨rfl, rfl, rfl⟩

theorem opCalRun_outside (s : State) : s.SameOutside (opCalRun s) := by
  refine s.needBus_outside _ ?_
  have h1 := readPosition_outside s.cfg.yaw.id (s.accept.enter .crYaw)
  dsimp only
  generalize readPosition s.cfg.yaw.id (s.accept.enter .crYaw) = a at h1 ⊢
  have h2 := readPosition_outside s.cfg.pitch.id ((a.2.delay params.tCmdGap).enter .crPitch)
  generalize readPosition s.cfg.pitch.id ((a.2.delay params.tCmdGap).enter .crPitch) = b at h2 ⊢
  have h3 : s.SameOutside b.2 := State.SameOutside.trans (t := a.2) h1 h2
  split
  · rename_i y p _ _
    have h4 := calSave_outside y p { (b.2.enter .crCommit).setCaloff y p with calFail := false }
    generalize calSave y p { (b.2.enter .crCommit).setCaloff y p with calFail := false } = c at h4 ⊢
    exact (State.SameOutside.trans (t := b.2) h3 h4).deliver _ _
  · exact h3

/-- No instruction touches the host, the events still to come or the configuration. -/
theorem exec_outside (i : Instr) (s t : State) (h : exec i s = .next t) : s.SameOutside t := by
  cases i <;> cases h
  case rs => exact s.arrive_outside _
  case bOpen => exact opOpen_outside s
  case bClose => exact opClose_outside s
  case bFlush => exact s.needBus_outside _ ⟨rfl, rfl, rfl⟩
  case bRead n => exact opRead_outside n s
  case tqOn id => exact opTqOn_outside id s
  case tqOff id => exact opTqOff_outside id s
  case setpos id d => exact opSetpos_outside id d s
  case rdpos id => exact opRdpos_outside id s
  case axMap => unfold opAxMap; split <;> exact ⟨rfl, rfl, rfl⟩
  case calApply => unfold opCalApply; split <;> exact ⟨rfl, rfl, rfl⟩
  case calLd => exact opCalLd_outside s
  case calSv y p => exact opCalSv_outside y p s
  case calRun => exact opCalRun_outside s
  case encTq => unfold opEncTq; split <;> exact ⟨rfl, rfl, rfl⟩
  case decRd => unfold opDecRd; split <;> exact ⟨rfl, rfl, rfl⟩
  case d2r | r2d | csum | encSp | encRd => exact ⟨rfl, rfl, rfl⟩
  all_goals exact opWrite_outside _ s

end Sys2Proof.Machine
end

