-- ==== Sys2Proof/Tests/Slice0.lean ====
section
/-! SUPPORT. The model's own tests: refused ill-formed terms, words written out from spec/30_encoding.md, one step per
instruction with the results of spec/95_test_vectors.md, and a witness for the hypotheses of each statement. -/

namespace Sys2Proof.Tests

/- One test at a time: the kernel evaluations otherwise wait on each other in threads of their own. -/
set_option Elab.async false

open Machine

/-! ## Well-formedness: one ill-formed term per check -/

theorem test_wf_tqFree_sum : ¬WellFormed (.tqFree 0x00 0x38) := by decide
theorem test_wf_tqNormal_sum : ¬WellFormed (.tqNormal 0x00 0x37) := by decide
theorem test_wf_sp_sum : ¬WellFormed (.sp 0x00 0x40 0x1F 0x64) := by decide
theorem test_wf_rq_sum : ¬WellFormed (.rq 0x01 0x38) := by decide
theorem test_wf_rs_padding : ¬WellFormed (.rs 0 0 0 0 0 0 0 [1, 2, 3, 4, 5, 6]) := by decide
theorem test_wf_bWrite_length : ¬WellFormed (.bWrite (List.replicate 256 0)) := by decide +kernel
theorem test_wf_axMap_sel : ¬WellFormed (.axMap 2 0) := by decide
theorem test_wf_calApply_sel : ¬WellFormed (.calApply 0xFF 0) := by decide
theorem test_wf_calSv_third : ¬WellFormed (.calSv (1 / 3) 0) := by decide +kernel
theorem test_wf_calSv_second : ¬WellFormed (.calSv 0 (1 / 7)) := by decide +kernel
theorem test_wf_csum_length : ¬WellFormed (.csum (List.replicate 256 0)) := by decide +kernel
theorem test_wf_encTq_mode : ¬WellFormed (.encTq 0 0x01) := by decide
theorem test_wf_decRd_length : ¬WellFormed (.decRd (List.replicate 256 0)) := by decide +kernel

/-! ## Decoding of words written out from R102 to R105 and R115 -/

theorem test_decode_tqFree :
    decode (.outFrame [0b00001000, 0b00000100, 0b00000000, 0xC9, 0b00000010, 0b00101000, 0b00000001, 0x00]) =
      .ok (.tqFree 0xC9 0x00) := by decide +kernel
theorem test_decode_tqNormal :
    decode (.outFrame [0b00001000, 0b00000100, 0b00000000, 0xFF, 0b00000000, 0b00101000, 0b00000001, 0x34]) =
      .ok (.tqNormal 0xFF 0x34) := by decide +kernel
theorem test_decode_sp :
    decode (.outFrame [0b00001001, 0b00000110, 0b00000000, 0x01, 0x2E, 0xFB, 0b00000000, 0b00000000, 0x39]) =
      .ok (.sp 0x01 0x2E 0xFB 0x39) := by decide +kernel
theorem test_decode_rq :
    decode (.outFrame [0b00000111, 0b00000011, 0b00000000, 0xC8, 0b00101100, 0b00000010, 0x00]) =
      .ok (.rq 0xC8 0x00) := by decide +kernel
theorem test_decode_rs :
    decode (.inFrame [0x07, 0x00, 0x00, 0x00, 0xB0, 0x04, 0xBB, 0x01, 0x02, 0x03, 0x04, 0x05]) =
      .ok (.rs 0x07 0x00 0x00 0x00 0xB0 0x04 0xBB [0x01, 0x02, 0x03, 0x04, 0x05]) := by decide +kernel
theorem test_decode_bOpen : decode (.request { op := 0b00000001 }) = .ok .bOpen := rfl
theorem test_decode_bClose : decode (.request { op := 0b00000010 }) = .ok .bClose := rfl
theorem test_decode_bFlush : decode (.request { op := 0b00000011 }) = .ok .bFlush := rfl
theorem test_decode_bWrite : decode (.request { op := 0b00000100, bytes := [0xAA] }) = .ok (.bWrite [0xAA]) := rfl
theorem test_decode_bRead : decode (.request { op := 0b00000101, n := 12 }) = .ok (.bRead 12) := rfl
theorem test_decode_tqOn : decode (.request { op := 0b00010000, id := 1 }) = .ok (.tqOn 1) := rfl
theorem test_decode_tqOff : decode (.request { op := 0b00010001, id := 1 }) = .ok (.tqOff 1) := rfl
theorem test_decode_setpos :
    decode (.request { op := 0b00010010, id := 1, deg := 45 }) = .ok (.setpos 1 45) := rfl
theorem test_decode_rdpos : decode (.request { op := 0b00010011, id := 1 }) = .ok (.rdpos 1) := rfl
theorem test_decode_axMap :
    decode (.request { op := 0b00100000, sel := 1, deg := -30 }) = .ok (.axMap 1 (-30)) := rfl
theorem test_decode_calApply :
    decode (.request { op := 0b00100001, sel := 1, deg := 10 }) = .ok (.calApply 1 10) := rfl
theorem test_decode_d2r : decode (.request { op := 0b00100010, deg := 7 }) = .ok (.d2r 7) := rfl
theorem test_decode_r2d : decode (.request { op := 0b00100011, raw := 0x04D2 }) = .ok (.r2d 0x04D2) := rfl
theorem test_decode_calLd : decode (.request { op := 0b00100100 }) = .ok .calLd := rfl
theorem test_decode_calSv :
    decode (.request { op := 0b00100101, deg := 12, deg2 := -5 }) = .ok (.calSv 12 (-5)) := rfl
theorem test_decode_calRun : decode (.request { op := 0b00100110 }) = .ok .calRun := rfl
theorem test_decode_csum : decode (.request { op := 0b00110000, bytes := [1] }) = .ok (.csum [1]) := rfl
theorem test_decode_encTq :
    decode (.request { op := 0b00110001, id := 1, mode := 2 }) = .ok (.encTq 1 2) := rfl
theorem test_decode_encSp :
    decode (.request { op := 0b00110010, id := 1, raw := 0x1F40 }) = .ok (.encSp 1 0x1F40) := rfl
theorem test_decode_encRd : decode (.request { op := 0b00110011, id := 1 }) = .ok (.encRd 1) := rfl
theorem test_decode_decRd : decode (.request { op := 0b00110100, bytes := [1] }) = .ok (.decRd [1]) := rfl
theorem test_decode_reserved : decode (.request { op := 0x06 }) = .error (.illegalOp 0x06) := rfl
theorem test_decode_wrong_register :
    decode (.outFrame [0x07, 0x03, 0x00, 0x01, 0x2A, 0x02, 0x37]) = .error .notAFrame := by decide +kernel
theorem test_decode_short_response : decode (.inFrame [1, 2, 3, 4, 5, 6]) = .error (.shortResponse 6) := rfl

/-! ## One step per instruction, against spec/95_test_vectors.md -/

/-- The reset state with an open channel and two writes that succeed. -/
def opened : State :=
  { State.reset with busOpen := true,
                     env := { EnvScript.empty with writes := [.ok, .ok, .ok, .ok] } }

/-- The next state of one instruction. -/
def after (i : Instr) (s : State) : Option State :=
  match exec i s with
  | .next t => some t
  | _ => none

/-- The channel open under a script of writes, arrivals and saves. -/
def scripted (ws : List WriteDraw) (rs : List (List Byte)) (ss : List SaveDraw) : State :=
  { State.reset with busOpen := true,
                     env := { EnvScript.empty with writes := ws, arrivals := rs, saves := ss } }

/-- What the response says: the error and the result. -/
def answer (i : Instr) (s : State) : Option (Cause × Result) :=
  match after i s with
  | some t => t.resp.map fun r => (r.err, r.result)
  | none => none

/-- The wire history after one instruction. -/
def wireOf (i : Instr) (s : State) : List WireEvent :=
  match after i s with
  | some t => t.wire
  | none => []

/-- The `STATUS` after one instruction. -/
def statusOf (i : Instr) (s : State) : BitVec 16 :=
  match after i s with
  | some t => t.statusWord
  | none => 0xFFFF

theorem test_csum_wraps : answer (.csum [0xFF, 0x02]) .reset = some (.none, .bytes [0x01]) := by decide +kernel
theorem test_csum_source_frame :
    answer (.csum [0x07, 0x03, 0x00, 0x01, 0x2C, 0x02]) .reset = some (.none, .bytes [0x39]) := by decide +kernel
theorem test_encTq_wraps :
    answer (.encTq 0xC9 0x02) .reset =
      some (.none, .bytes [0x08, 0x04, 0x00, 0xC9, 0x02, 0x28, 0x01, 0x00]) := by decide +kernel
theorem test_encTq_refused : answer (.encTq 0 0x03) .reset = some (.illegalOperand, .none) := by decide +kernel
theorem test_encSp_negative :
    answer (.encSp 1 (-1234)) .reset =
      some (.none, .bytes [0x09, 0x06, 0x00, 0x01, 0x2E, 0xFB, 0x00, 0x00, 0x39]) := by decide +kernel
theorem test_encSp_unclamped :
    answer (.encSp 0 9000) .reset =
      some (.none, .bytes [0x09, 0x06, 0x00, 0x00, 0x28, 0x23, 0x00, 0x00, 0x5A]) := by decide +kernel
theorem test_encRd_source :
    answer (.encRd 1) .reset = some (.none, .bytes [0x07, 0x03, 0x00, 0x01, 0x2C, 0x02, 0x39]) := by
  decide +kernel
theorem test_decRd_stray_byte :
    answer (.decRd [0xAA, 0x07, 0x00, 0x00, 0x00, 0xD2, 0x04, 0xDD]) .reset = some (.none, .raw (-11776)) := by
  decide +kernel
theorem test_decRd_six_bytes :
    answer (.decRd [0x07, 0x00, 0x00, 0x00, 0xD2, 0x04]) .reset = some (.shortResponse, .none) := by
  decide +kernel

theorem test_bOpen_ok :
    statusOf .bOpen { State.reset with env := { EnvScript.empty with opens := [true] } } = 0x0001 := by
  decide +kernel
theorem test_bOpen_fails :
    statusOf .bOpen { State.reset with env := { EnvScript.empty with opens := [false] } } = 0x0100 := by
  decide +kernel
theorem test_bClose_drops_bytes :
    (after .bClose { opened with rxq := [0xAA] }).map (fun t => (t.busOpen, t.rxq)) = some (false, []) := by
  decide +kernel
theorem test_bFlush : (after .bFlush { opened with rxq := [0xAA, 0xBB] }).map State.rxq = some [] := by
  decide +kernel
theorem test_bWrite_cut :
    wireOf (.bWrite [0x09, 0x06, 0x00, 0x01, 0x1F, 0xFF, 0x00, 0x00, 0x2E])
      (scripted [.fail 3] [] []) = [.cut [0x09, 0x06, 0x00]] := by
  decide +kernel
theorem test_bRead_two_of_three :
    (after (.bRead 2) { opened with rxq := [0x01, 0x02, 0x03] }).map State.rxq = some [0x03] := by decide +kernel
theorem test_bRead_waits :
    answer (.bRead 12) { scripted [] [[0x00, 0xD2, 0x04, 0xDD]] [] with rxq := [0x07, 0x00, 0x00] } =
      some (.none, .bytes [0x07, 0x00, 0x00, 0x00, 0xD2, 0x04, 0xDD]) := by decide +kernel

theorem test_tqOn_wire :
    wireOf (.tqOn 0) opened =
      [.wrote [0x08, 0x04, 0x00, 0x00, 0x02, 0x28, 0x01, 0x37], .waited 100000,
       .wrote [0x08, 0x04, 0x00, 0x00, 0x00, 0x28, 0x01, 0x35]] := by decide +kernel
theorem test_tqOff_wire :
    wireOf (.tqOff 1) opened = [.wrote [0x08, 0x04, 0x00, 0x01, 0x02, 0x28, 0x01, 0x38]] := by decide +kernel
theorem test_setpos_no_wrap :
    wireOf (.setpos 0 400) opened = [.wrote [0x09, 0x06, 0x00, 0x00, 0x40, 0x1F, 0x00, 0x00, 0x6E]] := by
  decide +kernel
theorem test_setpos_truncates :
    wireOf (.setpos 0 (-12345 / 1000)) opened =
      [.wrote [0x09, 0x06, 0x00, 0x00, 0x2E, 0xFB, 0x00, 0x00, 0x38]] := by decide +kernel
theorem test_rdpos_reads :
    answer (.rdpos 1) (scripted [.ok] [[0x07, 0x00, 0x00, 0x01, 0xC0, 0xE0, 0xA8]] []) =
      some (.none, .deg (-80)) := by decide +kernel
theorem test_rdpos_timeout :
    statusOf (.rdpos 0) (scripted [.ok] [[]] []) =
      0x0205 := by decide +kernel

theorem test_axMap_clamps : answer (.axMap 0 (-100)) .reset = some (.none, .deg (-80)) := by decide +kernel
theorem test_axMap_selector : answer (.axMap 2 0) .reset = some (.illegalOperand, .none) := by decide +kernel
theorem test_calApply_adds :
    answer (.calApply 0 10) { State.reset with caloffYaw := 5 / 2 } = some (.none, .deg (25 / 2)) := by
  decide +kernel
theorem test_d2r_truncates : answer (.d2r (-12345 / 1000)) .reset = some (.none, .raw (-1234)) := by decide +kernel
theorem test_d2r_unbounded : answer (.d2r 400) .reset = some (.none, .raw 40000) := by decide +kernel
theorem test_r2d_least : answer (.r2d (-32768)) .reset = some (.none, .deg (-32768 / 100)) := by decide +kernel
theorem test_calLd_loads :
    answer .calLd { State.reset with calmem := some [0x31, 0x2E, 0x35, 0x0A, 0x2D, 0x32, 0x2E, 0x32, 0x35] } =
      some (.none, .degPair (3 / 2) (-9 / 4)) := by decide +kernel
theorem test_calLd_one_line :
    (after .calLd { State.reset with calmem := some [0x31, 0x2E, 0x35, 0x0A] }).map State.calStatus =
      some .malformed := by decide +kernel
/-- A present store that the next read cannot read. -/
def unreadable : State :=
  { State.reset with calmem := some [0x33, 0x0A, 0x34, 0x0A], env := { EnvScript.empty with reads := [.failed] } }

/-- Ruling D20: a `MemRead` failure on a present store is malformed. -/
theorem test_calLd_unreadable : statusOf .calLd unreadable = 0x0430 := by decide +kernel
theorem test_calSv_text :
    (after (.calSv 12 (-11 / 2)) (scripted [] [] [.ok])).map
      State.calmem = some (some [0x31, 0x32, 0x2E, 0x30, 0x0A, 0x2D, 0x35, 0x2E, 0x35, 0x0A]) := by decide +kernel
theorem test_calSv_refused : answer (.calSv (1 / 3) 0) .reset = some (.illegalOperand, .none) := by
  decide +kernel

/-- `CAL_RUN` of program P3, with the arrivals given. -/
def calibrating (yaw pitch : List Byte) : State :=
  scripted [.ok, .ok] [yaw, pitch] [.ok]

theorem test_calRun_stores :
    (after .calRun (calibrating [0x07, 0x00, 0x00, 0x00, 0xB0, 0x04, 0xBB]
      [0x07, 0x00, 0x00, 0x01, 0xDA, 0xFD, 0xDF])).map (fun t => (t.statusWord, t.calmem)) =
      some (0x0009, some [0x31, 0x32, 0x2E, 0x30, 0x0A, 0x2D, 0x35, 0x2E, 0x35, 0x0A]) := by decide +kernel
theorem test_calRun_fails :
    (after .calRun { calibrating [0x07, 0x00, 0x00, 0x00, 0xB0, 0x04]
      [0x07, 0x00, 0x00, 0x01, 0xDA, 0xFD, 0xDF] with calStatus := .loaded }).map
      (fun t => (t.statusWord, t.calmem)) = some (0x0D99, none) := by decide +kernel

theorem test_tqFree_frame :
    (after (.tqFree 1 0x38) opened).map (fun t => t.actMem.read 0x128) = some (some 0x02) := by decide +kernel
theorem test_tqNormal_rejected :
    (after (.tqNormal 1 0x36) opened).map (fun t => t.actMem.read 0x128) = some none := by decide +kernel
theorem test_sp_frame :
    wireOf (.sp 0 0x40 0x1F 0x6E) opened = [.wrote [0x09, 0x06, 0x00, 0x00, 0x40, 0x1F, 0x00, 0x00, 0x6E]] := by
  decide +kernel
theorem test_rq_then_write :
    (after (.rq 1 0x39) opened).bind (fun t => (after (.bWrite [0x07]) t).map State.faults) =
      some [.gapViolation .spacing, .gapViolation .window] := by decide +kernel
/-- R300: a request behind another frame in one write opens the window too. -/
theorem test_rq_inside_a_write :
    (after (.bWrite [0x09, 0x06, 0x00, 0x00, 0x00, 0x00, 0x00, 0x00, 0x0F, 0x07, 0x03, 0x00, 0x01, 0x2C, 0x02, 0x39])
      opened).map State.rqWindow = some true := by decide +kernel
/-- R300: any `BusWrite` after a request with no read or flush between, an empty one too. -/
theorem test_rq_then_empty_write :
    (after (.bWrite []) { opened with rqWindow := true }).map (fun t => (t.faults, t.wire)) =
      some ([.gapViolation .window], []) := by decide +kernel
theorem test_rs_queued :
    (after (.rs 0x07 0x00 0x00 0x01 0xC0 0xE0 0xA8 []) opened).map State.rxq =
      some [0x07, 0x00, 0x00, 0x01, 0xC0, 0xE0, 0xA8] := by decide +kernel

/-! ## The step and the table words -/

theorem test_tableWord_op : decodeTableWord 8 0x13 = some (.rdpos 0) := rfl
theorem test_tableWord_frame :
    decodeTableWord 64 0x3701280200000408 = some (.tqFree 0x00 0x37) := by decide +kernel
theorem test_step_fetches :
    (match step (State.reset.withFetchWord 8 0x35) with
      | .next t => t.resp.map (fun r => r.err)
      | _ => none) = some .illegalOp := by decide +kernel

/-- R229: with the sleep the ticks start at least one period apart, at 60 Hz too; a slow tick sleeps 0. -/
theorem test_tickSleep :
    [tickSleep 50 0, tickSleep 60 0, tickSleep 60 16000, tickSleep 60 16667] = [20000, 16667, 667, 0] := by
  decide +kernel

/-- Rounding to nearest, ties away from zero and to even, and toward minus infinity (R193). -/
theorem test_rounding_modes :
    [roundRaw .nearestAway (-2469 / 2), roundRaw .nearestEven (2469 / 2), roundRaw .nearestEven (2467 / 2),
      roundRaw .towardMinusInf (-1 / 2)] = [-1235, 1234, 1234, -1] := by decide +kernel

/-- The grammar's examples (R198): blanks, an exponent, a sign, CR before LF; a word; a blank second line. -/
theorem test_parseCal_examples :
    parseCal [0x20, 0x31, 0x65, 0x31, 0x20, 0x0D, 0x0A, 0x2D, 0x2E, 0x35, 0x0D, 0x0A] = some (10, -1 / 2) ∧
      parseCal [0x61, 0x62, 0x63, 0x0A, 0x31, 0x0A] = none ∧ parseCal [] = none := by decide +kernel

/-! ## Witnesses: each statement's hypotheses, clause by clause, are met by a concrete state and operands -/

/-- An open channel with a first and a second write outcome, everything else as after reset. -/
def readyWith (ws : List WriteDraw) (rs : List (List Byte)) : State := scripted ws rs [.ok]

/-- A state whose line was not clean, with a request on the line. -/
def soiled (s : State) : State := { s with lineClean := false, rqWindow := true }

/-- A host in `Running` with these events to come. -/
def hostWith (es : List Event) : State :=
  { readyWith [.ok, .ok, .ok, .ok] [] with
      inbox := es, host := { HostState.initial with loop := .running, started := true, loopState := some (0, 0) } }

/-- A host in `Running` with one event to come. -/
def hostRunning (e : Event) : State := hostWith [e]

/-- R158, R231: bytes arrive between the two `SETPOS` of a tick, and then an exception of the host's own code comes. The
second position is not sent, the bytes are there, and the shutdown begins. -/
theorem test_arrival_and_exception_inside_a_tick :
    (match core.run 9 (hostWith (.hostTick (.sample ⟨3, 4, 0⟩) 0 :: List.replicate 6 .proceed ++
        [.present (.inFrame [0xAA]), .hostException])) with
      | .next t => some (t.rxq, t.wire, t.host.loop)
      | _ => none) =
      some ([0xAA], [.wrote [0x09, 0x06, 0x00, 0x00, 0x2C, 0x01, 0x00, 0x00, 0x3C]], .shuttingDown) := by
  decide +kernel

theorem test_witness_CsumAddsAllBytes :
    ([1, 2] : List Byte).Perm [2, 1] ∧ ([1, 2] : List Byte) = [1] ++ [2] ∧ ([1, 2] : List Byte) = [1] ++ 2 :: [] ∧
      exec (.csum ([1] ++ 2 :: [])) .reset = exec (.csum [1, 2]) .reset :=
  ⟨.swap _ _ _, rfl, rfl, rfl⟩
theorem test_witness_EncTqBuildsTorqueFrame :
    ((0x02 : Byte) = 0x02) ∧ ((0x00 : Byte) = 0x00) ∧ (0x01 : Byte) ≠ 0x02 ∧ (0x01 : Byte) ≠ 0x00 := by decide
theorem test_witness_DecRdRejectsShortStrings :
    ([] : List Byte).length < 7 ∧ ([0x07, 0, 0, 0, 0xD2, 0x04] : List Byte).length < 7 := by decide
theorem test_witness_BuiltFramesCarryTheirChecksum :
    (∃ (t : State) (w : BitVec 16) (f : List Byte), exec (.encTq 0 2) .reset = .next t ∧
      t.resp = some ⟨w, .none, .bytes f⟩) ∧
    (∃ (t : State) (w : BitVec 16) (f : List Byte), exec (.encSp 0 1) .reset = .next t ∧
      t.resp = some ⟨w, .none, .bytes f⟩) ∧
    (∃ (t : State) (w : BitVec 16) (f : List Byte), exec (.encRd 0) .reset = .next t ∧
      t.resp = some ⟨w, .none, .bytes f⟩) :=
  ⟨⟨_, _, _, rfl, rfl⟩, ⟨_, _, _, rfl, rfl⟩, ⟨_, _, _, rfl, rfl⟩⟩
theorem test_witness_PositionsSurviveTheRoundTrip : (-80 : Deg) ≤ -80 ∧ (-80 : Deg) ≤ 80 ∧ (80 : Deg) ≤ 80 := by
  decide +kernel

/-- The reset state under another rounding mode. -/
def rounding (m : RawRound) : State := { State.reset with cfg := { exampleDeployment with rawRound := m } }

theorem test_witness_D2rRoundsAsConfigured :
    (rounding .towardZero).cfg.rawRound = .towardZero ∧ (rounding .towardMinusInf).cfg.rawRound = .towardMinusInf ∧
      (rounding .nearestEven).cfg.rawRound = .nearestEven ∧ (rounding .nearestAway).cfg.rawRound = .nearestAway ∧
      (0 : Deg) ≤ 1 / 200 ∧ (-1 / 200 : Deg) ≤ 0 ∧ (12 : Deg) = ((1200 : Int) : Rat) / 100 ∧
      ∃ (t : State) (q : Int), exec (.d2r 0) .reset = .next t ∧ t.resp = some ⟨t.statusWord, .none, .raw q⟩ :=
  ⟨rfl, rfl, rfl, rfl, by decide +kernel, by decide +kernel, by decide +kernel, _, _, rfl, rfl⟩
theorem test_witness_AxMapClampsToLogicalRange :
    (((0 : Byte) = 0 ∧ Axis.yaw = .yaw) ∨ ((0 : Byte) = 1 ∧ Axis.yaw = .pitch)) ∧
      (((1 : Byte) = 0 ∧ Axis.pitch = .yaw) ∨ ((1 : Byte) = 1 ∧ Axis.pitch = .pitch)) ∧
      State.reset.cfg.yaw.min ≤ State.reset.cfg.yaw.center ∧ State.reset.cfg.yaw.center ≤ State.reset.cfg.yaw.max := by
  decide +kernel
theorem test_witness_CalApplyAddsTheOffset :
    ((0 : Byte) = 0) ∧ ((1 : Byte) = 1) ∧ State.reset.cfg.calSignYaw = .plus ∧
      ({ State.reset with cfg := { exampleDeployment with calSignYaw := .minus, calSignPitch := .minus } }
        : State).cfg.calSignYaw = .minus ∧ State.reset.caloffYaw = 0 := ⟨rfl, rfl, rfl, rfl, rfl⟩
theorem test_witness_CalLdLoadsOrDefaults :
    State.reset.memRead = .absent ∧
      ({ State.reset with calmem := some [0x33, 0x0A, 0x34, 0x0A] } : State).memRead =
        .content [0x33, 0x0A, 0x34, 0x0A] ∧
      parseCal [0x33, 0x0A, 0x34, 0x0A] = some (3, 4) ∧
      ({ State.reset with calmem := some [0x31, 0x2E, 0x35, 0x0A] } : State).memRead =
        .content [0x31, 0x2E, 0x35, 0x0A] ∧
      parseCal [0x31, 0x2E, 0x35, 0x0A] = none := by decide +kernel
theorem test_witness_CalLdSeesTheStore :
    State.reset.calmem = none ∧ ({ State.reset with calmem := some [] } : State).calmem = some [] ∧
      State.reset.env.reads = [] ∧
      ({ State.reset with env := { EnvScript.empty with reads := [.whole] } } : State).env.reads = .whole :: [] ∧
      unreadable.calmem = some [0x33, 0x0A, 0x34, 0x0A] ∧ unreadable.env.reads = .failed :: [] :=
  ⟨rfl, rfl, rfl, rfl, rfl, rfl⟩

/-- Lines of the grammar (R198): blanks with an exponent and a CR; a sign and no digit before the point; none after
it. Lines that are none: the empty one, a word, two numbers. -/
theorem test_witness_ParseCalReadsTwoLines :
    CalLine [0x20, 0x31, 0x65, 0x31, 0x20, 0x0D] 10 ∧ CalLine [0x2D, 0x2E, 0x35] (-1 / 2) ∧
      CalLine [0x09, 0x2B, 0x35, 0x2E, 0x45, 0x2D, 0x32] (1 / 20) ∧ (∀ y : Deg, ¬CalLine [] y) ∧
      (∀ y : Deg, ¬CalLine [0x61, 0x62, 0x63] y) ∧ (∀ y : Deg, ¬CalLine [0x31, 0x20, 0x32] y) ∧
      (0x0A : Byte) ∉ ([0x31, 0x32] : List Byte) ∧ (0x61 : Byte) ∈ ([0x31, 0x61] : List Byte) ++ [0x32] ∧
      (0x61 : Byte) ∉ [0x30, 0x31, 0x32, 0x33, 0x34, 0x35, 0x36, 0x37, 0x38, 0x39, 0x2B, 0x2D, 0x2E, 0x45, 0x65, 0x20,
        0x09, 0x0D] := by
  have good : ∀ (l : List Byte) (v : Deg), parseLine l = some v → CalLine l v := fun l v => (parseLine_iff l v).1
  have bad : ∀ l : List Byte, parseLine l = none → ∀ y : Deg, ¬CalLine l y := by
    intro l h y hy
    simp [(parseLine_iff l y).2 hy] at h
  exact ⟨good _ _ (by decide +kernel), good _ _ (by decide +kernel), good _ _ (by decide +kernel),
    bad _ (by decide +kernel), bad _ (by decide +kernel), bad _ (by decide +kernel), by decide, by decide, by decide⟩
theorem test_witness_FmtCalIsCanonical :
    finiteDecimal 0 = true ∧ finiteDecimal (-1 / 100) = true ∧ finiteDecimal (1 / 1024) = true := by decide +kernel
theorem test_witness_CalSvSavesItsOperands :
    finiteDecimal 12 = true ∧ finiteDecimal (-11 / 2) = true ∧ (scripted [] [] [.ok]).nextSave = .ok ∧
      (scripted [] [] [.fail (some [1])]).nextSave = .fail (some [1]) ∧ finiteDecimal (1 / 3) = false := by
  decide +kernel
theorem test_witness_SaveAndLoadAgree :
    finiteDecimal 12 = true ∧ (scripted [] [] [.ok]).nextSave = .ok ∧ (scripted [] [] [.ok]).env.reads = [] := by
  decide +kernel
theorem test_witness_CalRunSetsBothOffsetsOrNone :
    opened.busOpen = true ∧ (readyWith [.fail 0] []).nextWrite = .fail 0 ∧
      (readyWith [.ok, .fail 6] []).env.writes = .ok :: .fail 6 :: [] ∧
      (calibrating [7, 0, 0, 0, 1, 0] [7, 0, 0, 1, 1, 0, 9]).env.writes = .ok :: .ok :: [] ∧
      (calibrating [7, 0, 0, 0, 1, 0] [7, 0, 0, 1, 1, 0, 9]).env.arrivals =
        [7, 0, 0, 0, 1, 0] :: [7, 0, 0, 1, 1, 0, 9] :: [] ∧
      responseAnswer [7, 0, 0, 0, 1, 0] = none ∧ responseAnswer [7, 0, 0, 1, 1, 0, 9] = some (1 / 100) := by
  decide +kernel
theorem test_witness_CalRunCalibratesBothAxes :
    ∃ (s : State) (r1 r2 : List Byte), s.busOpen = true ∧ s.tmrGap.atLeast 1000 = true ∧ s.rqWindow = true ∧
      s.lineClean = false ∧ s.env.writes = .ok :: .ok :: [] ∧ s.env.arrivals = r1 :: r2 :: [] ∧
      s.env.saves = .ok :: [] ∧ r1.length = 7 ∧ 7 ≤ r2.length :=
  ⟨soiled (calibrating [7, 0, 0, 0, 1, 0, 8] [7, 0, 0, 1, 1, 0, 9, 0, 0, 0, 0, 0, 0]), [7, 0, 0, 0, 1, 0, 8],
    [7, 0, 0, 1, 1, 0, 9, 0, 0, 0, 0, 0, 0], rfl, rfl, rfl, rfl, rfl, rfl, rfl, rfl, by decide⟩
theorem test_witness_BOpenOpensOrFails :
    State.reset.busOpen = false ∧
      ({ State.reset with env := { EnvScript.empty with opens := [true] } } : State).nextOpen = true ∧
      ({ State.reset with env := { EnvScript.empty with opens := [false] } } : State).nextOpen = false ∧
      opened.busOpen = true := ⟨rfl, rfl, rfl, rfl⟩
theorem test_witness_BCloseCloses : opened.busOpen = true ∧ State.reset.busOpen = false := ⟨rfl, rfl⟩
theorem test_witness_BFlushEmptiesTheQueues : opened.busOpen = true := rfl
theorem test_witness_BWriteTransmitsItsBytes :
    opened.busOpen = true ∧ opened.txq = [] ∧ opened.lineSpaced = true ∧ opened.nextWrite = .ok ∧
      opened.tmrGap.atLeast 1000 = true ∧ ({ opened with tmrGap := .since 1000 } : State).tmrGap.atLeast 1000 = true ∧
      opened.rqWindow = false ∧ ({ opened with lineClean := false } : State).lineClean = false ∧
      decode (.outFrame (lineRequest 1)) = .ok (.rq 1 0x39) ∧
      ([0xAA] : List Byte) ≠ [] ∧ ∀ i : Instr, decodeOut [0xAA] = .ok i → i.wf = false :=
  ⟨rfl, rfl, rfl, rfl, rfl, rfl, rfl, rfl, rfl, by decide, fun i h => by simp [decodeOut, FrameRow.fits, rowTqFree, rowTqNormal, rowSp, rowRq] at h⟩
theorem test_witness_BWriteFailureCutsTheFrame :
    (readyWith [.fail 0] []).busOpen = true ∧ ([0xAA] : List Byte) ≠ [] ∧ (readyWith [.fail 0] []).lineSpaced = true ∧
      (readyWith [.fail 0] []).nextWrite = .fail 0 ∧ (readyWith [.fail 9] []).nextWrite = .fail 9 ∧
      0 < ([0xAA] : List Byte).length := ⟨rfl, by decide, rfl, rfl, rfl, by decide⟩
theorem test_witness_BReadTakesFromTheHead :
    opened.busOpen = true ∧ (1 : Byte).toNat ≤ ({ opened with rxq := [0xAA] } : State).rxq.length ∧
      ({ opened with rxq := [0xAA] } : State).rxq.length < (2 : Byte).toNat := by decide +kernel
theorem test_witness_ResponsesQueueWhileOpen :
    opened.busOpen = true ∧ State.reset.busOpen = false ∧ (hostRunning (.present (.inFrame [0xAA]))).seq = .idle ∧
      (hostRunning (.present (.inFrame [0xAA]))).inbox = .present (.inFrame [0xAA]) :: [] := ⟨rfl, rfl, rfl, rfl⟩
theorem test_witness_TqOnSendsFreeThenNormal :
    opened.busOpen = true ∧ opened.txq = [] ∧ opened.lineSpaced = true ∧ opened.nextWrite = .ok ∧
      opened.popWrite.nextWrite = .ok ∧ opened.lineClean = true ∧
      ({ opened with lineClean := false } : State).lineSpaced = true := ⟨rfl, rfl, rfl, rfl, rfl, rfl, rfl⟩
theorem test_witness_TqOnStopsAtTheFailedWrite :
    (readyWith [.fail 7] []).nextWrite = .fail 7 ∧ (readyWith [.ok, .fail 0] []).nextWrite = .ok ∧
      (readyWith [.ok, .fail 0] []).popWrite.nextWrite = .fail 0 ∧ (readyWith [.fail 7] []).lineSpaced = true ∧
      (readyWith [.fail 7] []).busOpen = true ∧ (readyWith [.fail 7] []).txq = [] ∧
      (readyWith [.ok, .fail 0] []).busOpen = true ∧ (readyWith [.ok, .fail 0] []).txq = [] ∧
      (readyWith [.ok, .fail 0] []).lineSpaced = true ∧ (readyWith [.fail 0] []).nextWrite = .fail 0 ∧
      (readyWith [.ok, .fail 7] []).popWrite.nextWrite = .fail 7 :=
  ⟨rfl, rfl, rfl, rfl, rfl, rfl, rfl, rfl, rfl, rfl, rfl⟩
theorem test_witness_TqOffSendsFreeOnly :
    opened.busOpen = true ∧ opened.txq = [] ∧ opened.lineSpaced = true ∧ opened.nextWrite = .ok ∧
      opened.lineClean = true ∧ ({ opened with lineClean := false } : State).lineSpaced = true :=
  ⟨rfl, rfl, rfl, rfl, rfl, rfl⟩
theorem test_witness_SetposSendsTheClampedPosition :
    opened.busOpen = true ∧ opened.txq = [] ∧ opened.lineSpaced = true ∧ opened.nextWrite = .ok ∧
      opened.lineClean = true ∧ ({ opened with lineClean := false } : State).lineSpaced = true ∧
      degToRaw opened.cfg.rawRound (-80) = -8000 ∧ degToRaw opened.cfg.rawRound 80 = 8000 ∧
      degToRaw opened.cfg.rawRound 400 = 40000 := by decide +kernel
theorem test_witness_FailedServoWritesAreRaised :
    (readyWith [.fail 3] []).busOpen = true ∧ (readyWith [.fail 3] []).lineSpaced = true ∧
      (readyWith [.fail 3] []).nextWrite = .fail 3 ∧ (readyWith [.fail 0] []).nextWrite = .fail 0 :=
  ⟨rfl, rfl, rfl, rfl⟩
theorem test_witness_RdposReadsThePosition :
    (readyWith [.ok] [[7, 0, 0, 0, 1, 0, 8]]).busOpen = true ∧
      (soiled (readyWith [.ok] [[7, 0, 0, 0, 1, 0, 8]])).tmrGap.atLeast 1000 = true ∧
      (readyWith [.ok] [[7, 0, 0, 0, 1, 0, 8]]).tmrGap.atLeast 1000 = true ∧
      (readyWith [.ok] [[7, 0, 0, 0, 1, 0, 8]]).nextWrite = .ok ∧
      (readyWith [.ok] [[7, 0, 0, 0, 1, 0, 8]]).popWrite.nextArrivals = [7, 0, 0, 0, 1, 0, 8] ∧
      (readyWith [.ok] [[7, 0, 0, 0, 1, 0]]).popWrite.nextArrivals = [7, 0, 0, 0, 1, 0] := ⟨rfl, rfl, rfl, rfl, rfl, rfl⟩
theorem test_witness_RdposNeverRaises :
    opened.busOpen = true ∧ (readyWith [.fail 6] []).busOpen = true ∧ (readyWith [.fail 6] []).nextWrite = .fail 6 :=
  ⟨rfl, rfl, rfl⟩
theorem test_witness_FreeFrameSetsTorqueMode :
    WellFormed (.tqFree 1 0x38) ∧ opened.busOpen = true ∧ opened.txq = [] ∧ opened.lineSpaced = true ∧
      opened.nextWrite = .ok ∧ opened.lineClean = true ∧
      ({ opened with lineClean := false } : State).lineSpaced = true := ⟨rfl, rfl, rfl, rfl, rfl, rfl, rfl⟩
theorem test_witness_NormalFrameNeedsFreeFirst :
    WellFormed (.tqNormal 1 0x36) ∧ opened.busOpen = true ∧ opened.txq = [] ∧ opened.lineSpaced = true ∧ opened.nextWrite = .ok ∧
      opened.tmrGap.atLeast 100000 = true ∧
      ({ opened with actMem := [(0x128, 0x02)] } : State).actMem.read (regAddr 1 params.addrTorqueMode) =
        some params.dataFree ∧
      ({ opened with tmrGap := .since 99999 } : State).tmrGap.atLeast 100000 = false ∧ opened.lineClean = true ∧
      ({ opened with lineClean := false } : State).lineSpaced = true :=
  ⟨rfl, rfl, rfl, rfl, rfl, rfl, rfl, rfl, rfl, rfl⟩
theorem test_witness_PositionFrameMovesTheMechanism :
    WellFormed (.sp 0 0x40 0x1F 0x6E) ∧ opened.busOpen = true ∧ opened.txq = [] ∧ opened.lineSpaced = true ∧
      opened.nextWrite = .ok ∧ opened.lineClean = true ∧
      ({ opened with lineClean := false } : State).lineSpaced = true := ⟨rfl, rfl, rfl, rfl, rfl, rfl, rfl⟩
theorem test_witness_ReadRequestOpensAWindow :
    WellFormed (.rq 1 0x39) ∧ opened.busOpen = true ∧ opened.txq = [] ∧ opened.lineSpaced = true ∧
      opened.nextWrite = .ok ∧ opened.lineClean = true ∧
      ({ opened with lineClean := false } : State).lineSpaced = true := ⟨rfl, rfl, rfl, rfl, rfl, rfl, rfl⟩
theorem test_witness_RefusalsChangeNothing :
    ({ op := 0x06 } : Request).op ∉ [0x01, 0x02, 0x03, 0x04, 0x05, 0x10, 0x11, 0x12, 0x13, 0x20, 0x21, 0x22, 0x23, 0x24,
        0x25, 0x26, 0x30, 0x31, 0x32, 0x33, (0x34 : Byte)] ∧ (0xFF : Byte) ≠ 0x02 ∧ (0xFF : Byte) ≠ 0x00 ∧
      (2 : Byte) ≠ 0 ∧ (2 : Byte) ≠ 1 ∧ State.reset.busOpen = false ∧ opened.busOpen = true := by decide
theorem test_witness_RefusalsChangeNothing_decimal : ∀ k : Nat, ¬((10 : Rat) ^ k * (1 / 3)).isInt := by
  intro k h
  have hk : (10 : Rat) ^ k * (1 / 3) = (((10 : Rat) ^ k * (1 / 3)).num : Rat) := Rat.eq_num_of_isInt h
  have h3 : ((10 : Rat) ^ k) = ((3 * ((10 : Rat) ^ k * (1 / 3)).num : Int) : Rat) := by
    push_cast
    rw [← hk]
    ring
  have h4 : (10 : Int) ^ k = 3 * ((10 : Rat) ^ k * (1 / 3)).num := by exact_mod_cast h3
  have h5 : (10 : Int) ^ k % 3 = 1 := by
    have := Int.emod_emod_of_dvd ((10 : Int) ^ k) (show (3 : Int) ∣ 3 from dvd_refl _)
    have h10 : ((10 : Int) ^ k) ≡ 1 ^ k [ZMOD 3] := Int.ModEq.pow k (by decide)
    simpa [Int.ModEq] using h10
  omega
theorem test_witness_GapViolationsAreRecorded :
    ({ opened with tmrGap := .since 999 } : State).tmrGap = .since 999 ∧ 999 < 1000 ∧
      ({ opened with rqWindow := true } : State).rqWindow = true ∧ opened.nextWrite = .ok ∧ opened.txq = [] ∧
      ({ readyWith [.fail 1] [] with rqWindow := true } : State).nextWrite = .fail 1 ∧
      ([0xAA] : List Byte) ≠ [] ∧ opened.busOpen = true ∧ Instr.tqOn 1 ∈ [Instr.tqOn 1, .tqOff 1, .setpos 1 4] ∧
      Instr.calRun ∈ [Instr.rdpos 1, .calRun] :=
  ⟨rfl, by decide, rfl, rfl, rfl, rfl, by decide, rfl, by decide +kernel, by decide +kernel⟩
theorem test_witness_ErrIsSticky : ∃ t : State, exec .calLd .reset = .next t ∧ t.err ≠ State.reset.err :=
  ⟨_, rfl, by decide⟩
theorem test_witness_BusOpenChangesOnlyByOpenAndClose :
    (∃ t : State, exec .bOpen { State.reset with env := { EnvScript.empty with opens := [true] } } = .next t ∧
      t.busOpen = true) ∧ ∃ t : State, exec .bClose opened = .next t ∧ t.busOpen = false :=
  ⟨⟨_, rfl, rfl⟩, ⟨_, rfl, rfl⟩⟩
theorem test_witness_ReadFlagsWrittenOnlyByReads :
    (∃ t : State, exec .bFlush opened = .next t) ∧ (∃ t : State, exec (.rdpos 0) opened = .next t) ∧
      (∃ t : State, exec .calRun opened = .next t) ∧ opened.busOpen = true := ⟨⟨_, rfl⟩, ⟨_, rfl⟩, ⟨_, rfl⟩, rfl⟩
theorem test_witness_CalibrationWrittenOnlyByItsOperations :
    (∃ t : State, exec (.d2r 0) .reset = .next t) ∧ (∃ t : State, exec .calLd .reset = .next t) ∧
      (∃ t : State, exec .calRun opened = .next t) ∧ finiteDecimal State.reset.caloffYaw = true ∧
      finiteDecimal State.reset.caloffPitch = true := ⟨⟨_, rfl⟩, ⟨_, rfl⟩, ⟨_, rfl⟩, by decide +kernel, by decide +kernel⟩
theorem test_witness_ConfigurationIsConstant : ∃ t : State, step .reset = .next t := ⟨_, rfl⟩
theorem test_witness_StatusShowsTheFlags :
    State.reset.seq = .idle ∧ ∃ t : State, exec .bFlush .reset = .next t := ⟨rfl, _, rfl⟩
theorem test_witness_StepRunsTheDecodedInstruction :
    (State.reset.withFetchWord 8 0x24).seq = .idle ∧
      (State.reset.withFetchWord 8 0x24).inbox = .present (.request { op := 0x24 }) :: [] ∧
      (State.reset.withFetchWord 8 0x24).host.plan = [] ∧ decode (.request { op := 0x24 }) = .ok .calLd ∧
      decode (.request { op := 0x31, mode := 0x01 }) = .ok (.encTq 0 0x01) ∧
      ∃ s : State, s.seq = .idle ∧ s.host.plan = .issue { op := 0x24 } .shutdown :: [] ∧ s.host.ended = false ∧
        ∀ e ∈ s.inbox.head?, e.waits = true :=
  ⟨rfl, rfl, rfl, rfl, rfl, { hostRunning (.wait 0) with
    host := { HostState.initial with plan := [.issue { op := 0x24 } .shutdown] } }, rfl, rfl, rfl, by decide⟩
theorem test_witness_DecodeOfEncodeIsTheInstruction :
    WellFormed (.sp 1 0x2E 0xFB 0x39) ∧ WellFormed (.calSv 12 (-11 / 2)) ∧ WellFormed (.axMap 1 400) := by decide +kernel
theorem test_witness_EncodeOfDecodedFrameIsTheFrame :
    decode (.outFrame [0x07, 0x03, 0x00, 0x01, 0x2C, 0x02, 0x39]) = .ok (.rq 0x01 0x39) ∧
      decode (.inFrame [7, 0, 0, 0, 1, 0, 8]) = .ok (.rs 7 0 0 0 1 0 8 []) ∧
      decode (.inFrame [7, 0, 0, 0, 1, 0, 8, 1, 2, 3, 4, 5]) = .ok (.rs 7 0 0 0 1 0 8 [1, 2, 3, 4, 5]) := by
  decide +kernel
theorem test_witness_ResetValuesAreTheTable : State.resetWith exampleDeployment none = some .reset := by
  have h : Deployment.ok exampleDeployment = true := by decide +kernel
  simp [State.resetWith, h, State.reset]
theorem test_witness_BadConfigurationsHaveNoReset :
    ({ exampleDeployment with yaw := { axisSettingB 0 with center := -81 } } : Deployment).yaw.center < -80 ∧
      exampleDeployment.pitch.min ≤ exampleDeployment.pitch.center ∧ exampleDeployment.yaw.id ≠ exampleDeployment.pitch.id ∧
      exampleDeployment.pitch.center ≤ exampleDeployment.pitch.max ∧ 0 < exampleDeployment.freq ∧
      0 ≤ exampleDeployment.deadband := by decide +kernel

/-- A state with an open channel that has the invariant and makes a step. -/
theorem test_witness_EveryStepKeepsTheInvariant : opened.Inv ∧ step opened = .next opened := by
  refine ⟨⟨rfl, rfl, rfl, rfl, rfl, .inl rfl, rfl, by decide, ?_, by decide, ?_, ?_, rfl,
    ⟨List.Pairwise.nil, fun c h => ?_⟩, fun c h => ?_, fun _ => rfl, fun h => absurd rfl h, ?_, fun _ => rfl⟩, rfl⟩
  · intro h; cases h
  · decide +kernel
  · decide +kernel
  · cases h
  · cases h
  · decide +kernel
theorem test_witness_TicksFollowTheDeadband :
    (hostWith [.hostTick (.sample ⟨0, 1 / 4, 0⟩) 0, .wait 0]).seq = .idle ∧
      (hostWith [.hostTick (.sample ⟨0, 1 / 4, 0⟩) 0, .wait 0]).inbox = .hostTick (.sample ⟨0, 1 / 4, 0⟩) 0 :: [.wait 0] ∧
      (hostRunning (.hostTick .failure 0)).inbox = .hostTick .failure 0 :: [] ∧
      (hostRunning (.hostTick .failure 0)).host.plan = [] ∧ (hostRunning (.hostTick .failure 0)).host.loop = .running ∧
      (hostRunning (.hostTick .failure 0)).host.ended = false ∧
      (hostRunning (.hostTick .failure 0)).host.stopFlag = false ∧
      (hostRunning (.hostTick .failure 0)).host.loopState = some (0, 0) ∧
      (∀ e ∈ ([.wait 0] : List Event).head?, e.waits = true) ∧
      |axisMap exampleDeployment.pitch (applyOffset .plus 0 (1 / 4)) - 0| < exampleDeployment.deadband ∧
      exampleDeployment.deadband ≤ |axisMap exampleDeployment.pitch (applyOffset .plus 0 (1 / 2)) - 0| := by
  decide +kernel
/-- R259: a write that fails in `Running` is an unhandled exception, in a pseudo-operation too. -/
theorem test_pseudo_failure_in_running :
    (match core.run 2 { hostRunning (.pseudo .recenter) with
        env := { EnvScript.empty with writes := [.fail 0] } } with
      | .next t => some (t.host.loop, t.host.error)
      | _ => none) = some (.shuttingDown, some .busWriteFailure) := by decide +kernel
theorem test_witness_StopRunsTheShutdownSequence :
    ∃ s : State, s.seq = .idle ∧ s.host.plan = [] ∧ s.inbox = .hostTick .failure 0 :: [.wait 0] ∧
      s.host.loop = .running ∧ s.host.ended = false ∧ s.host.stopFlag = true ∧ s.busOpen = true ∧ s.txq = [] ∧
      s.rqWindow = false ∧ 1000 ≤ s.cfg.tSettle ∧ s.env.writes = [.ok, .ok, .ok, .ok] ++ [] ∧
      ∀ e ∈ ([.wait 0] : List Event).head?, e.waits = true :=
  ⟨{ hostWith [.hostTick .failure 0, .wait 0] with
      host := { HostState.initial with loop := .running, stopFlag := true } },
    rfl, rfl, rfl, rfl, rfl, rfl, rfl, rfl, rfl, by decide, rfl, by decide⟩
theorem test_witness_ShutdownAlwaysCloses :
    ∃ (s : State) (late : List Event), s.seq = .idle ∧ s.inbox = .hostException :: late ∧
      (∀ e ∈ late, e.waits = false) ∧ s.host.loop = .running ∧ s.host.ended = false ∧ s.busOpen = true ∧ s.txq = [] :=
  ⟨{ hostWith [.hostException, .proceed, .present (.inFrame [0xAA]), .hostStop, .proceed, .hostException] with
      host := { HostState.initial with loop := .running, plan := [.wait 1000, .issue { op := 0x12, id := 1 } .shutdown] } },
    [.proceed, .present (.inFrame [0xAA]), .hostStop, .proceed, .hostException],
    rfl, rfl, by decide, rfl, rfl, rfl, rfl⟩
theorem test_witness_OpenFailureAbortsStartUp :
    ∃ s : State, s.seq = .idle ∧ s.host.plan = [] ∧ s.inbox = [.hostStart] ∧ s.host.loop = .initializing ∧
      s.host.started = false ∧ s.host.ended = false ∧ s.busOpen = false ∧ s.nextOpen = false :=
  ⟨{ State.reset with inbox := [.hostStart], env := { EnvScript.empty with opens := [false] } },
    rfl, rfl, rfl, rfl, rfl, rfl, rfl, rfl⟩

/-- The channel open and both axes torqued, with the calibration action to come. -/
def torqued : State :=
  { opened with
      inbox := [.calibrate]
      wire := [.wrote (lineFree 0), .waited 100000, .wrote (lineNormal 0), .waited 1000, .wrote (lineFree 1),
        .waited 100000, .wrote (lineNormal 1)] }

/-- R302, R306: without the wait of `T_TORQUE` a Normal frame does not enable torque, nor does it after a `TQ_OFF`. -/
theorem test_commandedMode :
    [[.wrote (lineFree 0), .waited 99999, .wrote (lineNormal 0)],
      [.wrote (lineFree 0), .waited 60000, .wrote (lineFree 1), .waited 40000, .wrote (lineNormal 0)],
      [.wrote (lineFree 0), .waited 100000, .wrote (lineNormal 0), .wrote (lineFree 0)]].map (commandedMode 0) =
      [.unknown, .normal, .free 0] := by decide +kernel
theorem test_witness_CalibrationKeepsItsPlace :
    torqued.seq = .idle ∧ torqued.host.plan = [] ∧ torqued.inbox = .calibrate :: [] ∧ torqued.busOpen = true ∧
      TorqueOn torqued.cfg.yaw.id torqued.wire ∧ TorqueOn torqued.cfg.pitch.id torqued.wire ∧
      torqued.host.loop = .initializing ∧ torqued.host.ended = false ∧ State.reset.busOpen = false ∧
      ¬TorqueOn State.reset.cfg.yaw.id State.reset.wire ∧ ¬TorqueOn State.reset.cfg.pitch.id State.reset.wire ∧
      (hostRunning .calibrate).host.loop ≠ .initializing ∧
      ({ torqued with wire := torqued.wire ++ [.wrote (lineFree 0)] } : State).wire =
        torqued.wire ++ .wrote (lineFree 0) :: [] := by
  simp only [← commandedMode_normal_iff]
  decide +kernel
theorem test_witness_InadmissibleEventsDoNothing :
    (hostRunning (.storeEdit none)).seq = .idle ∧ (hostRunning (.storeEdit none)).host.plan = [] ∧
      (hostRunning (.storeEdit none)).inbox = .storeEdit none :: [] ∧
      (hostRunning (.storeEdit none)).host.loop = .running ∧ (hostRunning .proceed).inbox = .proceed :: [] ∧
      (hostRunning .hostStart).host.started = true ∧ (hostRunning .hostStart).inbox = .hostStart :: [] ∧
      ({ State.reset with inbox := [.hostException] } : State).host.loop ≠ .running ∧
      ({ State.reset with inbox := [.hostTick .failure 0] } : State).inbox = .hostTick .failure 0 :: [] ∧
      (∃ s : State, s.seq = .idle ∧ s.host.plan = [] ∧ s.inbox = .pseudo .recenter :: [] ∧
        s.host.loop = .shuttingDown ∧ s.host.ended = false) ∧
      ∃ s : State, s.host.ended = true ∧ s.host.plan = .wait 0 :: [] ∧ ∀ e ∈ s.inbox.head?, e.waits = true :=
  ⟨rfl, rfl, rfl, rfl, rfl, rfl, rfl, by decide, rfl,
    ⟨{ hostRunning (.pseudo .recenter) with host := { HostState.initial with loop := .shuttingDown } },
      rfl, rfl, rfl, rfl, rfl⟩,
    { State.reset with host := { HostState.initial with ended := true, plan := [.wait 0] } }, rfl, rfl, by decide⟩

end Sys2Proof.Tests
end

section
/-! PROOFS, family 00_scope: what the host's phase admits, event by event, and the events that it drops. -/

namespace Sys2Proof.Machine

/-! ## What the host's phase admits -/

/-- R18, R75: the store is closed to the outside writer in `Running`, and during a start-up or shutdown under way. -/
theorem HostState.betweenRuns_eq_false_iff (h : HostState) : h.betweenRuns = false ↔
    h.loop = .running ∨ h.ended = false ∧ (h.started = true ∨ h.loop = .shuttingDown) := by
  unfold HostState.betweenRuns
  cases h.loop with
  | initializing => simp [and_comm]
  | running => simp
  | shuttingDown => simp

/-- R223, R233: the host begins nothing of its own while it shuts down or after its end. -/
theorem HostState.mayIssue_eq_false_iff (h : HostState) :
    h.mayIssue = false ↔ h.loop = .shuttingDown ∨ h.ended = true := by
  simp [HostState.mayIssue, imp_iff_or_not, or_comm]

/-! ## Events that the phase does not admit -/

theorem runEvent_hostTick_dropped (s : State) (p : Pose) (us : Nat)
    (h : s.host.loop ≠ .running ∨ s.host.ended = true) : runEvent (.hostTick p us) s = .next s := by
  have hno : ¬(s.host.loop = .running ∧ s.host.ended = false) := by simpa [imp_iff_not_or] using h
  simp only [runEvent, if_neg hno]

theorem runEvent_hostException_dropped (s : State)
    (h : s.host.loop ≠ .running ∨ s.host.ended = true) : runEvent .hostException s = .next s := by
  have hno : ¬(s.host.loop = .running ∧ s.host.ended = false) := by simpa [imp_iff_not_or] using h
  simp only [runEvent, if_neg hno]

theorem runEvent_hostStart_dropped (s : State)
    (h : s.host.loop ≠ .initializing ∨ s.host.started = true ∨ s.host.ended = true) :
    runEvent .hostStart s = .next s := by
  have hno : ¬(s.host.loop = .initializing ∧ s.host.started = false ∧ s.host.ended = false) := by
    simpa [imp_iff_not_or] using h
  simp only [runEvent, if_neg hno]

theorem runEvent_pseudo_dropped (s : State) (p : Pseudo) (h : s.host.mayIssue = false) :
    runEvent (.pseudo p) s = .next s := by
  simp [runEvent, h]

theorem runEvent_calibrate_dropped (s : State) (h : s.host.mayIssue = false) :
    runEvent .calibrate s = .next s := by
  simp [runEvent, h]

theorem runEvent_storeEdit_dropped (s : State) (c : Option (List Byte)) (h : s.host.betweenRuns = false) :
    runEvent (.storeEdit c) s = .next s := by
  simp [runEvent, h]

/-! ## The step that drops -/

/-- An event whose turn it is and that has no effect on the state without it is only consumed. -/
theorem step_consumes {s : State} {e : Event} {rest : List Event} (hi : s.seq = .idle) (he : s.inbox = e :: rest)
    (hturn : s.host.plan = [] ∨ e.immediate = true)
    (hdrop : runEvent e { s with inbox := rest } = .next { s with inbox := rest }) :
    step s = .next { s with inbox := rest } :=
  (step_event s e rest hi he hturn).trans hdrop

/-- R223, R233: a host that has ended takes the next action of its plan without running it. -/
theorem step_ended (s t : State) (a : HostAct) (hi : s.seq = .idle) (h : s.hostTurn = some (a, t))
    (he : t.host.ended = true) : step s = .next t := by
  simp [step, hi, State.runNext, h, he]

/-- Settles O60: each clause is the drop lemma of its event under `step_consumes`; the last one is `step_ended`. -/
theorem inadmissibleEventsDoNothing : Obligations.InadmissibleEventsDoNothing := by
  unfold Obligations.InadmissibleEventsDoNothing
  intro s rest hi
  refine ⟨?tick, ?exception, ?start, ?issued, ?edit, ?proceed, ?ended⟩
  case tick =>
    rintro hp ⟨p, us, he⟩ h
    exact step_consumes hi he (.inl hp) (runEvent_hostTick_dropped _ p us h)
  case exception =>
    intro he h
    exact step_consumes hi he (.inr rfl) (runEvent_hostException_dropped _ h)
  case start =>
    intro hp he h
    exact step_consumes hi he (.inl hp) (runEvent_hostStart_dropped _ h)
  case issued =>
    intro hp he h
    have hmay : s.host.mayIssue = false := s.host.mayIssue_eq_false_iff.mpr h
    obtain ⟨p, he⟩ | he := he
    · exact step_consumes hi he (.inl hp) (runEvent_pseudo_dropped _ p hmay)
    · exact step_consumes hi he (.inl hp) (runEvent_calibrate_dropped _ hmay)
  case edit =>
    rintro hp ⟨c, he⟩ h
    have hbetween : s.host.betweenRuns = false := s.host.betweenRuns_eq_false_iff.mpr h
    exact step_consumes hi he (.inl hp) (runEvent_storeEdit_dropped _ c hbetween)
  case proceed =>
    intro hp he
    exact step_consumes hi he (.inl hp) rfl
  case ended =>
    intro a p hended hp hwaits
    exact step_ended s _ a hi (s.hostTurn_waits a p hp hwaits) hended

end Sys2Proof.Machine
end

section
/-! PROOFS, family 10_state: the elementary updates that the operations are made of and which instruction may make which
(`Effect`), the ways an instruction ends (`exec_ends`), what one step can do (`step_cases`), and the statements about
`ERR`, `BUS_OPEN`, the outcome flags, `STATUS`, the configuration, the invariant and reset derived from them. -/

namespace Sys2Proof.Machine

/-! ## The exchange of `read_position`, form by form -/

/-- The outcome flags of an exchange (R44, R176): exactly one of the two is set. -/
def State.setOutcome (short : Bool) (s : State) : State := { s with rspShort := short, posValid := !short }

/-- The wait and the read that follow a request that was written (R176): the bytes read, and the state after. -/
def State.readResponse (s : State) : List Byte × State :=
  (((s.enter .rdWait).delay params.tPostWrite).enter .rdRead).busRead params.readLen

/-- The bytes read stand in `RXBUF` and are about to be decoded (R176). -/
def State.storeResponse (s : State) : State := (s.readResponse.2.setRx s.readResponse.1).enter .rdDecode

/-- The three forms of an exchange, by the outcome `u` of its request: failed, answered, short (R176). -/
theorem readPosition_cases (id : Byte) (s u : State) (hu : u = ((s.beforeRequest id).busWrite (frameRd id)).2) :
    readPosition id s =
        (none, (((u.setRx []).setOutcome true).absorb .busWriteFailure).emit (.writeFailed id)) ∨
      (∃ v, readPosition id s = (some (rawToDeg v), u.storeResponse.setOutcome false)) ∨
      readPosition id s =
        (none, ((u.storeResponse.setOutcome true).absorb .shortResponse).emit
          (.shortResponse id u.readResponse.1.length)) := by
  subst hu
  unfold readPosition
  simp only [State.beforeRequest]
  split
  case h_1 t he => rw [he]; exact .inl rfl
  case h_2 t he =>
    rw [he]
    dsimp only
    split
    · exact .inr (.inl ⟨_, rfl⟩)
    · exact .inr (.inr rfl)

/-- R44: an exchange sets `POS_VALID` exactly when it answers a position, and `RSP_SHORT` otherwise. -/
theorem readPosition_flags (id : Byte) (s : State) :
    (readPosition id s).2.posValid = (readPosition id s).1.isSome ∧
      (readPosition id s).2.rspShort = !(readPosition id s).1.isSome := by
  obtain h | ⟨v, h⟩ | h := readPosition_cases id s _ rfl <;> rw [h] <;> exact ⟨rfl, rfl⟩

/-- R33, R194: the position that an exchange answers is a finite decimal. -/
theorem readPosition_finiteDecimal {id : Byte} {s : State} {d : Deg} (hd : (readPosition id s).1 = some d) :
    finiteDecimal d = true := by
  obtain h | ⟨v, h⟩ | h := readPosition_cases id s _ rfl <;> rw [h] at hd <;> cases hd
  exact rawToDeg_finiteDecimal v

/-- The offset of an axis that was never calibrated is a finite decimal (R33, R55). -/
theorem finiteDecimal_zero : finiteDecimal 0 = true := rfl

/-- A `BusRead` returns at most as many bytes as it was asked for (R153). -/
theorem State.busRead_length (s : State) (n : Nat) : (s.busRead n).1.length ≤ n := by
  rw [State.busRead_result, List.length_take]
  exact Nat.min_le_left _ _

/-! ## The elementary updates -/

/-- One elementary update that instruction `i` may make in `s`. The updates that R43, R44, R45, R33 and R36 reserve for
some operations carry that condition on `i`. -/
inductive Effect (i : Instr) (s : State) : State → Prop where
  | accept : Effect i s s.accept
  | enter (p : Phase) : Effect i s (s.enter p)
  | setTx (f : List Byte) (h : f.length = 7 ∨ f.length = 8 ∨ f.length = 9) : Effect i s (s.setTx f)
  | setRx (r : List Byte) (h : r.length ≤ 12) : Effect i s (s.setRx r)
  | write (bs : List Byte) : Effect i s (s.busWrite bs).2
  | read (n : Nat) (h : s.busOpen = true) : Effect i s (s.busRead n).2
  | flush : Effect i s s.busFlush
  | delay (us : Nat) : Effect i s (s.delay us)
  | absorb (c : Cause) (h : c ≠ .none ∧ c.recorded = true) : Effect i s (s.absorb c)
  | emit (e : LogEvent) : Effect i s (s.emit e)
  | popRead : Effect i s s.popRead
  | openFailed : Effect i s (s.popOpen.record .openFailed)
  | opened (h : i = .bOpen) :
      Effect i s ({ s.popOpen with rxq := [], txq := [], busOpen := true }.record .opened)
  | closed (h : i = .bClose) : Effect i s ({ s with rxq := [], txq := [], busOpen := false }.record .closed)
  | setOutcome (short : Bool) (h : (∃ id, i = .rdpos id) ∨ i = .calRun) : Effect i s (s.setOutcome short)
  | setCaloff (y p : Deg) (h : i = .calLd ∨ i = .calRun) (hy : finiteDecimal y = true)
      (hp : finiteDecimal p = true) : Effect i s (s.setCaloff y p)
  | setCalStatus (st : CalStatus) (h : i = .calLd) : Effect i s { s with calStatus := st }
  | save (b : List Byte) (h : (∃ y p, i = .calSv y p) ∨ i = .calRun) : Effect i s (s.memWrite b).2
  | setSaveFail (b : Bool) : Effect i s { s with saveFail := b }
  | setCalFail (b : Bool) : Effect i s { s with calFail := b }

/-- A chain of elementary updates of one instruction. -/
abbrev Effects (i : Instr) : State → State → Prop := Relation.ReflTransGen (Effect i)

/-- The ways an instruction ends: refused, or an arrival on the line, or a chain of updates and its response. -/
inductive Ends (i : Instr) (s : State) : State → Prop where
  | refused (c : Cause) : Ends i s (s.refuse c)
  | arrived {b0 b1 b2 b3 b4 b5 b6 : Byte} {pad : List Byte} (h : i = .rs b0 b1 b2 b3 b4 b5 b6 pad)
      (bs : List Byte) : Ends i s (s.arrive bs)
  | delivered {u : State} (h : Effects i s u) (e : Cause) (r : Result) : Ends i s (u.deliver e r)

/-- R43: a single update touches `BUS_OPEN` only as part of `B_OPEN` or `B_CLOSE`. -/
theorem Effect.busOpen {i : Instr} {s t : State} (h : Effect i s t) :
    t.busOpen = s.busOpen ∨ (i = .bOpen ∧ t.busOpen = true) ∨ (i = .bClose ∧ t.busOpen = false) := by
  cases h
  case opened hi => exact .inr (.inl ⟨hi, rfl⟩)
  case closed hi => exact .inr (.inr ⟨hi, rfl⟩)
  case write bs => rw [State.busWrite_frame]; exact .inl rfl
  case read n _ => rw [State.busRead_frame]; exact .inl rfl
  case save b _ => rw [State.memWrite_frame]; exact .inl rfl
  case popRead => unfold State.popRead; split <;> exact .inl rfl
  all_goals exact .inl rfl

/-- R43 along a chain. -/
theorem Effects.busOpen {i : Instr} {s t : State} (h : Effects i s t) :
    t.busOpen = s.busOpen ∨ (i = .bOpen ∧ t.busOpen = true) ∨ (i = .bClose ∧ t.busOpen = false) := by
  induction h with
  | refl => exact .inl rfl
  | tail _ hstep ih =>
    obtain heq | hbus := hstep.busOpen
    · rwa [heq]
    · exact .inr hbus

/-! ## The chains that operations share -/

section

variable {i : Instr} {s u : State}

/-- The channel is still open inside a reading operation. -/
theorem Effects.stillOpen (h : Effects i s u) (hi : (∃ id, i = .rdpos id) ∨ i = .calRun)
    (hb : s.busOpen = true) : u.busOpen = true := by
  obtain heq | ⟨rfl, _⟩ | ⟨rfl, _⟩ := h.busOpen
  · exact heq.trans hb
  · simp at hi
  · simp at hi

theorem Effects.start (i : Instr) (s : State) (p : Phase) : Effects i s (s.accept.enter p) :=
  (Relation.ReflTransGen.single .accept).tail (.enter p)

/-- The frames the block builds have 7, 8 or 9 bytes (R34). -/
theorem frameTq_length (id : Byte) (m : TorqueMode) : (frameTq id m).length = 8 := rfl
theorem frameSp_length (id : Byte) (raw : Half) : (frameSp id raw).length = 9 := rfl
theorem frameRd_length (id : Byte) : (frameRd id).length = 7 := rfl

theorem Effects.readPosition (h : Effects i s u) (hi : (∃ id, i = .rdpos id) ∨ i = .calRun)
    (hb : s.busOpen = true) (id : Byte) : Effects i s (readPosition id u).2 := by
  have hreq : Effects i s ((u.beforeRequest id).busWrite (frameRd id)).2 :=
    ((((h.tail (.enter _)).tail .flush).tail (.enter _)).tail (.setTx _ (.inl (frameRd_length id)))).tail
      (.enter _) |>.tail (.write _)
  obtain ⟨v, hv⟩ : ∃ v, v = ((u.beforeRequest id).busWrite (frameRd id)).2 := ⟨_, rfl⟩
  rw [← hv] at hreq
  have hwait : Effects i s (((v.enter .rdWait).delay params.tPostWrite).enter .rdRead) :=
    ((hreq.tail (.enter _)).tail (.delay _)).tail (.enter _)
  have hread : Effects i s v.storeResponse :=
    ((hwait.tail (.read params.readLen (hwait.stillOpen hi hb))).tail
      (.setRx _ (State.busRead_length _ _))).tail (.enter _)
  obtain hr | ⟨d, hr⟩ | hr := readPosition_cases id u v hv <;> rw [hr]
  · exact (((hreq.tail (.setRx [] (Nat.zero_le _))).tail (.setOutcome true hi)).tail
      (.absorb _ ⟨by decide, rfl⟩)).tail (.emit _)
  · exact hread.tail (.setOutcome false hi)
  · exact ((hread.tail (.setOutcome true hi)).tail (.absorb _ ⟨by decide, rfl⟩)).tail (.emit _)

theorem Effects.calSave (h : Effects i s u) (hi : (∃ y p, i = .calSv y p) ∨ i = .calRun) (y p : Deg) :
    Effects i s (calSave y p u) := by
  have hsave := ((h.tail (.enter .csFormat)).tail (.enter .csWrite)).tail (.save (calText y p) hi)
  unfold Machine.calSave
  split
  · rename_i t he
    rw [he] at hsave
    exact hsave.tail (.setSaveFail false)
  · rename_i t he
    rw [he] at hsave
    exact ((hsave.tail (.setSaveFail true)).tail (.absorb _ ⟨by decide, rfl⟩)).tail (.emit _)

theorem Effects.writeAndEnd (h : Effects i s u) (f : List Byte) : Ends i s (u.writeAndEnd f) := by
  have hw : Effects i s (u.busWrite f).2 := h.tail (.write f)
  obtain ⟨_, he⟩ | ⟨_, he⟩ := u.writeAndEnd_cases f <;> rw [he]
  · exact .delivered hw _ _
  · exact .delivered (hw.tail (.absorb _ ⟨by decide, rfl⟩)) _ _

theorem Ends.needBus {f : State → State} (h : s.busOpen = true → Ends i s (f s)) : Ends i s (s.needBus f) := by
  unfold State.needBus
  split
  · exact h ‹_›
  · exact .refused _

end

/-! ## Each operation ends in one of the ways -/

theorem opOpen_ends (s : State) : Ends .bOpen s (opOpen s) := by
  have hstart := Effects.start .bOpen s .opening
  unfold opOpen
  dsimp only
  split
  · exact .refused _
  · split
    · exact .delivered (hstart.tail (.opened rfl)) _ _
    · exact .delivered ((hstart.tail .openFailed).tail (.absorb .transportOpenFailure ⟨by decide, rfl⟩)) _ _

theorem opClose_ends (s : State) : Ends .bClose s (opClose s) := by
  have hstart := Effects.start .bClose s .closing
  unfold opClose
  dsimp only
  split
  · exact .delivered (hstart.tail (.closed rfl)) _ _
  · exact .delivered hstart _ _

theorem opWrite_ends (i : Instr) (bytes : List Byte) (s : State) : Ends i s (opWrite bytes s) :=
  .needBus fun _ => (Effects.start i s .writing).writeAndEnd bytes

theorem opTqOn_ends (id : Byte) (s : State) : Ends (.tqOn id) s (opTqOn id s) := by
  refine .needBus fun _ => ?_
  have hfree := ((Effects.start (.tqOn id) s .tqEncFree).tail
    (.setTx _ (.inr (.inl (frameTq_length id .free))))).tail (.enter .tqWrFree) |>.tail (.write (frameTq id .free))
  dsimp only
  split
  · rename_i t he
    rw [he] at hfree
    exact .delivered (hfree.tail (.absorb .busWriteFailure ⟨by decide, rfl⟩)) _ _
  · rename_i t he
    rw [he] at hfree
    exact Effects.writeAndEnd (((((hfree.tail (.enter _)).tail (.delay _)).tail (.enter _)).tail
      (.setTx _ (.inr (.inl (frameTq_length id .normal))))).tail (.enter _)) _

theorem opTqOff_ends (id : Byte) (s : State) : Ends (.tqOff id) s (opTqOff id s) :=
  .needBus fun _ => Effects.writeAndEnd (((Effects.start (.tqOff id) s .tqEncFree).tail
    (.setTx _ (.inr (.inl (frameTq_length id .free))))).tail (.enter .tqWrFree)) _

theorem opSetpos_ends (id : Byte) (d : Deg) (s : State) : Ends (.setpos id d) s (opSetpos id d s) :=
  .needBus fun _ => Effects.writeAndEnd (((((Effects.start (.setpos id d) s .spConv).tail (.enter .spClamp)).tail
    (.enter .spEnc)).tail (.setTx _ (.inr (.inr (frameSp_length id _))))).tail (.enter .spWrite)) _

theorem opRdpos_ends (id : Byte) (s : State) : Ends (.rdpos id) s (opRdpos id s) :=
  .needBus fun hb => .delivered
    (Effects.readPosition (.single .accept) (.inl ⟨id, rfl⟩) hb id) _ _

theorem opCalLd_ends (s : State) : Ends .calLd s (opCalLd s) := by
  have hread := (((Effects.start .calLd s .clRead).tail .popRead).tail (.enter .clParse)).tail (.enter .clCommit)
  have hdefault (st : CalStatus) (c : Cause) (e : LogEvent) (hc : c ≠ .none ∧ c.recorded = true) :
      Ends .calLd s (State.loadDefault st c e _) :=
    .delivered ((((hread.tail (.setCaloff 0 0 (.inl rfl) finiteDecimal_zero finiteDecimal_zero)).tail
      (.setCalStatus st rfl)).tail (.absorb c hc)).tail (.emit e)) _ _
  unfold opCalLd
  dsimp only
  split
  · exact hdefault _ _ _ ⟨by decide, rfl⟩
  · exact hdefault _ _ _ ⟨by decide, rfl⟩
  · split
    · rename_i y p hparse
      obtain ⟨hy, hp⟩ := parseCal_finiteDecimal _ y p hparse
      exact .delivered ((hread.tail (.setCaloff y p (.inl rfl) hy hp)).tail (.setCalStatus .loaded rfl)) _ _
    · exact hdefault _ _ _ ⟨by decide, rfl⟩

theorem opCalSv_ends (y p : Deg) (s : State) : Ends (.calSv y p) s (opCalSv y p s) := by
  unfold opCalSv
  split
  · exact .delivered (Effects.calSave (.single .accept) (.inl ⟨y, p, rfl⟩) y p) _ _
  · exact .refused _

theorem opCalRun_ends (s : State) : Ends .calRun s (opCalRun s) := by
  refine .needBus fun hb => ?_
  have hyaw := (Effects.start .calRun s .crYaw).readPosition (.inr rfl) hb s.cfg.yaw.id
  have hpitch := Effects.readPosition ((hyaw.tail (.delay params.tCmdGap)).tail (.enter .crPitch)) (.inr rfl) hb
    s.cfg.pitch.id
  have hcommit := hpitch.tail (.enter .crCommit)
  dsimp only
  split
  · rename_i y p hy hp
    exact .delivered (Effects.calSave ((hcommit.tail (.setCaloff y p (.inr rfl) (readPosition_finiteDecimal hy)
      (readPosition_finiteDecimal hp))).tail (.setCalFail false)) (.inr rfl) y p) _ _
  · exact .delivered ((((hcommit.tail (.setCaloff 0 0 (.inr rfl) finiteDecimal_zero finiteDecimal_zero)).tail
      (.setCalFail true)).tail (.absorb .calibrationFailed ⟨by decide, rfl⟩)).tail (.emit _)) _ _

/-- Every instruction is refused, or is an arrival, or makes a chain of its own updates and delivers a response. -/
theorem exec_ends (i : Instr) (s t : State) (h : exec i s = .next t) : Ends i s t := by
  have hexec := Effects.start i s .exec
  cases i <;> cases h
  case rs => exact .arrived rfl _
  case bOpen => exact opOpen_ends s
  case bClose => exact opClose_ends s
  case bFlush => exact .needBus fun _ => .delivered ((Effects.start _ s .flushing).tail .flush) _ _
  case bRead n => exact .needBus fun hb => .delivered ((Effects.start _ s .reading).tail (.read n.toNat hb)) _ _
  case tqOn id => exact opTqOn_ends id s
  case tqOff id => exact opTqOff_ends id s
  case setpos id d => exact opSetpos_ends id d s
  case rdpos id => exact opRdpos_ends id s
  case calLd => exact opCalLd_ends s
  case calSv y p => exact opCalSv_ends y p s
  case calRun => exact opCalRun_ends s
  case axMap =>
    unfold opAxMap; split
    · exact .refused _
    · exact .delivered hexec _ _
  case calApply =>
    unfold opCalApply; split
    · exact .refused _
    · exact .delivered hexec _ _
  case encTq =>
    unfold opEncTq; split
    · exact .refused _
    · exact .delivered (hexec.tail (.setTx _ (.inr (.inl (frameTq_length _ _))))) _ _
  case encSp => exact .delivered (hexec.tail (.setTx _ (.inr (.inr (frameSp_length _ _))))) _ _
  case encRd => exact .delivered (hexec.tail (.setTx _ (.inl (frameRd_length _)))) _ _
  case decRd => unfold opDecRd; split <;> exact .delivered hexec _ _
  case d2r | r2d | csum => exact .delivered hexec _ _
  all_goals exact opWrite_ends _ _ s

/-! ## ERR -/

/-- R47, R251: `ERR` is left alone, or it gets one of the recorded codes. -/
def State.ErrSticks (s t : State) : Prop := t.err = s.err ∨ (t.err ≠ .none ∧ t.err.recorded = true)

theorem State.ErrSticks.trans {s t u : State} (h : s.ErrSticks t) (k : t.ErrSticks u) : s.ErrSticks u := by
  obtain heq | hrec := k
  · rwa [State.ErrSticks, heq]
  · exact .inr hrec

theorem State.busWrite_errSticks (s : State) (bs : List Byte) : s.ErrSticks (s.busWrite bs).2 := by
  rw [State.ErrSticks, State.busWrite_err]
  split
  · exact .inl rfl
  · exact .inr ⟨by decide, rfl⟩

theorem Effect.errSticks {i : Instr} {s t : State} (h : Effect i s t) : s.ErrSticks t := by
  cases h
  case absorb c hc => exact .inr hc
  case write bs => exact s.busWrite_errSticks bs
  case read n _ => rw [State.busRead_frame]; exact .inl rfl
  case save b _ => rw [State.memWrite_frame]; exact .inl rfl
  case popRead => unfold State.popRead; split <;> exact .inl rfl
  all_goals exact .inl rfl

theorem Effects.errSticks {i : Instr} {s t : State} (h : Effects i s t) : s.ErrSticks t := by
  induction h with
  | refl => exact .inl rfl
  | tail _ hstep ih => exact ih.trans hstep.errSticks

/-- Settles O41: a refusal and an arrival leave `ERR`, and every update of a chain keeps it or records a cause. -/
theorem errIsSticky : Obligations.ErrIsSticky := by
  unfold Obligations.ErrIsSticky
  intro i s t h
  cases exec_ends i s t h with
  | refused c => exact .inl rfl
  | arrived _ bs => unfold State.arrive; split <;> exact .inl rfl
  | delivered hchain e r => exact hchain.errSticks

/-! ## BUS_OPEN -/

theorem Ends.busOpen {i : Instr} {s t : State} (h : Ends i s t) :
    t.busOpen = s.busOpen ∨ (i = .bOpen ∧ t.busOpen = true) ∨ (i = .bClose ∧ t.busOpen = false) := by
  cases h with
  | refused c => exact .inl rfl
  | arrived _ bs => unfold State.arrive; split <;> exact .inl rfl
  | delivered hchain e r => exact hchain.busOpen

/-- R151: `B_OPEN` on a closed channel leaves what the environment drew. -/
theorem opOpen_busOpen (s : State) (h : s.busOpen = false) : (opOpen s).busOpen = s.nextOpen := by
  unfold opOpen
  cases hdraw : s.nextOpen <;> simp [h]

/-- R155: the channel is closed after `B_CLOSE`. -/
theorem opClose_busOpen (s : State) : (opClose s).busOpen = false := by
  unfold opClose
  cases h : s.busOpen <;> simp [h]

/-- Settles O42: `Ends.busOpen`, and the outcome of the two operations. -/
theorem busOpenChangesOnlyByOpenAndClose : Obligations.BusOpenChangesOnlyByOpenAndClose := by
  unfold Obligations.BusOpenChangesOnlyByOpenAndClose
  intro i s t h
  have hbus := (exec_ends i s t h).busOpen
  refine ⟨fun hs ht => ?set, fun hs ht => ?cleared, ?opened, ?closed⟩
  case set =>
    obtain heq | ⟨hi, _⟩ | ⟨_, hf⟩ := hbus
    · simp [heq, hs] at ht
    · exact hi
    · simp [ht] at hf
  case cleared =>
    obtain heq | ⟨_, ht'⟩ | ⟨hi, _⟩ := hbus
    · simp [heq, hs] at ht
    · simp [ht] at ht'
    · exact hi
  case opened =>
    rintro rfl hs
    cases h
    exact opOpen_busOpen s hs
  case closed =>
    rintro rfl
    cases h
    exact opClose_busOpen s

/-! ## RSP_SHORT and POS_VALID -/

/-- R44: only the reading operations write the outcome flags. -/
theorem Effect.outcome {i : Instr} {s t : State} (h : Effect i s t) (hrd : ∀ id, i ≠ .rdpos id)
    (hrun : i ≠ .calRun) : t.rspShort = s.rspShort ∧ t.posValid = s.posValid := by
  cases h
  case setOutcome short hi =>
    obtain ⟨id, hi⟩ | hi := hi
    · exact absurd hi (hrd id)
    · exact absurd hi hrun
  case write bs => rw [State.busWrite_frame]; exact ⟨rfl, rfl⟩
  case read n _ => rw [State.busRead_frame]; exact ⟨rfl, rfl⟩
  case save b _ => rw [State.memWrite_frame]; exact ⟨rfl, rfl⟩
  case popRead => unfold State.popRead; split <;> exact ⟨rfl, rfl⟩
  all_goals exact ⟨rfl, rfl⟩

theorem Effects.outcome {i : Instr} {s t : State} (h : Effects i s t) (hrd : ∀ id, i ≠ .rdpos id)
    (hrun : i ≠ .calRun) : t.rspShort = s.rspShort ∧ t.posValid = s.posValid := by
  induction h with
  | refl => exact ⟨rfl, rfl⟩
  | tail _ hstep ih =>
    obtain ⟨hshort, hvalid⟩ := hstep.outcome hrd hrun
    exact ⟨hshort.trans ih.1, hvalid.trans ih.2⟩

theorem Ends.outcome {i : Instr} {s t : State} (h : Ends i s t) (hrd : ∀ id, i ≠ .rdpos id) (hrun : i ≠ .calRun) :
    t.rspShort = s.rspShort ∧ t.posValid = s.posValid := by
  cases h with
  | refused c => exact ⟨rfl, rfl⟩
  | arrived _ bs => unfold State.arrive; split <;> exact ⟨rfl, rfl⟩
  | delivered hchain e r => exact hchain.outcome hrd hrun

/-- R176: `RDPOS` on an open channel is one exchange, whose answer it delivers. -/
theorem opRdpos_open (id : Byte) (s : State) (hb : s.busOpen = true) :
    opRdpos id s =
      (readPosition id s.accept).2.complete (positionResult (readPosition id s.accept).1) :=
  s.needBus_open _ hb

theorem calSave_outcome (y p : Deg) (s : State) :
    (calSave y p s).rspShort = s.rspShort ∧ (calSave y p s).posValid = s.posValid :=
  Effects.outcome (i := .calSv y p) (Effects.calSave .refl (.inl ⟨y, p, rfl⟩) y p) nofun nofun

/-- R44, R202: `CAL_RUN` leaves the flags of its second exchange, so exactly one of them is set. -/
theorem opCalRun_outcome (s : State) (hb : s.busOpen = true) : (opCalRun s).posValid = !(opCalRun s).rspShort := by
  rw [opCalRun, s.needBus_open _ hb]
  dsimp only
  obtain ⟨hvalid, hshort⟩ := readPosition_flags s.cfg.pitch.id
    (((readPosition s.cfg.yaw.id (s.accept.enter .crYaw)).2.delay params.tCmdGap).enter .crPitch)
  split
  · obtain ⟨hs, hv⟩ := calSave_outcome _ _ _
    rw [State.complete_posValid, State.complete_rspShort, hs, hv]
    simp [hvalid, hshort]
  · simp [hvalid, hshort]

/-- Settles O43: `Ends.outcome` for the other instructions; for the reads, the flags of the exchange that decides. -/
theorem readFlagsWrittenOnlyByReads : Obligations.ReadFlagsWrittenOnlyByReads := by
  unfold Obligations.ReadFlagsWrittenOnlyByReads
  intro i s t h
  refine ⟨fun hrd hrun => (exec_ends i s t h).outcome hrd hrun, ?exclusive, ?answered⟩
  case exclusive =>
    rintro (⟨id, rfl⟩ | rfl) hb <;> cases h
    · obtain ⟨hvalid, hshort⟩ := readPosition_flags id s.accept
      rw [opRdpos_open id s hb, State.complete_posValid, State.complete_rspShort, hvalid, hshort, Bool.not_not]
    · exact opCalRun_outcome s hb
  case answered =>
    rintro id rfl hb
    cases h
    obtain ⟨hvalid, _⟩ := readPosition_flags id s.accept
    rw [opRdpos_open id s hb, State.complete_posValid, State.complete_resp, hvalid]
    cases (readPosition id s.accept).1 <;> simp [positionResult]

/-! ## STATUS -/

/-- The fields of `STATUS` side by side, at the width that their sizes add up to (R48). -/
def flagWord (zero cause : BitVec 4) (cal save : Bool) (status : BitVec 2) (valid short busy bus : Bool) :
    BitVec (4 + 4 + 1 + 1 + 2 + 1 + 1 + 1 + 1) :=
  zero ++ cause ++ BitVec.ofBool cal ++ BitVec.ofBool save ++ status ++ BitVec.ofBool valid ++ BitVec.ofBool short ++
    BitVec.ofBool busy ++ BitVec.ofBool bus

theorem State.statusWord_eq (s : State) : s.statusWord =
    flagWord 0 (causeCode s.err) s.calFail s.saveFail (calStatusCode s.calStatus) s.posValid s.rspShort
      (s.seq != .idle) s.busOpen := rfl

section
variable (zero cause : BitVec 4) (cal save : Bool) (status : BitVec 2) (valid short busy bus : Bool)

theorem flagWord_bits :
    (flagWord zero cause cal save status valid short busy bus).getLsbD 0 = bus ∧
      (flagWord zero cause cal save status valid short busy bus).getLsbD 1 = busy ∧
      (flagWord zero cause cal save status valid short busy bus).getLsbD 2 = short ∧
      (flagWord zero cause cal save status valid short busy bus).getLsbD 3 = valid ∧
      (flagWord zero cause cal save status valid short busy bus).getLsbD 6 = save ∧
      (flagWord zero cause cal save status valid short busy bus).getLsbD 7 = cal := by
  simp only [flagWord, BitVec.getLsbD_append, BitVec.getLsbD_ofBool]
  simp

theorem flagWord_fields :
    (flagWord zero cause cal save status valid short busy bus).extractLsb' 4 2 = status ∧
      (flagWord zero cause cal save status valid short busy bus).extractLsb' 8 4 = cause ∧
      (flagWord zero cause cal save status valid short busy bus).extractLsb' 12 4 = zero := by
  simp (disch := decide) only [flagWord, BitVec.extractLsb'_append_eq_of_le, BitVec.extractLsb'_append_eq_of_add_le]
  simp
end

/-- R48: every flag at its bit. -/
theorem State.statusWord_bits (s : State) :
    s.statusWord.getLsbD 0 = s.busOpen ∧ s.statusWord.getLsbD 1 = decide (s.seq ≠ .idle) ∧
      s.statusWord.getLsbD 2 = s.rspShort ∧ s.statusWord.getLsbD 3 = s.posValid ∧
      s.statusWord.getLsbD 6 = s.saveFail ∧ s.statusWord.getLsbD 7 = s.calFail := by
  have hbusy : decide (s.seq ≠ .idle) = (s.seq != .idle) := by simp [bne, BEq.beq]
  rw [hbusy]
  exact flagWord_bits _ _ _ _ _ _ _ _ _

/-- R48: every code in its field. -/
theorem State.statusWord_fields (s : State) :
    s.statusWord.extractLsb' 4 2 = calStatusCode s.calStatus ∧
      s.statusWord.extractLsb' 8 4 = causeCode s.err ∧ s.statusWord.extractLsb' 12 4 = 0 :=
  flagWord_fields _ _ _ _ _ _ _ _ _

/-- R40, R48: a response delivered from `SEQ` idle carries the `STATUS` of the state it leaves, which is idle. -/
theorem Ends.response {i : Instr} {s t : State} (h : Ends i s t) (hidle : s.seq = .idle)
    (hrs : ∀ (b0 b1 b2 b3 b4 b5 b6 : Byte) (pad : List Byte), i ≠ .rs b0 b1 b2 b3 b4 b5 b6 pad) :
    t.seq = .idle ∧ ∃ (e : Cause) (r : Result), t.resp = some ⟨t.statusWord, e, r⟩ := by
  cases h with
  | refused c => exact ⟨hidle, c, .none, rfl⟩
  | arrived hi _ => exact absurd hi (hrs _ _ _ _ _ _ _ _)
  | delivered _ e r => exact ⟨rfl, e, r, rfl⟩

/-- Settles O46: the bits and fields of the word, the codes as they stand, and `Ends.response`. -/
theorem statusShowsTheFlags : Obligations.StatusShowsTheFlags := by
  unfold Obligations.StatusShowsTheFlags
  refine ⟨fun s => ?word, rfl, rfl, fun i s t hrs hidle h => ?response⟩
  case word =>
    obtain ⟨hopen, hbusy, hshort, hvalid, hsave, hcal⟩ := s.statusWord_bits
    obtain ⟨hstatus, herr, hzero⟩ := s.statusWord_fields
    exact ⟨hopen, hbusy, hshort, hvalid, hstatus, hsave, hcal, herr, hzero⟩
  case response =>
    obtain ⟨hseq, e, r, hresp⟩ := (exec_ends i s t h).response hidle hrs
    obtain ⟨_, hbusy, _⟩ := t.statusWord_bits
    exact ⟨e, r, hresp, by rw [hbusy, hseq]; rfl⟩

/-! ## What is known of the actuators -/

/-- The part of the invariant about the line and the actuators (R52, R72; log entry 14). -/
structure State.LineInv (s : State) : Prop where
  memCanonical : Memory.wf s.actMem
  memTorque : ∀ c ∈ s.actMem, torqueCell c = true
  dirtyUnknown : s.lineClean = false → s.actMem = []
  faultDirty : s.faults ≠ [] → s.lineClean = false

/-- Nothing is known: the line is not clean. -/
theorem State.LineInv.of_dirty {s : State} (hm : s.actMem = []) (hc : s.lineClean = false) : s.LineInv where
  memCanonical := by rw [hm]; exact ⟨List.Pairwise.nil, nofun⟩
  memTorque := by rw [hm]; nofun
  dirtyUnknown _ := hm
  faultDirty _ := hc

theorem torqueCell_regAddr (id v : Byte) (h : v = params.dataFree ∨ v = params.dataNormal) :
    torqueCell (regAddr id params.addrTorqueMode, v) = true := by
  have haddr : regAddr id params.addrTorqueMode % 256 = params.addrTorqueMode.toNat := by
    simp only [regAddr, params]
    omega
  simp [torqueCell, haddr, h]

/-- R52: whatever a whole frame does, only torque modes are known after it. -/
theorem actuatorEffect_torque {settled : Bool} {bs : List Byte} {m m' : Memory}
    (h : actuatorEffect settled bs m = some m') (hm : ∀ c ∈ m, torqueCell c = true) :
    ∀ c ∈ m', torqueCell c = true := by
  intro c hc
  obtain ⟨id, v, hv, rfl⟩ | ⟨id, rfl⟩ | ⟨id, rfl⟩ | rfl := actuatorEffect_cases settled bs m m' h
  · obtain rfl | hold := Memory.mem_write _ _ _ _ hc
    · exact torqueCell_regAddr id v hv
    · exact hm c hold
  · exact hm c (Memory.mem_erase _ _ _ hc)
  · exact hm c (Memory.mem_erase _ _ _ (Memory.mem_erase _ _ _ (Memory.mem_erase _ _ _ (Memory.mem_erase _ _ _ hc))))
  · exact hm c hc

theorem State.LineInv.checkGap {s : State} (h : s.LineInv) : s.checkGap.LineInv := by
  obtain ⟨heq, _⟩ | ⟨_, hm, hc⟩ := s.checkGap_cases
  · rwa [heq]
  · exact .of_dirty hm hc

theorem State.LineInv.actuate {s : State} (h : s.LineInv) (bs : List Byte) : (s.actuate bs).LineInv := by
  unfold State.actuate
  split
  · rename_i hclean
    split
    · rename_i m hm
      exact { memCanonical := actuatorEffect_wf _ _ _ _ hm h.memCanonical
              memTorque := actuatorEffect_torque hm h.memTorque
              dirtyUnknown := fun hdirty => absurd (hclean.symm.trans hdirty) nofun
              faultDirty := h.faultDirty }
    · exact .of_dirty rfl rfl
  · rename_i hclean
    exact .of_dirty rfl (by simpa using hclean)

theorem State.LineInv.cutWrite {s : State} (h : s.LineInv) (part : List Byte) : (s.cutWrite part).LineInv := by
  unfold State.cutWrite
  split
  · exact { h with }
  · exact .of_dirty rfl rfl

theorem State.LineInv.busWrite {s : State} (h : s.LineInv) (bs : List Byte) : (s.busWrite bs).2.LineInv := by
  by_cases hb : bs = []
  · rw [hb, State.busWrite_nil]
    exact h.checkGap
  · cases hw : s.nextWrite with
    | ok =>
      rw [s.busWrite_ok bs hb hw]
      have hsent : State.LineInv { s.checkGap.popWrite with txq := s.checkGap.txq ++ bs } := { h.checkGap with }
      exact { hsent.actuate (s.checkGap.txq ++ bs) with }
    | fail k =>
      rw [s.busWrite_fail bs k hb hw]
      have hpop : s.checkGap.popWrite.LineInv := { h.checkGap with }
      exact hpop.cutWrite _

/-! ## The invariant inside an operation -/

/-- The invariant but for `SEQ`, which an operation under way has moved (R40). -/
abbrev State.InvInside (s : State) : Prop := State.Inv { s with seq := .idle }

theorem State.Inv.inside {s : State} (h : s.Inv) : s.InvInside := { h with idle := rfl }

theorem State.Inv.line {s : State} (h : s.Inv) : s.LineInv := { h with }

theorem State.InvInside.line {s : State} (h : s.InvInside) : s.LineInv := { State.Inv.line h with }

theorem rxTailBytes_length (draw k : Nat) : (rxTailBytes draw k).length = 12 - k := by
  simp [rxTailBytes, params]

theorem State.InvInside.setTx {s : State} (h : s.InvInside) {f : List Byte}
    (hf : f.length = 7 ∨ f.length = 8 ∨ f.length = 9) : (s.setTx f).InvInside :=
  { h with
    txSize := by
      have hsize : s.txbuf.length = 9 := h.txSize
      simp only [State.setTx, List.length_append, List.length_drop, hsize]
      omega
    txLen := .inr hf }

theorem State.InvInside.setRx {s : State} (h : s.InvInside) {r : List Byte} (hr : r.length ≤ 12) :
    (s.setRx r).InvInside :=
  { h with
    rxSize := by
      simp only [State.setRx, List.length_append, rxTailBytes_length]
      omega
    rxLen := hr }

theorem State.InvInside.busWrite {s : State} (h : s.InvInside) (bs : List Byte) : (s.busWrite bs).2.InvInside := by
  have hline := h.line.busWrite bs
  have hsent := s.busWrite_txq bs h.sent
  have herr : (s.busWrite bs).2.err.recorded = true := by
    rw [State.busWrite_err]
    split
    · exact h.errRecorded
    · rfl
  rw [State.busWrite_frame] at hline ⊢
  exact { hline, h with sent := hsent, errRecorded := herr }

theorem State.InvInside.busRead {s : State} (h : s.InvInside) (hb : s.busOpen = true) (n : Nat) :
    (s.busRead n).2.InvInside := by
  rw [State.busRead_frame]
  exact { h with timeoutOver := rfl, closedEmpty := fun hclosed => absurd (hb.symm.trans hclosed) nofun }

/-- Every elementary update keeps the invariant inside an operation. -/
theorem Effect.keeps_inv {i : Instr} {s t : State} (h : Effect i s t) (hs : s.InvInside) : t.InvInside := by
  cases h
  case setTx f hf => exact hs.setTx hf
  case setRx r hr => exact hs.setRx hr
  case write bs => exact hs.busWrite bs
  case read n hb => exact hs.busRead hb n
  case flush => exact { hs with sent := rfl, closedEmpty := fun _ => rfl }
  case delay us => exact { hs with delayOver := rfl }
  case absorb c hc => exact { hs with errRecorded := hc.2 }
  case popRead => unfold State.popRead; split <;> exact { hs with }
  case opened => exact { hs with sent := rfl, closedEmpty := fun _ => rfl }
  case closed => exact { hs with sent := rfl, closedEmpty := fun _ => rfl }
  case setOutcome short _ => exact { hs with oneOutcome := by cases short <;> simp [State.setOutcome] }
  case setCaloff y p _ hy hp => exact { hs with yawDecimal := hy, pitchDecimal := hp }
  case save b _ => rw [State.memWrite_frame]; exact { hs with }
  all_goals exact { hs with }

theorem Effects.keeps_inv {i : Instr} {s t : State} (h : Effects i s t) (hs : s.InvInside) : t.InvInside := by
  induction h with
  | refl => exact hs
  | tail _ hstep ih => exact hstep.keeps_inv ih

theorem State.Inv.refuse {s : State} (h : s.Inv) (c : Cause) : (s.refuse c).Inv := { h with }

theorem State.Inv.arrive {s : State} (h : s.Inv) (bs : List Byte) : (s.arrive bs).Inv := by
  unfold State.arrive
  split
  · rename_i hb
    exact { h with closedEmpty := fun hclosed => absurd (hb.symm.trans hclosed) nofun }
  · exact h

/-- Every instruction keeps the invariant: a response is delivered with `SEQ` idle again. -/
theorem exec_keeps_inv {i : Instr} {s t : State} (h : exec i s = .next t) (hs : s.Inv) : t.Inv := by
  cases exec_ends i s t h with
  | refused c => exact hs.refuse c
  | arrived _ bs => exact hs.arrive bs
  | delivered hchain e r => exact { hchain.keeps_inv hs.inside with idle := rfl }

/-! ## What one step can do -/

/-- A host that has ended has no plan left (R223, R233). -/
def HostState.Rests (h : HostState) : Prop := h.ended = true → h.plan = []

theorem HostState.rests_of_going {h : HostState} (hgo : h.ended = false) : h.Rests :=
  fun hend => absurd (hgo.symm.trans hend) nofun

/-- What one step does to the block. -/
inductive BlockAct (s : State) : State → Prop where
  | nothing : BlockAct s s
  | instr {i : Instr} {t : State} (h : exec i s = .next t) : BlockAct s t
  | refuse (c : Cause) : BlockAct s (s.refuse c)
  | arrive (bs : List Byte) : BlockAct s (s.arrive bs)
  | elapse (us : Nat) : BlockAct s (s.elapse us)
  | storeEdit (c : Option (List Byte)) : BlockAct s { s with calmem := c }

/-- The block acts, and then the host keeps its own books: only host-owned state changes after the block. -/
def BlockThenHost (s t : State) : Prop :=
  ∃ (u : State) (h : HostState), BlockAct s u ∧ t = { u with host := h } ∧ (s.host.Rests → h.Rests)

theorem BlockAct.host {s t : State} (h : BlockAct s t) : t.host = s.host := by
  cases h with
  | instr h => exact (exec_outside _ _ _ h).1
  | arrive bs => exact (s.arrive_outside bs).1
  | nothing | refuse | elapse | storeEdit => rfl

theorem BlockAct.cfg {s t : State} (h : BlockAct s t) : t.cfg = s.cfg := by
  cases h with
  | instr h => exact (exec_outside _ _ _ h).2.2
  | arrive bs => exact (s.arrive_outside bs).2.2
  | nothing | refuse | elapse | storeEdit => rfl

theorem BlockAct.keeps_inv {s t : State} (h : BlockAct s t) (hs : s.Inv) : t.Inv := by
  cases h with
  | instr h => exact exec_keeps_inv h hs
  | refuse c => exact hs.refuse c
  | arrive bs => exact hs.arrive bs
  | nothing => exact hs
  | elapse | storeEdit => exact { hs with }

/-- The block acts and the host does nothing. -/
theorem BlockAct.alone {s t : State} (h : BlockAct s t) : BlockThenHost s t :=
  ⟨t, t.host, h, rfl, by rw [h.host]; exact id⟩

/-- The host acts alone. -/
theorem BlockThenHost.host_only {s : State} {h : HostState} (hr : s.host.Rests → h.Rests) :
    BlockThenHost s { s with host := h } := ⟨s, h, .nothing, rfl, hr⟩

/-- A host that has not ended begins a plan. -/
theorem BlockThenHost.plan {s : State} (hgo : s.host.ended = false) (acts : List HostAct) :
    BlockThenHost s (s.plan acts) := .host_only fun _ => HostState.rests_of_going hgo

/-- R223, R228, R231, R232: the guard on an operation of a host that has not ended touches the host only. -/
theorem State.guarded_host (g : Guard) (op : Byte) (e : Cause) (s : State) (hgo : s.host.ended = false) :
    ∃ h : HostState, s.guarded g op e = { s with host := h } ∧ h.Rests := by
  cases g with
  | report => exact ⟨s.host, rfl, HostState.rests_of_going hgo⟩
  | abort => exact ⟨_, rfl, fun _ => rfl⟩
  | shutdown => exact ⟨_, rfl, HostState.rests_of_going hgo⟩
  | logContinue => exact ⟨_, rfl, HostState.rests_of_going hgo⟩

theorem issueRequest_act {r : Request} {s t : State} (h : issueRequest r s = .next t) : BlockAct s t := by
  unfold issueRequest at h
  split at h
  · exact .instr h
  · cases h; exact .refuse _
  · cases h

theorem presentFetch_act {f : Fetch} {s t : State} (h : presentFetch f s = .next t) : BlockAct s t := by
  cases f with
  | request r => exact issueRequest_act h
  | outFrame bs =>
    simp only [presentFetch] at h
    split at h
    · exact .instr h
    · cases h
  | inFrame bs =>
    simp only [presentFetch] at h
    split at h
    · exact .instr h
    · cases h; exact .arrive bs

/-- An action of the plan of a host that has not ended. -/
theorem runAct_cases {a : HostAct} {s t : State} (hgo : s.host.ended = false) (h : runAct a s = .next t) :
    BlockThenHost s t := by
  cases a with
  | issue r g =>
    simp only [runAct] at h
    split at h
    · rename_i u hu
      have hact : BlockAct s u := issueRequest_act hu
      cases h
      split
      · exact hact.alone
      · obtain ⟨hst, heq, hrests⟩ := u.guarded_host g r.op u.lastError (hact.host ▸ hgo)
        exact ⟨u, hst, hact, heq, fun _ => hrests⟩
    · cases h
    · cases h
  | wait us => cases h; exact (BlockAct.elapse us).alone
  | decide c elapsed =>
    cases h
    unfold State.decideTick
    dsimp only
    split
    · exact .plan hgo _
    · exact .plan hgo _
  | commit y p => cases h; exact .host_only fun _ => HostState.rests_of_going hgo
  | enterRunning => cases h; exact .host_only fun _ => HostState.rests_of_going hgo
  | exit => cases h; exact .host_only fun _ _ => rfl

theorem tick_cases (pose : Pose) (elapsed : Nat) {s : State} (hgo : s.host.ended = false) :
    BlockThenHost s (tick pose elapsed s) := by
  unfold tick
  split
  · exact .host_only fun _ => HostState.rests_of_going hgo
  · split
    · exact .host_only fun _ => HostState.rests_of_going hgo
    · exact .host_only fun _ => HostState.rests_of_going hgo

theorem runPseudo_cases (p : Pseudo) {s : State} (hgo : s.host.ended = false) : BlockThenHost s (runPseudo p s) := by
  cases p <;> exact .plan hgo _

theorem HostState.going_of_mayIssue {h : HostState} (hmay : h.mayIssue = true) : h.ended = false := by
  simp only [HostState.mayIssue, Bool.and_eq_true, Bool.not_eq_true'] at hmay
  exact hmay.1

/-- An event that the host's phase admits only under a condition has no effect without it. -/
theorem BlockThenHost.ite {s u : State} {c : Prop} [Decidable c] (h : c → BlockThenHost s u) :
    BlockThenHost s (if c then u else s) := by
  split
  · exact h ‹_›
  · exact BlockAct.nothing.alone

theorem runEvent_cases {e : Event} {s t : State} (h : runEvent e s = .next t) : BlockThenHost s t := by
  cases e with
  | present f => exact (presentFetch_act h).alone
  | wait us => cases h; exact (BlockAct.elapse us).alone
  | storeEdit c => cases h; exact .ite fun _ => (BlockAct.storeEdit c).alone
  | pseudo p => cases h; exact .ite fun hmay => runPseudo_cases p (HostState.going_of_mayIssue hmay)
  | calibrate => cases h; exact .ite fun hmay => .plan (HostState.going_of_mayIssue hmay.1) _
  | hostStart =>
    cases h
    exact .ite fun ⟨_, _, hgo⟩ => .host_only fun _ => HostState.rests_of_going hgo
  | hostTick pose elapsed => cases h; exact .ite fun ⟨_, hgo⟩ => tick_cases pose elapsed hgo
  | hostStop => cases h; exact .host_only id
  | hostException => cases h; exact .ite fun ⟨_, hgo⟩ => .host_only fun _ => HostState.rests_of_going hgo
  | proceed => cases h; exact BlockAct.nothing.alone

/-- The host's turn takes the first action of its plan. -/
theorem State.hostTurn_some {s u : State} {a : HostAct} (h : s.hostTurn = some (a, u)) :
    ∃ (p : List HostAct) (rest : List Event), s.host.plan = a :: p ∧
      u = { s with host := { s.host with plan := p }, inbox := rest } := by
  unfold State.hostTurn at h
  split at h
  · cases h
  · rename_i b p hplan
    dsimp only at h
    split at h
    · cases h; exact ⟨p, s.inbox, hplan, rfl⟩
    · split at h
      · cases h
      · split at h <;> cases h
        · exact ⟨p, _, hplan, rfl⟩
        · exact ⟨p, s.inbox, hplan, rfl⟩

/-- A step takes an event from the inbox or an action from the plan, or nothing; then the block acts, and then the host
keeps its books. -/
theorem step_cases {s t : State} (h : step s = .next t) :
    ∃ (p : List HostAct) (rest : List Event),
      (s.host.Rests → HostState.Rests { s.host with plan := p }) ∧
        BlockThenHost { s with host := { s.host with plan := p }, inbox := rest } t := by
  unfold step at h
  split at h
  case isFalse => cases h
  unfold State.runNext at h
  split at h
  · rename_i a u hturn
    obtain ⟨p, rest, hplan, rfl⟩ := s.hostTurn_some hturn
    refine ⟨p, rest, fun hrests hend => absurd (hrests hend) (by simp [hplan]), ?_⟩
    split at h
    · cases h; exact BlockAct.nothing.alone
    · rename_i hgo
      exact runAct_cases (Bool.eq_false_iff.mpr hgo) h
  · refine ⟨s.host.plan, ?_⟩
    split at h
    · cases h; exact ⟨s.inbox, id, BlockAct.nothing.alone⟩
    · rename_i e rest _
      exact ⟨rest, id, runEvent_cases h⟩

/-! ## The obligations -/

/-- Settles O45: neither the block nor the host's books touch the configuration. -/
theorem configurationIsConstant : Obligations.ConfigurationIsConstant := by
  unfold Obligations.ConfigurationIsConstant
  intro s t h
  obtain ⟨p, rest, _, u, hst, hact, rfl, _⟩ := step_cases h
  exact hact.cfg

/-- The invariant speaks of the host only where it has ended. -/
theorem State.Inv.withHost {s : State} (hs : s.Inv) {h : HostState} (hr : h.Rests) :
    State.Inv { s with host := h } := { hs with endedIdle := hr }

/-- Settles O53: what a step takes, the block's act and the host's books keep the invariant one after the other. -/
theorem everyStepKeepsTheInvariant : Obligations.EveryStepKeepsTheInvariant := by
  unfold Obligations.EveryStepKeepsTheInvariant
  intro s t hs h
  obtain ⟨p, rest, htaken, u, hst, hact, rfl, hrests⟩ := step_cases h
  have hpost : HostState.Rests { s.host with plan := p } := htaken hs.endedIdle
  have hinv : State.Inv { s with host := { s.host with plan := p }, inbox := rest } := { hs with endedIdle := hpost }
  exact (hact.keeps_inv hinv).withHost (hrests hpost)

/-- R55: a configuration that passes its check has the invariant after reset, whatever the store holds. -/
theorem State.powerOn_inv {c : Deployment} (hc : Deployment.ok c = true) (store : Option (List Byte)) :
    (State.powerOn c store).Inv where
  idle := rfl
  sent := rfl
  delayOver := rfl
  timeoutOver := rfl
  txSize := rfl
  txLen := .inl rfl
  rxSize := rfl
  rxLen := Nat.zero_le _
  closedEmpty _ := rfl
  oneOutcome h := absurd h.1 nofun
  yawDecimal := finiteDecimal_zero
  pitchDecimal := finiteDecimal_zero
  errRecorded := rfl
  memCanonical := ⟨List.Pairwise.nil, nofun⟩
  memTorque := nofun
  dirtyUnknown _ := rfl
  faultDirty h := absurd rfl h
  configured := hc
  endedIdle _ := rfl

/-- The configuration that the reset state names passes its check (R293; log entries 5 to 8). -/
theorem exampleDeployment_ok : Deployment.ok exampleDeployment = true := by decide +kernel

/-- Settles O54: the case of `State.powerOn_inv` for the configuration that the reset state names. -/
theorem resetHasTheInvariant : Obligations.ResetHasTheInvariant :=
  State.powerOn_inv exampleDeployment_ok none

/-- R292, R293: what a reset gives is the power-on state of a configuration that passes its check. -/
theorem State.resetWith_some {c : Deployment} {store : Option (List Byte)} {s : State}
    (h : State.resetWith c store = some s) : Deployment.ok c = true ∧ s = State.powerOn c store := by
  unfold State.resetWith at h
  split at h
  · cases h; exact ⟨‹_›, rfl⟩
  · cases h

/-- Settles O51: the fields of `State.powerOn`, and the step with nothing to do. -/
theorem resetValuesAreTheTable : Obligations.ResetValuesAreTheTable := by
  unfold Obligations.ResetValuesAreTheTable
  intro c store s h
  obtain ⟨_, rfl⟩ := State.resetWith_some h
  have hstep : step (State.powerOn c store) = .next (State.powerOn c store) := step_nothing _ rfl rfl rfl
  exact ⟨rfl, rfl, rfl, rfl, rfl, rfl, rfl, rfl, rfl, rfl, rfl, rfl, rfl, rfl, rfl, rfl, rfl, rfl, rfl, rfl, rfl,
    fun _ => rfl, rfl, rfl, rfl, hstep⟩

/-! ## A step runs the decoded instruction -/

theorem issueRequest_decoded {r : Request} {i : Instr} (h : decode (.request r) = .ok i) (s : State) :
    issueRequest r s = exec i s := by
  have hr : decodeRequest r = .ok i := h
  simp only [issueRequest, hr]

theorem presentFetch_decoded {f : Fetch} {i : Instr} (h : decode f = .ok i) (s : State) :
    presentFetch f s = exec i s := by
  cases f with
  | request r => exact issueRequest_decoded h s
  | outFrame bs =>
    have hbs : decodeOut bs = .ok i := h
    simp only [presentFetch, hbs]
  | inFrame bs =>
    have hbs : decodeIn bs = .ok i := h
    simp only [presentFetch, hbs]

/-- Settles O47: `step_event` with the presented instruction, `step_act` with the request of the plan. -/
theorem stepRunsTheDecodedInstruction : Obligations.StepRunsTheDecodedInstruction := by
  unfold Obligations.StepRunsTheDecodedInstruction
  refine ⟨fun s f rest i hidle hin hturn hdec => ?presented, fun s r g p i hidle hplan hgo hwaits hdec => ?planned⟩
  case presented =>
    have himm : s.host.plan = [] ∨ (Event.present f).immediate = true := by
      obtain hp | ⟨bs, rfl⟩ := hturn
      · exact .inl hp
      · exact .inr rfl
    rw [step_event s _ rest hidle hin himm]
    exact presentFetch_decoded hdec _
  case planned =>
    obtain ⟨t, ht⟩ := exec_next i { s with host := { s.host with plan := p } }
    refine ⟨t, ht, ?_⟩
    rw [step_act s _ _ hidle (s.hostTurn_waits _ p hplan hwaits) hgo]
    simp only [runAct, issueRequest_decoded hdec, ht]

end Sys2Proof.Machine
end

section
/-! PROOFS, family 20_memory: which instruction writes the offsets, the calibration store and `CAL_STATUS`, derived from
the elementary updates of an instruction; and what `CAL_LD` sees of the store, from the three ends of a load. -/

namespace Sys2Proof.Machine

/-! ## Who writes the calibration -/

/-- R89, R33, R36, R45: from `s` to `t`, instruction `i` wrote of the calibration only what is its own to write. -/
structure CalibrationKept (i : Instr) (s t : State) : Prop where
  offsets : i ≠ .calLd → i ≠ .calRun → t.caloffYaw = s.caloffYaw ∧ t.caloffPitch = s.caloffPitch
  store : (∀ y p : Deg, i ≠ .calSv y p) → i ≠ .calRun → t.calmem = s.calmem
  status : i ≠ .calLd → t.calStatus = s.calStatus
  decimal : finiteDecimal s.caloffYaw = true → finiteDecimal s.caloffPitch = true →
    finiteDecimal t.caloffYaw = true ∧ finiteDecimal t.caloffPitch = true

section

variable {i : Instr} {s t u : State}

theorem CalibrationKept.refl (i : Instr) (s : State) : CalibrationKept i s s :=
  ⟨fun _ _ => ⟨rfl, rfl⟩, fun _ _ => rfl, fun _ => rfl, fun hy hp => ⟨hy, hp⟩⟩

theorem CalibrationKept.trans (h : CalibrationKept i s t) (k : CalibrationKept i t u) : CalibrationKept i s u where
  offsets hld hrun := ⟨(k.offsets hld hrun).1.trans (h.offsets hld hrun).1,
    (k.offsets hld hrun).2.trans (h.offsets hld hrun).2⟩
  store hsv hrun := (k.store hsv hrun).trans (h.store hsv hrun)
  status hld := (k.status hld).trans (h.status hld)
  decimal hy hp := (h.decimal hy hp).elim k.decimal

/-- The three reserved updates carry the operation that may make them, and new offsets are finite decimals; every other
update leaves the calibration as it is. -/
theorem Effect.calibration (h : Effect i s t) : CalibrationKept i s t := by
  have hsame := CalibrationKept.refl i s
  cases h
  case setCaloff y p hi hy hp =>
    exact { hsame with offsets := fun hld hrun => (hi.elim hld hrun).elim, decimal := fun _ _ => ⟨hy, hp⟩ }
  case setCalStatus st hi => exact { hsame with status := fun hld => absurd hi hld }
  case save b hi =>
    have hreserved (hsv : ∀ y p : Deg, i ≠ .calSv y p) (hrun : i ≠ .calRun) : False :=
      hi.elim (fun ⟨y, p, hi⟩ => hsv y p hi) hrun
    rw [State.memWrite_frame]
    exact { hsame with store := fun hsv hrun => (hreserved hsv hrun).elim }
  case write bs => rw [State.busWrite_frame]; exact { hsame with }
  case read n _ => rw [State.busRead_frame]; exact { hsame with }
  case popRead => unfold State.popRead; split <;> exact { hsame with }
  all_goals exact { hsame with }

theorem Effects.calibration (h : Effects i s t) : CalibrationKept i s t := by
  induction h with
  | refl => exact .refl i s
  | tail _ hstep ih => exact ih.trans hstep.calibration

theorem Ends.calibration (h : Ends i s t) : CalibrationKept i s t := by
  have hsame := CalibrationKept.refl i s
  cases h with
  | refused c => exact { hsame with }
  | arrived _ bs => unfold State.arrive; split <;> exact { hsame with }
  | delivered hchain e r => exact { hchain.calibration with }

end

/-- Settles O44: `Ends.calibration` of the instruction, and `exec_outside` for the configuration. -/
theorem calibrationWrittenOnlyByItsOperations : Obligations.CalibrationWrittenOnlyByItsOperations := by
  unfold Obligations.CalibrationWrittenOnlyByItsOperations
  intro i s t h
  obtain ⟨hoffsets, hstore, hstatus, hdecimal⟩ := (exec_ends i s t h).calibration
  obtain ⟨_, _, hcfg⟩ := exec_outside i s t h
  exact ⟨hoffsets, hstore, hstatus, hcfg, fun _ => hdecimal⟩

/-! ## Reading the store -/

section

variable {s : State} {m : List Byte}

/-- R76, log entry 4: a read that the script says nothing of is whole. -/
theorem State.nextRead_nil (h : s.env.reads = []) : s.nextRead = .whole := by
  unfold State.nextRead; rw [h]

theorem State.nextRead_cons {d : ReadDraw} {rest : List ReadDraw} (h : s.env.reads = d :: rest) : s.nextRead = d := by
  unfold State.nextRead; rw [h]

/-- A `MemRead` of an absent store draws nothing (R75). -/
theorem State.popRead_none (h : s.calmem = none) : s.popRead = s := by
  unfold State.popRead; rw [h]

theorem State.popRead_env_cons {d : ReadDraw} {rest : List ReadDraw} (h : s.calmem = some m)
    (hr : s.env.reads = d :: rest) : s.popRead.env = { s.env with reads := rest } := by
  unfold State.popRead; rw [h]; simp [hr]

end

/-! ## How a load ends -/

/-- The state in which a load ends (R197): the three phases of R41 walked, the read's draw used up, the offsets and their
status committed, and the offsets answered. -/
def State.loadEnd (y p : Deg) (st : CalStatus) (c : Cause) (l : List LogRecord) (s : State) : State :=
  State.complete (.degPair y p)
    { s with seqTrace := [.clRead, .clParse, .clCommit], caloffYaw := y, caloffPitch := p, calStatus := st, err := c,
             log := l, env := s.popRead.env }

section

variable (s : State) (y p : Deg) (st : CalStatus) (c : Cause) (l : List LogRecord)

/-- The store and the bus are not among the fields a load touches. -/
theorem State.loadEnd_frame : s.loadEnd y p st c l =
    { s with seq := .idle, seqTrace := [.clRead, .clParse, .clCommit], caloffYaw := y, caloffPitch := p,
             calStatus := (s.loadEnd y p st c l).calStatus, err := (s.loadEnd y p st c l).err,
             log := (s.loadEnd y p st c l).log, env := (s.loadEnd y p st c l).env,
             resp := some ⟨(s.loadEnd y p st c l).statusWord, .none, .degPair y p⟩ } := rfl

/-- The phases of a load up to its commit (R41): the draw is used up, the rest is as before. -/
theorem State.loadPhases_eq : ((s.accept.enter .clRead).popRead.enter .clParse).enter .clCommit =
    { s with seq := .clCommit, seqTrace := [.clRead, .clParse, .clCommit], env := s.popRead.env } := by
  cases h : s.calmem <;> simp [State.popRead, State.accept, State.enter, h]

end

section

variable {s : State} {m : List Byte}

/-- R197, R75: no store is the default, with its record. -/
theorem opCalLd_absent (h : s.memRead = .absent) :
    opCalLd s = s.loadEnd 0 0 .absent .calFileMissing (s.log ++ [⟨.info, .calFileMissing⟩]) := by
  simp only [opCalLd, h, State.loadPhases_eq]; rfl

/-- R197, D20: a present store that cannot be read is malformed. -/
theorem opCalLd_failed (h : s.memRead = .failed) :
    opCalLd s = s.loadEnd 0 0 .malformed .calFileMalformed (s.log ++ [⟨.info, .calFileMalformed⟩]) := by
  simp only [opCalLd, h, State.loadPhases_eq]; rfl

/-- R197: bytes that do not parse are malformed. -/
theorem opCalLd_malformed (h : s.memRead = .content m) (hparse : parseCal m = none) :
    opCalLd s = s.loadEnd 0 0 .malformed .calFileMalformed (s.log ++ [⟨.info, .calFileMalformed⟩]) := by
  simp only [opCalLd, h, hparse, State.loadPhases_eq]; rfl

/-- R197: bytes that parse are loaded; `ERR` and the log stay as they were. -/
theorem opCalLd_loaded {y p : Deg} (h : s.memRead = .content m) (hparse : parseCal m = some (y, p)) :
    opCalLd s = s.loadEnd y p .loaded s.err s.log := by
  simp only [opCalLd, h, hparse, State.loadPhases_eq]; rfl

/-- A whole read ends loaded or malformed, as its bytes parse. -/
theorem opCalLd_content (h : s.memRead = .content m) : ∃ (y p : Deg) (st : CalStatus) (c : Cause) (l : List LogRecord),
    opCalLd s = s.loadEnd y p st c l ∧
      ((st = .loaded ∧ parseCal m = some (y, p)) ∨ (st = .malformed ∧ parseCal m = none)) ∧
      (st ≠ .loaded → y = 0 ∧ p = 0) := by
  cases hparse : parseCal m with
  | none => exact ⟨0, 0, _, _, _, opCalLd_malformed h hparse, .inr ⟨rfl, rfl⟩, fun _ => ⟨rfl, rfl⟩⟩
  | some d => exact ⟨d.1, d.2, _, _, _, opCalLd_loaded h hparse, .inl ⟨rfl, rfl⟩, fun hst => absurd rfl hst⟩

end

/-- Settles O14: an absent store, a whole read and a failed read each have their end of the load. -/
theorem calLdSeesTheStore : Obligations.CalLdSeesTheStore := by
  unfold Obligations.CalLdSeesTheStore
  intro s
  obtain ⟨hmem, hread⟩ | ⟨m, hmem, ⟨hdraw, hread⟩ | ⟨hdraw, hread⟩⟩ := s.memRead_cases
  case inl =>
    have hnone {m : List Byte} (hm : s.calmem = some m) : False := absurd (hmem.symm.trans hm) nofun
    have henv : s.popRead.env = s.env := congrArg State.env (State.popRead_none hmem)
    exact ⟨_, 0, 0, congrArg Host.Outcome.next (opCalLd_absent hread), State.loadEnd_frame .., fun _ => ⟨rfl, henv⟩,
      fun _ hm => (hnone hm).elim, fun _ _ hm => (hnone hm).elim, fun _ _ hm => (hnone hm).elim, fun _ => ⟨rfl, rfl⟩⟩
  case inr.inl =>
    obtain ⟨y, p, st, c, l, hop, hst, hzero⟩ := opCalLd_content hread
    refine ⟨_, y, p, congrArg Host.Outcome.next hop, State.loadEnd_frame .., fun hm => absurd (hmem.symm.trans hm) nofun,
      fun m' hm _ => ?unscripted, fun m' rest hm hreads => ?whole, fun m' rest _ hreads => ?failed, hzero⟩
    case unscripted => cases hmem.symm.trans hm; exact hst
    case whole => cases hmem.symm.trans hm; exact ⟨State.popRead_env_cons hmem hreads, hst⟩
    case failed => exact absurd (hdraw.symm.trans (State.nextRead_cons hreads)) nofun
  case inr.inr =>
    refine ⟨_, 0, 0, congrArg Host.Outcome.next (opCalLd_failed hread), State.loadEnd_frame ..,
      fun hm => absurd (hmem.symm.trans hm) nofun, fun m' _ hreads => ?unscripted, fun m' rest _ hreads => ?whole,
      fun m' rest _ hreads => ?failed, fun _ => ⟨rfl, rfl⟩⟩
    case unscripted => exact absurd (hdraw.symm.trans (State.nextRead_nil hreads)) nofun
    case whole => exact absurd (hdraw.symm.trans (State.nextRead_cons hreads)) nofun
    case failed => exact ⟨rfl, rfl, rfl, State.popRead_env_cons hmem hreads⟩

end Sys2Proof.Machine
end

section
/-! PROOFS, family 30_encoding: decode and encode in both directions, from which byte strings fit a frame row; the
position a response carries; and what a whole frame leaves that goes out as an instruction on a spaced line. -/

namespace Sys2Proof.Machine

/-! ## Decode after encode -/

/-- Settles O49: the law of each constructor. -/
theorem decodeOfEncodeIsTheInstruction : Obligations.DecodeOfEncodeIsTheInstruction := by
  unfold Obligations.DecodeOfEncodeIsTheInstruction
  intro i
  cases i with
  | tqFree id sum => exact Laws.RoundTrip.tqFree id sum
  | tqNormal id sum => exact Laws.RoundTrip.tqNormal id sum
  | sp id lo hi sum => exact Laws.RoundTrip.sp id lo hi sum
  | rq id sum => exact Laws.RoundTrip.rq id sum
  | rs size cmd status id lo hi sum pad => exact Laws.RoundTrip.rs size cmd status id lo hi sum pad
  | bOpen => exact Laws.RoundTrip.bOpen
  | bClose => exact Laws.RoundTrip.bClose
  | bFlush => exact Laws.RoundTrip.bFlush
  | bWrite bytes => exact Laws.RoundTrip.bWrite bytes
  | bRead n => exact Laws.RoundTrip.bRead n
  | tqOn id => exact Laws.RoundTrip.tqOn id
  | tqOff id => exact Laws.RoundTrip.tqOff id
  | setpos id deg => exact Laws.RoundTrip.setpos id deg
  | rdpos id => exact Laws.RoundTrip.rdpos id
  | axMap sel deg => exact Laws.RoundTrip.axMap sel deg
  | calApply sel deg => exact Laws.RoundTrip.calApply sel deg
  | d2r deg => exact Laws.RoundTrip.d2r deg
  | r2d raw => exact Laws.RoundTrip.r2d raw
  | calLd => exact Laws.RoundTrip.calLd
  | calSv deg deg2 => exact Laws.RoundTrip.calSv deg deg2
  | calRun => exact Laws.RoundTrip.calRun
  | csum bytes => exact Laws.RoundTrip.csum bytes
  | encTq id mode => exact Laws.RoundTrip.encTq id mode
  | encSp id raw => exact Laws.RoundTrip.encSp id raw
  | encRd id => exact Laws.RoundTrip.encRd id
  | decRd bytes => exact Laws.RoundTrip.decRd bytes

/-- Settles O48: each word written out is the encoding of its instruction, so O49 decodes it. -/
theorem writtenOutWordsDecode : Obligations.WrittenOutWordsDecode := by
  unfold Obligations.WrittenOutWordsDecode
  have back : ∀ i : Instr, WellFormed i → decode (encode i) = .ok i := decodeOfEncodeIsTheInstruction
  exact ⟨back (.tqFree 0x01 0x38) rfl, back (.tqNormal 0x01 0x36) rfl, back (.sp 0x00 0x40 0x1F 0x6E) rfl,
    back (.rq 0x01 0x39) rfl, back (.rs 0x07 0x00 0x00 0x00 0xD2 0x04 0xDD []) rfl, back (.tqOn 0x01) rfl,
    back .calRun rfl, back (.encSp 0x01 0x1F40) rfl⟩

/-! ## Which byte strings fit a frame row -/

section

variable (p : Byte) (pat mask bs : List Byte)

/-- A row that asks for nothing more fits the end of the string only. -/
theorem FrameRow.fits_end : FrameRow.fits ⟨[], []⟩ bs = true ↔ bs = [] := by
  cases bs <;> simp [FrameRow.fits]

/-- R119: what a row asks of the first byte, and of the rest. -/
theorem FrameRow.fits_cons (m : Byte) : FrameRow.fits ⟨p :: pat, m :: mask⟩ bs = true ↔
    ∃ b rest, bs = b :: rest ∧ b &&& m = p ∧ FrameRow.fits ⟨pat, mask⟩ rest = true := by
  cases bs with
  | nil => simp [FrameRow.fits]
  | cons b rest => simp [FrameRow.fits, and_left_comm]

/-- A byte whose mask is full is fixed by the row. -/
theorem FrameRow.fits_fixed : FrameRow.fits ⟨p :: pat, 0xFF :: mask⟩ bs = true ↔
    ∃ rest, bs = p :: rest ∧ FrameRow.fits ⟨pat, mask⟩ rest = true := by
  have full (b : Byte) : b &&& 0xFF = b := BitVec.and_allOnes
  simp only [FrameRow.fits_cons, full]
  constructor
  · rintro ⟨_, rest, rfl, rfl, hrest⟩
    exact ⟨rest, rfl, hrest⟩
  · rintro ⟨rest, rfl, hrest⟩
    exact ⟨p, rest, rfl, rfl, hrest⟩

/-- A byte whose mask is empty is an operand. -/
theorem FrameRow.fits_operand : FrameRow.fits ⟨0 :: pat, 0 :: mask⟩ bs = true ↔
    ∃ b rest, bs = b :: rest ∧ FrameRow.fits ⟨pat, mask⟩ rest = true := by
  simp [FrameRow.fits_cons]

end

section

variable (bs : List Byte)

/-- R102, read off the row byte by byte. -/
theorem rowTqFree_fits_iff :
    rowTqFree.fits bs = true ↔ ∃ id sum : Byte, bs = [0x08, 0x04, 0x00, id, 0x02, 0x28, 0x01, sum] := by
  simp only [rowTqFree, FrameRow.fits_fixed, FrameRow.fits_operand, FrameRow.fits_end]
  grind

theorem rowTqNormal_fits_iff :
    rowTqNormal.fits bs = true ↔ ∃ id sum : Byte, bs = [0x08, 0x04, 0x00, id, 0x00, 0x28, 0x01, sum] := by
  simp only [rowTqNormal, FrameRow.fits_fixed, FrameRow.fits_operand, FrameRow.fits_end]
  grind

/-- R103. -/
theorem rowSp_fits_iff :
    rowSp.fits bs = true ↔ ∃ id lo hi sum : Byte, bs = [0x09, 0x06, 0x00, id, lo, hi, 0x00, 0x00, sum] := by
  simp only [rowSp, FrameRow.fits_fixed, FrameRow.fits_operand, FrameRow.fits_end]
  grind

end

/-! ## Encode after decode -/

/-- R102 to R104: each row fixes every byte that is no operand of its instruction. -/
theorem encode_of_decodeOut {bs : List Byte} {i : Instr} (h : decodeOut bs = .ok i) : encode i = .outFrame bs := by
  unfold decodeOut at h
  split at h
  next hfree =>
    obtain ⟨id, sum, rfl⟩ := (rowTqFree_fits_iff bs).mp hfree
    cases h; rfl
  split at h
  next hnormal =>
    obtain ⟨id, sum, rfl⟩ := (rowTqNormal_fits_iff bs).mp hnormal
    cases h; rfl
  split at h
  next hsp =>
    obtain ⟨id, lo, hi, sum, rfl⟩ := (rowSp_fits_iff bs).mp hsp
    cases h; rfl
  split at h
  next hrq =>
    obtain ⟨id, sum, rfl⟩ := (rowRq_fits_iff bs).mp hrq
    cases h; rfl
  next => cases h

/-- R105: a response of at least 7 bytes has its seven bytes and a padding. -/
theorem exists_response_of_length {bs : List Byte} (h : 7 ≤ bs.length) :
    ∃ (b0 b1 b2 b3 b4 b5 b6 : Byte) (pad : List Byte), bs = [b0, b1, b2, b3, b4, b5, b6] ++ pad := by
  match bs, h with
  | b0 :: b1 :: b2 :: b3 :: b4 :: b5 :: b6 :: pad, _ => exact ⟨b0, b1, b2, b3, b4, b5, b6, pad, rfl⟩

theorem encode_of_decodeIn {bs : List Byte} {i : Instr} (h : decodeIn bs = .ok i) : encode i = .inFrame bs := by
  unfold decodeIn at h
  split at h
  next => cases h
  next hlong =>
    obtain ⟨b0, b1, b2, b3, b4, b5, b6, pad, rfl⟩ := exists_response_of_length (Nat.le_of_not_lt hlong)
    split at h
    next => cases h
    next => cases h; rfl

/-- R119: strings of two outgoing rows differ in their length or, those of the two torque rows, at offset 4. -/
theorem outgoing_rows_disjoint : [rowTqFree, rowTqNormal, rowSp, rowRq].Pairwise fun a b =>
    ∀ bs : List Byte, ¬(a.fits bs = true ∧ b.fits bs = true) := by
  simp only [List.pairwise_cons, List.forall_mem_cons, rowTqFree_fits_iff, rowTqNormal_fits_iff, rowSp_fits_iff,
    rowRq_fits_iff]
  simp +contextual

/-- Settles O50: both directions of the line, and the rows pairwise. -/
theorem encodeOfDecodedFrameIsTheFrame : Obligations.EncodeOfDecodedFrameIsTheFrame := by
  unfold Obligations.EncodeOfDecodedFrameIsTheFrame
  exact ⟨fun _ _ => encode_of_decodeOut, fun _ _ => encode_of_decodeIn, outgoing_rows_disjoint⟩

/-! ## The position of a response -/

/-- R108: the two bytes of a position, low byte first. -/
theorem le16_toNat (lo hi : Byte) : (le16 lo hi).toNat = lo.toNat + 256 * hi.toNat := by
  rw [le16, BitVec.toNat_append, ← Nat.shiftLeft_add_eq_or_of_lt lo.isLt, Nat.shiftLeft_eq]
  omega

/-- R108: the signed reading has the value of the unsigned one, or 65536 less. -/
theorem le16_toInt_cases (lo hi : Byte) : -32768 ≤ (le16 lo hi).toInt ∧ (le16 lo hi).toInt ≤ 32767 ∧
    ((le16 lo hi).toInt = lo.toNat + 256 * hi.toNat ∨
      (le16 lo hi).toInt = (lo.toNat + 256 * hi.toNat : Int) - 65536) := by
  have hnat := le16_toNat lo hi
  have hint := BitVec.toInt_eq_toNat_cond (le16 lo hi)
  split at hint <;> omega

/-- R136: `DEC_RD` of a string that carries a position. -/
theorem exec_decRd_of_position {bytes : List Byte} {v : Raw} (h : decodeResponse bytes = some v) (s : State) :
    exec (.decRd bytes) s = .next ((s.accept.enter .exec).complete (.raw v)) := by
  simp only [exec, execDecRd, opDecRd, h]

/-- R136: the length is the only test, offsets 4 and 5 the only bytes read. -/
theorem decodeResponse_append (b0 b1 b2 b3 lo hi b6 : Byte) (pad : List Byte) :
    decodeResponse ([b0, b1, b2, b3, lo, hi, b6] ++ pad) = some (get16le lo hi) := by
  simp [decodeResponse, params]

/-- Settles O5: the answer is `get16le` of the bytes at offsets 4 and 5. -/
theorem decRdReadsOffsetsFourAndFive : Obligations.DecRdReadsOffsetsFourAndFive := by
  unfold Obligations.DecRdReadsOffsetsFourAndFive
  intro s b0 b1 b2 b3 lo hi b6 pad
  exact ⟨_, get16le lo hi, exec_decRd_of_position (decodeResponse_append ..) s, rfl, le16_toInt_cases lo hi⟩

/-! ## A whole frame on a spaced line -/

section

variable {s : State} {f : List Byte} {m : Memory}

/-- A whole frame has its effect on a clean line; on one that was not nothing is known (R150; log entry 14). -/
theorem State.actuate_wholeFrame (heffect : actuatorEffect (s.tmrGap.atLeast params.tTorque) f s.actMem = some m) :
    s.actuate f = { s with actMem := if s.lineClean = true then m else [] } := by
  rw [State.actuate_frame]
  cases hc : s.lineClean with
  | true =>
    obtain ⟨hmem, hclean⟩ := s.actuate_clean f m hc heffect
    rw [hmem, hclean, if_pos rfl]
  | false =>
    obtain ⟨hmem, hclean⟩ := s.actuate_dirty f hc
    rw [hmem, hclean, if_neg Bool.false_ne_true]

/-- R152: everything that a `B_WRITE` of one whole frame changes. -/
theorem opWrite_wholeFrame (hf : f ≠ []) (hb : s.busOpen = true) (hq : s.txq = []) (hspaced : s.lineSpaced = true)
    (hw : s.nextWrite = .ok)
    (heffect : actuatorEffect (s.tmrGap.atLeast params.tTorque) f s.actMem = some m) :
    ∃ t : State, opWrite f s = t ∧
      t = { s with seq := .idle, seqTrace := [.writing], wire := s.wire ++ [.wrote f], tmrGap := .since 0,
                   rqWindow := carriesRequest f, actMem := if s.lineClean = true then m else [],
                   env := { s.env with writes := s.env.writes.tail }, draws := s.draws + 1,
                   resp := some ⟨t.statusWord, .none, .none⟩ } := by
  obtain ⟨hgap, hwindow⟩ := s.lineSpaced_iff.mp hspaced
  have hwrite := State.busWrite_spaced (s.accept.enter .writing) f hf hgap hwindow hq hw
  rw [State.actuate_wholeFrame (s := s.accept.enter .writing) heffect] at hwrite
  refine ⟨_, rfl, ?_⟩
  simp only [opWrite, s.needBus_open _ hb, State.writeAndEnd, hwrite]
  rfl

/-- The same for a frame that is no read request: it leaves the window as it was. -/
theorem opWrite_commandFrame (hf : f ≠ []) (hb : s.busOpen = true) (hq : s.txq = []) (hspaced : s.lineSpaced = true)
    (hw : s.nextWrite = .ok) (hreq : carriesRequest f = false)
    (heffect : actuatorEffect (s.tmrGap.atLeast params.tTorque) f s.actMem = some m) :
    ∃ t : State, opWrite f s = t ∧
      t = { s with seq := .idle, seqTrace := [.writing], wire := s.wire ++ [.wrote f], tmrGap := .since 0,
                   actMem := t.actMem, env := { s.env with writes := s.env.writes.tail }, draws := s.draws + 1,
                   resp := some ⟨t.statusWord, .none, .none⟩ } ∧
      (s.lineClean = true → t.actMem = m) ∧ (s.lineClean = false → ∀ a : Nat, t.actMem.read a = none) := by
  obtain ⟨t, hop, ht⟩ := opWrite_wholeFrame hf hb hq hspaced hw heffect
  obtain ⟨_, hwindow⟩ := s.lineSpaced_iff.mp hspaced
  have hmem : t.actMem = if s.lineClean = true then m else [] := congrArg State.actMem ht
  refine ⟨t, hop, ?_, fun hc => by rw [hmem, if_pos hc], fun hc a => ?_⟩
  · rwa [hreq, ← hwindow, ← hmem] at ht
  · rw [hmem, hc, if_neg Bool.false_ne_true, Memory.read]

end

/-! ## The frame rows as instructions -/

section

variable {id lo hi sum : Byte}

theorem sum_of_tqFree_wf (h : WellFormed (.tqFree id sum)) : sum = 0x37 + id :=
  (eq_of_beq h).trans (eq_of_beq (lineFree_wf id)).symm

theorem sum_of_tqNormal_wf (h : WellFormed (.tqNormal id sum)) : sum = 0x35 + id :=
  (eq_of_beq h).trans (eq_of_beq (lineNormal_wf id)).symm

theorem sum_of_sp_wf (h : WellFormed (.sp id lo hi sum)) : sum = 0x0F + id + lo + hi :=
  (eq_of_beq h).trans (eq_of_beq (linePosition_wf id lo hi)).symm

theorem sum_of_rq_wf (h : WellFormed (.rq id sum)) : sum = 0x38 + id :=
  (eq_of_beq h).trans (eq_of_beq (lineRequest_wf id)).symm

end

/-- Settles O35: the Free frame is a command frame, whose effect is to write the torque mode. -/
theorem freeFrameSetsTorqueMode : Obligations.FreeFrameSetsTorqueMode := by
  unfold Obligations.FreeFrameSetsTorqueMode
  intro s id sum hwf hb hq hspaced hw
  obtain rfl := sum_of_tqFree_wf hwf
  obtain ⟨t, hop, ht, hclean, hdirty⟩ := opWrite_commandFrame (f := lineFree id) (List.cons_ne_nil _ _) hb hq hspaced hw
    (carriesRequest_free _ _) (actuatorEffect_free _ _ _)
  refine ⟨t, congrArg Host.Outcome.next hop, ht, fun hc => ?_, hdirty⟩
  rw [hclean hc]
  exact ⟨Memory.read_write_same _ _ _, fun a ha => Memory.read_write_other _ _ a _ ha⟩

/-- Settles O36: the Normal frame is a command frame, which writes the torque mode after Free and the wait, and erases it
otherwise. -/
theorem normalFrameNeedsFreeFirst : Obligations.NormalFrameNeedsFreeFirst := by
  unfold Obligations.NormalFrameNeedsFreeFirst
  intro s id sum hwf hb hq hspaced hw
  obtain rfl := sum_of_tqNormal_wf hwf
  obtain ⟨t, hop, ht, hclean, hdirty⟩ := opWrite_commandFrame (f := lineNormal id) (List.cons_ne_nil _ _) hb hq hspaced
    hw (carriesRequest_normal _ _) (actuatorEffect_normal _ _ _)
  refine ⟨t, congrArg Host.Outcome.next hop, ht, ?mode, fun hc a ha => ?other, hdirty⟩
  case mode =>
    cases hc : s.lineClean with
    | false => simp [hdirty hc]
    | true =>
      rw [hclean hc, apply_ite (Memory.read · _), Memory.read_write_same, Memory.read_erase_same]
      simp [params]
  case other =>
    rw [hclean hc]
    split
    · exact Memory.read_write_other _ _ a _ ha
    · exact Memory.read_erase_other _ _ a ha

/-- Settles O37: the position frame is a command frame, whose effect is to erase the cells of `moved`. -/
theorem positionFrameMovesTheMechanism : Obligations.PositionFrameMovesTheMechanism := by
  unfold Obligations.PositionFrameMovesTheMechanism
  intro s id lo hi sum hwf hb hq hspaced hw
  obtain rfl := sum_of_sp_wf hwf
  obtain ⟨t, hop, ht, hclean, hdirty⟩ := opWrite_commandFrame
    (f := [0x09, 0x06, 0x00, id, lo, hi, 0x00, 0x00, 0x0F + id + lo + hi]) (List.cons_ne_nil _ _) hb hq hspaced hw
    (carriesRequest_sp _ _ _ _) (actuatorEffect_position _ _ _ _ _)
  refine ⟨t, congrArg Host.Outcome.next hop, ht, fun a ha => ?moved, fun hc a ha => ?other, hdirty⟩
  case moved =>
    cases hc : s.lineClean with
    | false => exact hdirty hc a
    | true => rw [hclean hc, Memory.read_erase_moved, if_pos ha]
  case other => rw [hclean hc, Memory.read_erase_moved, if_neg ha]

/-- Settles O38: the request has no effect on what is known and is a request on the line. -/
theorem readRequestOpensAWindow : Obligations.ReadRequestOpensAWindow := by
  unfold Obligations.ReadRequestOpensAWindow
  intro s id sum hwf hb hq hspaced hw
  obtain rfl := sum_of_rq_wf hwf
  obtain ⟨t, hop, ht⟩ := opWrite_wholeFrame (f := lineRequest id) (List.cons_ne_nil _ _) hb hq hspaced hw
    (actuatorEffect_request _ _ _)
  have hreq : carriesRequest (lineRequest id) = true := carriesRequest_rq id (0x38 + id)
  rw [hreq] at ht
  exact ⟨t, congrArg Host.Outcome.next hop, ht⟩

end Sys2Proof.Machine
end

section
/-! PROOFS, family 40_frame_codec: what the codec and the two conversions leave (one equation per instruction), the
checksum as a sum in the ring of bytes, the built frames, the round trip of a position through its frame, and how far a
rounded position is from the angle it was made of. -/

namespace Sys2Proof.Machine

/-! ## What the codec leaves -/

/-- What an operation of the single phase `EXEC` leaves that writes nothing (R130). -/
def State.answered (r : Result) (s : State) : State := (s.accept.enter .exec).complete r

/-- What an encoder leaves (R133 to R135): its frame in `TXBUF` and in the response. -/
def State.encoded (f : List Byte) (s : State) : State := ((s.accept.enter .exec).setTx f).complete (.bytes f)

section

variable (s : State)

@[simp] theorem State.answered_resp (r : Result) :
    (s.answered r).resp = some ⟨(s.answered r).statusWord, .none, r⟩ := rfl

@[simp] theorem State.encoded_resp (f : List Byte) :
    (s.encoded f).resp = some ⟨(s.encoded f).statusWord, .none, .bytes f⟩ := rfl

/-- R34: `TXBUF[0..TXLEN-1]` is the frame, whatever stood there. -/
@[simp] theorem State.encoded_take (f : List Byte) : (s.encoded f).txbuf.take (s.encoded f).txlen = f :=
  List.take_left

theorem exec_csum (bytes : List Byte) : exec (.csum bytes) s = .next (s.answered (.bytes [sum8 bytes])) := rfl

theorem exec_encTq_of_mode {mode : Byte} {m : TorqueMode} (h : modeOfByte mode = some m) (id : Byte) :
    exec (.encTq id mode) s = .next (s.encoded (frameTq id m)) := by
  simp only [exec, execEncTq, opEncTq, h, State.encoded]

/-- R116, R262: a mode outside the domain. -/
theorem exec_encTq_refused {mode : Byte} (h : modeOfByte mode = none) (id : Byte) :
    exec (.encTq id mode) s = .next (s.refuse .illegalOperand) := by
  simp only [exec, execEncTq, opEncTq, h]

theorem exec_encSp (id : Byte) (raw : Half) : exec (.encSp id raw) s = .next (s.encoded (frameSp id raw)) := rfl

theorem exec_encRd (id : Byte) : exec (.encRd id) s = .next (s.encoded (frameRd id)) := rfl

/-- R136: `DEC_RD` of a string that carries no position. -/
theorem exec_decRd_of_short {bytes : List Byte} (h : decodeResponse bytes = none) :
    exec (.decRd bytes) s = .next ((s.accept.enter .exec).deliver .shortResponse .none) := by
  simp only [exec, execDecRd, opDecRd, h]

theorem exec_d2r (d : Deg) : exec (.d2r d) s = .next (s.answered (.raw (degToRaw s.cfg.rawRound d))) := rfl

theorem exec_r2d (raw : Half) : exec (.r2d raw) s = .next (s.answered (.deg (rawToDeg raw.toInt))) := rfl

end

/-! ## The checksum -/

/-- R13: the accumulator's wrap is the addition of bytes, so the laws of a ring are at hand. -/
theorem sum8_eq_sum (l : List Byte) : sum8 l = l.sum := List.sum_eq_foldl.symm

theorem sum8_perm {l l' : List Byte} (h : l.Perm l') : sum8 l' = sum8 l := by
  rw [sum8_eq_sum, sum8_eq_sum, h.sum_eq]

theorem sum8_append_cons (l r : List Byte) (b : Byte) : sum8 (l ++ b :: r) = b + sum8 (l ++ r) := by
  simp only [sum8_eq_sum, List.sum_append, List.sum_cons]
  exact add_left_comm _ _ _

/-- Two strings have the same answer only if they have the same sum. -/
theorem sum8_eq_of_exec_csum_eq {s : State} {l l' : List Byte} (h : exec (.csum l) s = exec (.csum l') s) :
    sum8 l = sum8 l' := by
  rw [exec_csum, exec_csum, Host.Outcome.next.injEq] at h
  have hresp := congrArg State.resp h
  simpa using congrArg (Option.map Response.result) hresp

/-- Settles O1: all four parts are laws of the sum of bytes. -/
theorem csumAddsAllBytes : Obligations.CsumAddsAllBytes := by
  unfold Obligations.CsumAddsAllBytes
  intro s bytes
  refine ⟨⟨_, sum8 bytes, exec_csum s bytes, sum8_toNat bytes, rfl⟩, ?perm, ?zero, ?change⟩
  case perm =>
    intro bytes' hperm
    rw [exec_csum, exec_csum, sum8_perm hperm]
  case zero =>
    rintro l r rfl
    have hzero : sum8 (l ++ 0 :: r) = sum8 (l ++ r) := by rw [sum8_append_cons, zero_add]
    rw [exec_csum, exec_csum, hzero]
  case change =>
    rintro l r b c rfl h
    have hsum := sum8_eq_of_exec_csum_eq h
    rw [sum8_append_cons, sum8_append_cons] at hsum
    exact add_right_cancel hsum

/-! ## The encoders -/

/-- R116: the domain of the mode operand. -/
theorem modeOfByte_eq_none {b : Byte} (hfree : b ≠ 0x02) (hnormal : b ≠ 0x00) : modeOfByte b = none :=
  (if_neg hfree).trans (if_neg hnormal)

/-- Settles O2: the frame of each mode in its closed form. -/
theorem encTqBuildsTorqueFrame : Obligations.EncTqBuildsTorqueFrame := by
  unfold Obligations.EncTqBuildsTorqueFrame
  intro s id mode
  refine ⟨?free, ?normal, fun hfree hnormal => exec_encTq_refused s (modeOfByte_eq_none hfree hnormal) id⟩
  case free =>
    rintro rfl
    exact ⟨s.encoded (lineFree id), frameTq_free id ▸ exec_encTq_of_mode s rfl id, rfl⟩
  case normal =>
    rintro rfl
    exact ⟨s.encoded (lineNormal id), frameTq_normal id ▸ exec_encTq_of_mode s rfl id, rfl⟩

/-- Settles O3. -/
theorem encSpBuildsPositionFrame : Obligations.EncSpBuildsPositionFrame := by
  unfold Obligations.EncSpBuildsPositionFrame
  intro s id raw
  exact ⟨s.encoded (linePosition id raw), frameSp_closed id raw ▸ exec_encSp s id raw, rfl⟩

/-- Settles O4. -/
theorem encRdBuildsReadRequest : Obligations.EncRdBuildsReadRequest := by
  unfold Obligations.EncRdBuildsReadRequest
  intro s id
  exact ⟨s.encoded (lineRequest id), frameRd_closed id ▸ exec_encRd s id, rfl⟩

/-- R133 to R135: an encoder leaves a frame that `withSum` closed, or it refuses its mode. -/
theorem encoder_cases {s t : State} {id mode : Byte} {raw : Half} {i : Instr}
    (hi : i = .encTq id mode ∨ i = .encSp id raw ∨ i = .encRd id) (h : exec i s = .next t) :
    (∃ p, t = s.encoded (withSum p)) ∨ t = s.refuse .illegalOperand := by
  obtain rfl | rfl | rfl := hi
  · cases hm : modeOfByte mode with
    | none => exact .inr (Host.Outcome.next.inj ((exec_encTq_refused s hm id).symm.trans h)).symm
    | some m => exact .inl ⟨_, (Host.Outcome.next.inj ((exec_encTq_of_mode s hm id).symm.trans h)).symm⟩
  · exact .inl ⟨_, (Host.Outcome.next.inj h).symm⟩
  · exact .inl ⟨_, (Host.Outcome.next.inj h).symm⟩

/-- Settles O7: a refusal returns no frame, and `withSum` puts the sum last. -/
theorem builtFramesCarryTheirChecksum : Obligations.BuiltFramesCarryTheirChecksum := by
  unfold Obligations.BuiltFramesCarryTheirChecksum
  intro s t id mode raw i w f hi ht hresp
  obtain ⟨p, rfl⟩ | rfl := encoder_cases hi ht
  · obtain rfl : withSum p = f := by simpa using congrArg (Option.map Response.result) hresp
    exact ⟨p, sum8 p, rfl, sum8_toNat p, (s.encoded_take _).symm⟩
  · simp at hresp

/-! ## The decoder -/

/-- R136: the length is the only test. -/
theorem decodeResponse_eq_none {bytes : List Byte} (h : bytes.length < 7) : decodeResponse bytes = none :=
  if_neg (Nat.not_le_of_lt h)

/-- Settles O6. -/
theorem decRdRejectsShortStrings : Obligations.DecRdRejectsShortStrings := by
  unfold Obligations.DecRdRejectsShortStrings
  intro s bytes hshort
  exact ⟨_, exec_decRd_of_short s (decodeResponse_eq_none hshort), rfl⟩

/-- R13: a position is put together from its two bytes. -/
theorem get16le_bytes (raw : Half) : get16le (raw.extractLsb' 0 8) (raw.extractLsb' 8 8) = raw.toInt := by
  have happend : raw.extractLsb' 8 8 ++ raw.extractLsb' 0 8 = raw :=
    (BitVec.extractLsb'_append_extractLsb'_eq_extractLsb' rfl).trans BitVec.extractLsb'_eq_self
  rw [get16le, le16, happend]

/-- R138, first half: the response layout has the position where the position frame has it. -/
theorem decodeResponse_linePosition (id : Byte) (raw : Half) :
    decodeResponse (linePosition id raw) = some raw.toInt :=
  (decodeResponse_append ..).trans (congrArg some (get16le_bytes raw))

/-! ## Rounding -/

/-- The rounded value stands less than one denominator from the numerator, in every mode (R193, P3). -/
theorem roundRaw_mul_den_bounds {m : RawRound} {x : Rat} {q : Int} (h : roundRaw m x = q) :
    x.num - x.den < x.den * q ∧ x.den * q < x.num + x.den := by
  have hden : 0 < (x.den : Int) := by exact_mod_cast x.den_pos
  have hdiv := Int.mul_ediv_add_emod x.num x.den
  have hnonneg := Int.emod_nonneg x.num hden.ne'
  have hlt := Int.emod_lt_of_pos x.num hden
  cases m with
  | towardZero =>
    have htdiv := Int.mul_tdiv_add_tmod x.num x.den
    have hbelow := Int.lt_tmod_of_pos x.num hden
    have habove := Int.tmod_lt_of_pos x.num hden
    obtain rfl : x.num.tdiv x.den = q := h
    omega
  | towardMinusInf =>
    obtain rfl : x.num / x.den = q := h
    omega
  | nearestEven =>
    have hcomm := Int.mul_comm (x.num / x.den) x.den
    simp only [roundRaw] at h
    split at h
    case isTrue => subst h; omega
    split at h
    case isTrue => subst h; omega
    case isFalse => subst h; rw [Int.mul_add]; omega
  | nearestAway =>
    have hhalf := Nat.div_add_mod (2 * x.num.natAbs + x.den) (2 * x.den)
    have hrest := Nat.mod_lt (2 * x.num.natAbs + x.den) (y := 2 * x.den) (by omega)
    rw [Nat.mul_assoc] at hhalf
    simp only [roundRaw] at h
    split at h <;> subst h
    · rw [Int.mul_neg, ← Int.natCast_mul]; omega
    · rw [← Int.natCast_mul]; omega

/-- R193, P3: rounding moves a value by less than one, in every mode. -/
theorem abs_roundRaw_sub_lt_one (m : RawRound) (x : Rat) : |(roundRaw m x : Rat) - x| < 1 := by
  have hden : (0 : Rat) < x.den := by exact_mod_cast x.den_pos
  obtain ⟨hlo, hhi⟩ := roundRaw_mul_den_bounds (m := m) (x := x) rfl
  have hlo' : (x.num : Rat) - x.den < x.den * roundRaw m x := by exact_mod_cast hlo
  have hhi' : (x.den : Rat) * roundRaw m x < x.num + x.den := by exact_mod_cast hhi
  rw [← Rat.den_mul_eq_num] at hlo' hhi'
  rw [abs_lt]
  constructor <;> nlinarith

/-- R193: `D2R` is within one hundredth. -/
theorem abs_degToRaw_sub_lt_one (m : RawRound) (d : Deg) : |(degToRaw m d : Rat) - 100 * d| < 1 :=
  abs_roundRaw_sub_lt_one m (100 * d)

/-- R193: the raw value of a device angle within 80 degrees is a 16-bit value. -/
theorem degToRaw_toInt_of_abs_le {d : Deg} (hlo : -80 ≤ d) (hhi : d ≤ 80) (m : RawRound) :
    (BitVec.ofInt 16 (degToRaw m d)).toInt = degToRaw m d := by
  obtain ⟨hbelow, habove⟩ := abs_lt.mp (abs_degToRaw_sub_lt_one m d)
  have hmin : (-8001 : Int) < degToRaw m d := by
    have : (-8001 : Rat) < degToRaw m d := by linarith
    exact_mod_cast this
  have hmax : (8001 : Int) > degToRaw m d := by
    have : (degToRaw m d : Rat) < 8001 := by linarith
    exact_mod_cast this
  exact BitVec.toInt_ofInt_eq_self (by decide) (by omega) (by omega)

/-- R138, second half: a hundredth of less than one. -/
theorem abs_rawToDeg_degToRaw_sub_lt (m : RawRound) (d : Deg) : |rawToDeg (degToRaw m d) - d| < 1 / 100 := by
  have hscale : rawToDeg (degToRaw m d) - d = ((degToRaw m d : Rat) - 100 * d) / 100 := by
    rw [rawToDeg, Rat.mkRat_eq_div]
    push_cast
    ring
  rw [hscale, abs_div, abs_of_pos (by norm_num : (0 : Rat) < 100)]
  exact div_lt_div_of_pos_right (abs_degToRaw_sub_lt_one m d) (by norm_num)

/-- Settles O8: the frame carries the position where the decoder reads it; the rounding loses less than a hundredth. -/
theorem positionsSurviveTheRoundTrip : Obligations.PositionsSurviveTheRoundTrip := by
  unfold Obligations.PositionsSurviveTheRoundTrip
  constructor
  · intro s id raw
    have hdec : decodeResponse (frameSp id raw) = some raw.toInt :=
      frameSp_closed id raw ▸ decodeResponse_linePosition id raw
    exact ⟨_, _, _, exec_encSp s id raw, s.encoded_resp _, exec_decRd_of_position hdec _, State.complete_resp ..⟩
  · intro s d hlo hhi
    have hback := exec_r2d (s.answered (.raw (degToRaw s.cfg.rawRound d))) (BitVec.ofInt 16 (degToRaw s.cfg.rawRound d))
    rw [degToRaw_toInt_of_abs_le hlo hhi] at hback
    exact ⟨_, _, _, _, exec_d2r s d, State.answered_resp _ _, hback, State.answered_resp _ _,
      abs_rawToDeg_degToRaw_sub_lt _ d⟩

end Sys2Proof.Machine
end

section
/-! PROOFS, family 41_bus_transport: the five transport operations, their next states written out; what arriving bytes
do; runs of a host's plan among events that do not wait for its end, by an invariant of the plan (`PlanInvariant`); and
the stages of the shutdown as such an invariant. -/

namespace Sys2Proof.Machine

/-! ## The channel -/

/-- R151: an open channel refuses a second open. -/
theorem opOpen_of_open {s : State} (hb : s.busOpen = true) : opOpen s = s.refuse .busAlreadyOpen := if_pos hb

/-- R151: the open draw decides on a closed channel. -/
theorem opOpen_of_closed {s : State} (hb : s.busOpen = false) : opOpen s =
    if s.nextOpen = true then
      ({ (s.accept.enter .opening).popOpen with rxq := [], txq := [], busOpen := true }.record .opened).complete .none
    else ((s.accept.enter .opening).popOpen.record .openFailed).raise .transportOpenFailure := by
  simp only [opOpen, hb, if_neg Bool.false_ne_true]

/-- Settles O21: the three ways of `opOpen`. -/
theorem bOpenOpensOrFails : Obligations.BOpenOpensOrFails := by
  unfold Obligations.BOpenOpensOrFails
  intro s
  refine ⟨fun hb hd => ?opened, fun hb hd => ?failed, fun hb => ?refused⟩
  case opened =>
    refine ⟨opOpen s, rfl, ?_⟩
    rw [opOpen_of_closed hb, if_pos hd]
    rfl
  case failed =>
    refine ⟨opOpen s, rfl, ?_⟩
    rw [opOpen_of_closed hb, hd, if_neg Bool.false_ne_true]
    rfl
  case refused => exact congrArg Host.Outcome.next (opOpen_of_open hb)

/-- R155: the close of an open channel empties the queues. -/
theorem opClose_of_open {s : State} (hb : s.busOpen = true) : opClose s =
    ({ s.accept.enter .closing with rxq := [], txq := [], busOpen := false }.record .closed).complete .none := if_pos hb

/-- R155, D15: a second close is accepted and does nothing. -/
theorem opClose_of_closed {s : State} (hb : s.busOpen = false) :
    opClose s = (s.accept.enter .closing).complete .none := by
  simp only [opClose, hb, if_neg Bool.false_ne_true]

/-- Settles O22: the two ways of `opClose`. -/
theorem bCloseCloses : Obligations.BCloseCloses := by
  unfold Obligations.BCloseCloses
  intro s
  refine ⟨fun hb => ⟨opClose s, rfl, ?_⟩, fun hb => ⟨opClose s, rfl, ?_⟩⟩
  · rw [opClose_of_open hb]; rfl
  · rw [opClose_of_closed hb]; rfl

/-- Settles O23: with the channel open a flush is not refused. -/
theorem bFlushEmptiesTheQueues : Obligations.BFlushEmptiesTheQueues := by
  unfold Obligations.BFlushEmptiesTheQueues
  intro s hb
  have hflush : opFlush s = ((s.accept.enter .flushing).busFlush).complete .none := s.needBus_open _ hb
  refine ⟨opFlush s, rfl, ?_⟩
  rw [hflush]
  rfl

/-! ## Arrivals -/

/-- R158: arriving bytes touch `RXQ` only, and not that of a closed channel. -/
theorem State.arrive_eq (s : State) (bs : List Byte) :
    s.arrive bs = { s with rxq := if s.busOpen = true then s.rxq ++ bs else s.rxq } := by
  unfold State.arrive
  split <;> rfl

theorem State.arrive_of_open {s : State} (hb : s.busOpen = true) (bs : List Byte) :
    s.arrive bs = { s with rxq := s.rxq ++ bs } := if_pos hb

theorem State.arrive_of_closed {s : State} (hb : s.busOpen = false) (bs : List Byte) : s.arrive bs = s := by
  simp only [State.arrive, hb, if_neg Bool.false_ne_true]

/-- R105, log entry 20: an instruction that comes in as a frame is the arrival of that frame. -/
theorem exec_of_encode_inFrame {i : Instr} {bs : List Byte} (h : encode i = .inFrame bs) (s : State) :
    exec i s = .next (s.arrive bs) := by
  cases i <;> cases h
  rfl

/-- R158: bytes that arrive are queued, response or not. -/
theorem presentFetch_inFrame (bs : List Byte) (s : State) : presentFetch (.inFrame bs) s = .next (s.arrive bs) := by
  simp only [presentFetch]
  split
  next hdec => exact exec_of_encode_inFrame (encode_of_decodeIn hdec) s
  next => rfl

/-- Settles O27: the row is the arrival of its frame; arriving bytes come at once, whatever is planned. -/
theorem responsesQueueWhileOpen : Obligations.ResponsesQueueWhileOpen := by
  unfold Obligations.ResponsesQueueWhileOpen
  intro s size cmd status id lo hi sum pad
  have hrow := exec_of_encode_inFrame (i := .rs size cmd status id lo hi sum pad) rfl s
  refine ⟨fun hb => ?queued, fun hb => ?lost, fun bs rest hidle hin => ?step⟩
  case queued => rw [hrow, State.arrive_of_open hb, List.append_assoc]
  case lost => rw [hrow, State.arrive_of_closed hb]
  case step =>
    rw [step_event s _ rest hidle hin (.inr rfl), runEvent, presentFetch_inFrame, State.arrive_eq]

/-! ## Reads -/

/-- R153: a read of what is there does not wait. -/
theorem State.awaitBytes_of_le {s : State} {n : Nat} (h : n ≤ s.rxq.length) :
    s.awaitBytes n = { s with tmrRto := .running params.tReadTimeout } := if_neg (Nat.not_lt_of_le h)

/-- R153, log entry 16: a read that waits takes the arrivals of one draw; it times out when they are too few. -/
theorem State.awaitBytes_of_lt {s : State} {n : Nat} (h : s.rxq.length < n) : s.awaitBytes n =
    { s with rxq := s.rxq ++ s.nextArrivals, tmrRto := .running params.tReadTimeout,
             tmrGap := if (s.rxq ++ s.nextArrivals).length < n then s.tmrGap.add params.tReadTimeout else s.tmrGap,
             env := { s.env with arrivals := s.env.arrivals.tail }, draws := s.draws + 1 } := by
  simp only [State.awaitBytes, if_pos h]
  have harmed : State.receive { s with tmrRto := .running params.tReadTimeout } =
      { s with rxq := s.rxq ++ s.nextArrivals, tmrRto := .running params.tReadTimeout,
               env := { s.env with arrivals := s.env.arrivals.tail }, draws := s.draws + 1 } := rfl
  rw [harmed]
  split <;> rfl

/-- R153: a `B_READ` that is not refused. -/
theorem opRead_of_open {s : State} (hb : s.busOpen = true) (n : Byte) : opRead n s =
    ((s.accept.enter .reading).busRead n.toNat).2.complete (.bytes ((s.accept.enter .reading).busRead n.toNat).1) :=
  s.needBus_open _ hb

/-- Settles O26: the read cuts what its wait leaves in `RXQ` in two. -/
theorem bReadTakesFromTheHead : Obligations.BReadTakesFromTheHead := by
  unfold Obligations.BReadTakesFromTheHead
  intro s n hb
  refine ⟨opRead n s, ((s.accept.enter .reading).busRead n.toNat).1, rfl, ?frame,
    fun hle => ?there, fun hlt => ?waits⟩
  all_goals rw [opRead_of_open hb]
  case frame =>
    rw [State.busRead_frame]
    rfl
  case there =>
    rw [State.busRead, State.awaitBytes_of_le (s := s.accept.enter .reading) hle]
    exact ⟨List.take_append_drop _ _, List.length_take_of_le hle, rfl, rfl, rfl⟩
  case waits =>
    rw [State.busRead, State.awaitBytes_of_lt (s := s.accept.enter .reading) hlt]
    exact ⟨List.take_append_drop _ _, List.length_take, rfl, rfl, rfl⟩

/-! ## Writes -/

/-- R113, log entry 20: an instruction that goes out as a frame is the `B_WRITE` of that frame. -/
theorem exec_of_encode_outFrame {i : Instr} {bs : List Byte} (h : encode i = .outFrame bs) (s : State) :
    exec i s = exec (.bWrite bs) s := by
  cases i <;> cases h <;> rfl

/-- R152: a `B_WRITE` that is not refused. -/
theorem opWrite_of_open {s : State} (hb : s.busOpen = true) (bytes : List Byte) :
    opWrite bytes s = (s.accept.enter .writing).writeAndEnd bytes := s.needBus_open _ hb

/-- Log entry 14: bytes that are no frame of the spec have no known effect. -/
theorem actuatorEffect_of_noFrame {bytes : List Byte} (h : ∀ i : Instr, decodeOut bytes = .ok i → i.wf = false)
    (settled : Bool) (m : Memory) : actuatorEffect settled bytes m = none := by
  unfold actuatorEffect
  split
  next => rfl
  next i hdec => rw [h i hdec, if_neg Bool.false_ne_true]

/-- Log entry 14: after bytes that are no frame nothing is known of the actuators, whatever the line was before. -/
theorem State.actuate_noFrame {s : State} {bytes : List Byte}
    (h : s.lineClean = false ∨ ∀ i : Instr, decodeOut bytes = .ok i → i.wf = false) :
    (s.actuate bytes).actMem = [] ∧ (s.actuate bytes).lineClean = false := by
  cases hc : s.lineClean with
  | false => exact s.actuate_dirty bytes hc
  | true =>
    have hnone := h.resolve_left (by simp [hc])
    simp only [State.actuate, hc, if_true, actuatorEffect_of_noFrame hnone]
    exact ⟨trivial, trivial⟩

/-- Settles O24: a frame is the write of its bytes; the rest is `busWrite` on a spaced line. -/
theorem bWriteTransmitsItsBytes : Obligations.BWriteTransmitsItsBytes := by
  unfold Obligations.BWriteTransmitsItsBytes
  intro s bytes hb
  refine ⟨fun i hdec => ?frame, fun hgap hwindow hbytes => ?empty, fun hgap hwindow hbytes hq hw => ?whole⟩
  case frame => exact (exec_of_encode_outFrame (encode_of_decodeOut hdec) s).symm
  case empty =>
    subst hbytes
    refine ⟨opWrite [] s, rfl, ?_⟩
    rw [opWrite_of_open hb, State.writeAndEnd, State.busWrite_nil,
      State.checkGap_spaced (s.accept.enter .writing) hgap hwindow]
    rfl
  case whole =>
    have hwrite := State.busWrite_spaced (s.accept.enter .writing) bytes hbytes hgap hwindow hq hw
    have hop := opWrite_of_open hb bytes
    rw [State.writeAndEnd, hwrite] at hop
    refine ⟨opWrite bytes s, rfl, ?next, ?window, fun hno => ?unknown⟩
    case next => rw [hop]; rfl
    case window => rw [hop]; exact carriesRequest_iff bytes
    case unknown =>
      obtain ⟨hmem, hclean⟩ := State.actuate_noFrame (s := s.accept.enter .writing) hno
      rw [hop]
      refine ⟨hclean, fun a => ?_⟩
      exact congrArg (Memory.read · a) hmem

/-- R152, U14: all that a failed write does, split only where no byte went out (log entries 14, 16, 17). -/
theorem State.cutWrite_eq (s : State) (part : List Byte) : s.cutWrite part =
    { s with wire := s.wire ++ [.cut part], txq := [], err := .busWriteFailure,
             tmrGap := if part = [] then s.tmrGap else .since 0,
             rqWindow := s.rqWindow || carriesRequest part,
             actMem := if part = [] then s.actMem else [],
             lineClean := s.lineClean && decide (part = []) } := by
  unfold State.cutWrite
  split
  next hnone => simp [hnone, carriesRequest]
  next hsome => simp [hsome]

/-- The part of its bytes that a failed write puts on the line is shorter than the bytes (R152). -/
theorem length_take_cut_lt {bytes : List Byte} (hbytes : bytes ≠ []) (k : Nat) :
    (bytes.take (min k (bytes.length - 1))).length < bytes.length := by
  have hlen : 0 < bytes.length := List.length_pos_iff.mpr hbytes
  rw [List.length_take]
  omega

/-- Settles O25: the first bytes went out, fewer than all, and the rest of `cutWrite` depends on whether any did. -/
theorem bWriteFailureCutsTheFrame : Obligations.BWriteFailureCutsTheFrame := by
  unfold Obligations.BWriteFailureCutsTheFrame
  intro s bytes k hb hbytes hspaced hw
  obtain ⟨hgap, hwindow⟩ := s.lineSpaced_iff.mp hspaced
  have hwrite := State.busWrite_fail (s.accept.enter .writing) bytes k hbytes hw
  rw [State.checkGap_spaced (s.accept.enter .writing) hgap hwindow, State.cutWrite_eq] at hwrite
  have hop := opWrite_of_open hb bytes
  rw [State.writeAndEnd, hwrite] at hop
  refine ⟨opWrite bytes s, bytes.take (min k (bytes.length - 1)), rfl, List.take_prefix _ _,
    length_take_cut_lt hbytes k, fun hk => ?exact, ?next, ?window⟩
  case exact => rw [List.length_take]; omega
  case next => rw [hop]; rfl
  case window =>
    rw [hop, ← carriesRequest_iff]
    exact Bool.or_eq_true_iff.trans (or_iff_right (by simp [hwindow]))

/-! ## A plan of the host among events that do not wait -/

theorem core_run_succ {s t : State} (h : step s = .next t) (n : Nat) : core.run (n + 1) s = core.run n t := by
  have hcore : core.step s = .next t := h
  simp only [Host.Core.run, hcore]

/-- The events that do not wait: those that come at once (R158, R230, R231), and `proceed` (log entry 48). -/
theorem Event.immediate_or_proceed {e : Event} (h : e.waits = false) : e.immediate = true ∨ e = .proceed := by
  simpa [Event.waits, or_iff_not_imp_left] using h

/-- What makes `I` hold until a plan is done, whatever comes that does not wait: the host may act while actions are
left, an event leaves the plan, and the next action can be taken. -/
structure PlanInvariant (I : State → Prop) : Prop where
  idle {s : State} : I s → s.seq = .idle
  going {s : State} : I s → s.host.plan ≠ [] → s.host.ended = false
  event {s : State} {e : Event} (rest : List Event) : I s → e.waits = false →
    ∃ t, runEvent e { s with inbox := rest } = .next t ∧ I t ∧ t.inbox = rest ∧ t.host.plan = s.host.plan
  act {s : State} {a : HostAct} {p : List HostAct} (rest : List Event) : I s → s.host.plan = a :: p →
    ∃ t, runAct a { s with host := { s.host with plan := p }, inbox := rest } = .next t ∧ I t ∧ t.inbox = rest ∧
      t.host.plan = p

/-- How many steps are still to come at most: one for each action of the plan and for each event. -/
def State.pending (s : State) : Nat := s.host.plan.length + s.inbox.length

/-- No event of the inbox waits for the end of the plan. -/
def State.NoneWaits (s : State) : Prop := ∀ e ∈ s.inbox, e.waits = false

section

variable {I : State → Prop} (hI : PlanInvariant I) {s : State} (hs : I s) (hnow : s.NoneWaits)

include hI hs hnow

/-- A step that takes the front event. -/
theorem PlanInvariant.step_event {e : Event} {rest : List Event} (hin : s.inbox = e :: rest)
    (hturn : s.host.plan = [] ∨ e.immediate = true) :
    ∃ t, step s = .next t ∧ I t ∧ t.NoneWaits ∧ t.pending < s.pending := by
  obtain ⟨t, hrun, ht, hin', hp⟩ := hI.event rest hs (hnow e (hin ▸ List.mem_cons_self))
  refine ⟨t, (Machine.step_event s e rest (hI.idle hs) hin hturn).trans hrun, ht, fun x hx => hnow x ?_, ?_⟩
  · rw [hin]
    exact List.mem_cons_of_mem e (hin' ▸ hx)
  · simp [State.pending, hp, hin', hin]

/-- A step that takes the next action, and perhaps a `proceed` with it. -/
theorem PlanInvariant.step_act {a : HostAct} {p : List HostAct} {rest : List Event} (hplan : s.host.plan = a :: p)
    (hrest : rest <:+ s.inbox)
    (hturn : s.hostTurn = some (a, { s with host := { s.host with plan := p }, inbox := rest })) :
    ∃ t, step s = .next t ∧ I t ∧ t.NoneWaits ∧ t.pending < s.pending := by
  have hgo : s.host.ended = false := hI.going hs (by simp [hplan])
  obtain ⟨t, hrun, ht, hin, hp⟩ := hI.act rest hs hplan
  refine ⟨t, (Machine.step_act s _ a (hI.idle hs) hturn hgo).trans hrun, ht, fun x hx => hnow x ?_, ?_⟩
  · exact hrest.subset (hin ▸ hx)
  · have hlen := hrest.length_le
    simp only [State.pending, hp, hin, hplan, List.length_cons]
    omega

/-- While something is to come, a step takes an event, or an action, or both. -/
theorem PlanInvariant.step_cases : s.host.plan = [] ∧ s.inbox = [] ∨
    ∃ t, step s = .next t ∧ I t ∧ t.NoneWaits ∧ t.pending < s.pending := by
  cases hplan : s.host.plan with
  | nil =>
    cases hin : s.inbox with
    | nil => exact .inl ⟨rfl, rfl⟩
    | cons e rest => exact .inr (hI.step_event hs hnow hin (.inl hplan))
  | cons a p =>
    refine .inr ?_
    cases hin : s.inbox with
    | nil => exact hI.step_act hs hnow hplan List.suffix_rfl (s.hostTurn_waits a p hplan (by simp [hin]))
    | cons e rest =>
      obtain himm | rfl := Event.immediate_or_proceed (hnow e (hin ▸ List.mem_cons_self))
      · exact hI.step_event hs hnow hin (.inr himm)
      · exact hI.step_act hs hnow hplan (hin ▸ List.suffix_cons _ _) (s.hostTurn_proceed a p rest hplan hin)

end

/-- The run to the end of the plan and of the events, and any number of steps beyond (R235, log entry 48). -/
theorem PlanInvariant.run {I : State → Prop} (hI : PlanInvariant I) (n : Nat) {s : State} (hs : I s)
    (hnow : s.NoneWaits) (hn : s.pending ≤ n) :
    ∃ t, core.run n s = .next t ∧ I t ∧ t.host.plan = [] ∧ t.inbox = [] := by
  induction n generalizing s with
  | zero =>
    have hnone : s.host.plan.length + s.inbox.length = 0 := Nat.le_zero.mp hn
    exact ⟨s, rfl, hs, List.eq_nil_of_length_eq_zero (by omega), List.eq_nil_of_length_eq_zero (by omega)⟩
  | succ n ih =>
    obtain ⟨hplan, hin⟩ | ⟨t, hstep, ht, hnow', hlt⟩ := hI.step_cases hs hnow
    · rw [core_run_succ (step_nothing s (hI.idle hs) hplan hin)]
      exact ih hs hnow (by simp [State.pending, hplan, hin])
    · rw [core_run_succ hstep]
      exact ih ht hnow' (by omega)

/-! ## What a write of the shutdown leaves -/

/-- One attempt of the host, as the block shows it between operations: one event more in the wire history, of which `P`
says what it is when nothing was queued before. -/
structure State.Attempts (P : WireEvent → Prop) (s t : State) : Prop where
  idle : t.seq = .idle
  busOpen : t.busOpen = s.busOpen
  outside : s.SameOutside t
  sent : s.txq = [] → t.txq = []
  wire : ∃ e, t.wire = s.wire ++ [e] ∧ (s.txq = [] → P e)

/-- R152: a write tries its frame once, whole or cut. -/
theorem State.busWrite_triedOnce (s : State) {f : List Byte} (hf : f ≠ []) :
    ∃ e, (s.busWrite f).2.wire = s.wire ++ [e] ∧ (s.txq = [] → triedOnce f e) := by
  cases hw : s.nextWrite with
  | ok =>
    obtain ⟨hwire, _⟩ := s.busWrite_ok_fields f hf hw
    exact ⟨_, hwire, fun hq => .inl (by rw [hq, List.nil_append])⟩
  | fail k =>
    refine ⟨_, ?_, fun _ => .inr ⟨f.take (min k (f.length - 1)), List.take_prefix _ _, length_take_cut_lt hf k, rfl⟩⟩
    rw [s.busWrite_fail f k hf hw, State.cutWrite_eq, State.checkGap_frame]
    rfl

/-- A frame at the end of an operation, its write succeeding or not. -/
theorem State.writeAndEnd_attempts (s : State) {f : List Byte} (hf : f ≠ []) :
    s.Attempts (triedOnce f) (s.writeAndEnd f) := by
  have hopen : (s.busWrite f).2.busOpen = s.busOpen := by rw [State.busWrite_frame]
  have hout := s.writeAndEnd_outside f
  obtain ⟨_, h⟩ | ⟨_, h⟩ := s.writeAndEnd_cases f
  all_goals
    rw [h] at hout ⊢
    exact ⟨rfl, hopen, hout, s.busWrite_txq f, s.busWrite_triedOnce hf⟩

/-- The steps before a write touch neither what is outside the block nor the queue nor the wire. -/
theorem State.Attempts.of_prepared {P : WireEvent → Prop} {s u t : State} (h : u.Attempts P t) (hout : s.SameOutside u)
    (hopen : u.busOpen = s.busOpen) (hsent : u.txq = s.txq) (hwire : u.wire = s.wire) : s.Attempts P t where
  idle := h.idle
  busOpen := h.busOpen.trans hopen
  outside := hout.trans h.outside
  sent := hsent ▸ h.sent
  wire := hsent ▸ hwire ▸ h.wire

/-- R175 with the channel open. -/
theorem opSetpos_attempts {s : State} (hb : s.busOpen = true) (id : Byte) (d : Deg) :
    s.Attempts (triedOnce (linePosition id (setposRaw s.cfg.rawRound d))) (opSetpos id d s) := by
  rw [← frameSp_closed]
  obtain ⟨f, hf⟩ : ∃ f, f = frameSp id (setposRaw s.cfg.rawRound d) := ⟨_, rfl⟩
  have hop : opSetpos id d s =
      ((((s.accept.enter .spConv).enter .spClamp).enter .spEnc).setTx f |>.enter .spWrite).writeAndEnd f :=
    hf ▸ s.needBus_open _ hb
  rw [hop, ← hf]
  exact (State.writeAndEnd_attempts _ (hf ▸ List.cons_ne_nil _ _)).of_prepared (by simp [State.SameOutside])
    (by simp) (by simp) (by simp)

/-- R173 with the channel open. -/
theorem opTqOff_attempts {s : State} (hb : s.busOpen = true) (id : Byte) :
    s.Attempts (triedOnce (lineFree id)) (opTqOff id s) := by
  have hop : opTqOff id s =
      (((s.accept.enter .tqEncFree).setTx (frameTq id .free)).enter .tqWrFree).writeAndEnd (frameTq id .free) :=
    s.needBus_open _ hb
  rw [hop, ← frameTq_free]
  exact (State.writeAndEnd_attempts _ (List.cons_ne_nil _ _)).of_prepared (by simp [State.SameOutside])
    (by simp) (by simp) (by simp)

/-! ## The actions of the shutdown -/

/-- The actions of the sequence of R232 before its close. -/
inductive ShutdownTry where
  | wait (us : Nat)
  | position (id : Byte) (d : Deg)
  | free (id : Byte)

/-- Its form in a plan of the host (R118, R232): an error is logged and the sequence goes on. -/
def ShutdownTry.act : ShutdownTry → HostAct
  | .wait us => .wait us
  | .position id d => .issue { op := 0x12, id := id, deg := d } .logContinue
  | .free id => .issue { op := 0x11, id := id } .logContinue

/-- What it leaves in the wire history. -/
def ShutdownTry.leaves (m : RawRound) : ShutdownTry → WireEvent → Prop
  | .wait us, e => e = .waited us
  | .position id d, e => triedOnce (linePosition id (setposRaw m d)) e
  | .free id, e => triedOnce (lineFree id) e

/-- R232 with log entry 29 (the leading wait), up to the close. -/
def shutdownTries (c : Deployment) : List ShutdownTry :=
  [.wait params.tCmdGap, .position c.yaw.id c.yaw.center, .wait params.tCmdGap, .position c.pitch.id c.pitch.center,
   .wait c.tSettle, .free c.yaw.id, .wait params.tCmdGap, .free c.pitch.id]

/-- The end of the sequence: the close, and the host's exit (R232, R233). -/
def shutdownEnd : List HostAct := [.issue { op := 0x02 } .logContinue, .exit]

theorem planShutdown_eq (c : Deployment) :
    planShutdown c = (shutdownTries c).map ShutdownTry.act ++ shutdownEnd := rfl

/-- R232: an error of an operation that the shutdown issued reaches the host's log only. -/
theorem runAct_issue_logContinue {r : Request} {s t : State} (h : issueRequest r s = .next t) :
    ∃ entries, runAct (.issue r .logContinue) s = .next { t with host := { t.host with log := entries } } := by
  simp only [runAct, h]
  split
  · exact ⟨t.host.log, rfl⟩
  · exact ⟨_, rfl⟩

/-- What any of these actions does, whatever its write does. -/
theorem ShutdownTry.runAct_act (x : ShutdownTry) {s : State} (hidle : s.seq = .idle) (hb : s.busOpen = true) :
    ∃ (t : State) (entries : List HostLog), s.Attempts (x.leaves s.cfg.rawRound) t ∧
      runAct x.act s = .next { t with host := { t.host with log := entries } } := by
  cases x with
  | wait us => exact ⟨s.elapse us, s.host.log, ⟨hidle, rfl, ⟨rfl, rfl, rfl⟩, id, _, rfl, fun _ => rfl⟩, rfl⟩
  | position id d =>
    have hissue := issueRequest_decoded (r := { op := 0x12, id := id, deg := d }) (i := .setpos id d) rfl s
    obtain ⟨entries, hrun⟩ := runAct_issue_logContinue hissue
    exact ⟨opSetpos id d s, entries, opSetpos_attempts hb id d, hrun⟩
  | free id =>
    have hissue := issueRequest_decoded (r := { op := 0x11, id := id }) (i := .tqOff id) rfl s
    obtain ⟨entries, hrun⟩ := runAct_issue_logContinue hissue
    exact ⟨opTqOff id s, entries, opTqOff_attempts hb id, hrun⟩

/-- R155, R232: the close of an open channel, with whatever the host logs. -/
theorem runAct_close {s : State} (hb : s.busOpen = true) :
    ∃ entries, runAct (.issue { op := 0x02 } .logContinue) s =
      .next {
        ({ s.accept.enter .closing with rxq := [], txq := [], busOpen := false }.record .closed).complete .none with
          host := { s.host with log := entries } } :=
  runAct_issue_logContinue ((issueRequest_decoded (r := { op := 0x02 }) (i := .bClose) rfl s).trans
    (congrArg Host.Outcome.next (opClose_of_open hb)))

/-! ## The shutdown under way -/

/-- A shutdown that began in `s₀` after an exception: `w` was added to the wire history since, and `p` is left. -/
structure ShuttingDown (s₀ : State) (w : List WireEvent) (isOpen hasEnded : Bool) (p : List HostAct) (s : State) :
    Prop where
  idle : s.seq = .idle
  cfg : s.cfg = s₀.cfg
  loop : s.host.loop = .shuttingDown
  error : s.host.error = some .unhandledLoopException
  plan : s.host.plan = p
  busOpen : s.busOpen = isOpen
  ended : s.host.ended = hasEnded
  wire : s.wire = s₀.wire ++ w
  sent : s₀.txq = [] → s.txq = []

/-- What the actions `done` left in the history, one event each; what it is, is known when nothing was queued. -/
def LeftOnWire (s₀ : State) (done : List ShutdownTry) (l : List WireEvent) : Prop :=
  List.Forall₂ (fun x e => s₀.txq = [] → x.leaves s₀.cfg.rawRound e) done l

/-- How far it has come: among its attempts, behind the close, at its end. -/
inductive ShutdownStage (s₀ s : State) : Prop where
  | trying (done todo : List ShutdownTry) (l : List WireEvent) (hsplit : done ++ todo = shutdownTries s₀.cfg)
      (hl : LeftOnWire s₀ done l) (h : ShuttingDown s₀ l true false (todo.map ShutdownTry.act ++ shutdownEnd) s)
  | closed (l : List WireEvent) (hl : LeftOnWire s₀ (shutdownTries s₀.cfg) l)
      (h : ShuttingDown s₀ (l ++ [.closed]) false false [.exit] s)
  | ended (l : List WireEvent) (hl : LeftOnWire s₀ (shutdownTries s₀.cfg) l)
      (h : ShuttingDown s₀ (l ++ [.closed]) false true [] s)

section

variable {s₀ s t : State}

/-- What every stage has. -/
theorem ShutdownStage.shuttingDown (h : ShutdownStage s₀ s) : ∃ w isOpen hasEnded p,
    ShuttingDown s₀ w isOpen hasEnded p s ∧ (p ≠ [] → hasEnded = false) := by
  cases h with
  | trying _ _ _ _ _ h => exact ⟨_, _, _, _, h, fun _ => rfl⟩
  | closed _ _ h => exact ⟨_, _, _, _, h, fun _ => rfl⟩
  | ended _ _ h => exact ⟨_, _, _, _, h, fun hne => absurd rfl hne⟩

/-- What keeps the shutdown as it is keeps its stage. -/
theorem ShutdownStage.mono (h : ShutdownStage s₀ s) (hkeep : ∀ {w isOpen hasEnded p},
    ShuttingDown s₀ w isOpen hasEnded p s → ShuttingDown s₀ w isOpen hasEnded p t) : ShutdownStage s₀ t := by
  cases h with
  | trying done todo l hsplit hl h => exact .trying done todo l hsplit hl (hkeep h)
  | closed l hl h => exact .closed l hl (hkeep h)
  | ended l hl h => exact .ended l hl (hkeep h)

/-- R158, R220, R230: what does not wait changes no more than `RXQ` and the stop flag while the host shuts down. -/
theorem runEvent_of_shuttingDown {e : Event} (hloop : s.host.loop = .shuttingDown) (he : e.waits = false) :
    ∃ q stop, runEvent e s = .next { s with rxq := q, host := { s.host with stopFlag := stop } } := by
  obtain himm | rfl := Event.immediate_or_proceed he
  · cases e with
    | present f =>
      cases f with
      | inFrame bs => exact ⟨_, s.host.stopFlag, by rw [runEvent, presentFetch_inFrame, State.arrive_eq]⟩
      | request | outFrame => cases himm
    | hostStop => exact ⟨s.rxq, true, rfl⟩
    | hostException => exact ⟨s.rxq, s.host.stopFlag, runEvent_hostException_dropped s (.inl (by simp [hloop]))⟩
    | _ => cases himm
  · exact ⟨s.rxq, s.host.stopFlag, rfl⟩

theorem ShutdownStage.event {e : Event} (rest : List Event) (h : ShutdownStage s₀ s) (he : e.waits = false) :
    ∃ t, runEvent e { s with inbox := rest } = .next t ∧ ShutdownStage s₀ t ∧ t.inbox = rest ∧
      t.host.plan = s.host.plan := by
  obtain ⟨_, _, _, _, hdown, _⟩ := h.shuttingDown
  obtain ⟨q, stop, hrun⟩ := runEvent_of_shuttingDown (s := { s with inbox := rest }) hdown.loop he
  exact ⟨_, hrun, h.mono fun hd => { hd with }, rfl, rfl⟩

/-- One attempt more. -/
theorem ShuttingDown.attempt {w : List WireEvent} {x : ShutdownTry} {p : List HostAct}
    (h : ShuttingDown s₀ w true false (x.act :: p) s) (rest : List Event) :
    ∃ t e, runAct x.act { s with host := { s.host with plan := p }, inbox := rest } = .next t ∧
      ShuttingDown s₀ (w ++ [e]) true false p t ∧ (s₀.txq = [] → x.leaves s₀.cfg.rawRound e) ∧ t.inbox = rest := by
  obtain ⟨t, entries, ⟨hidle, hopen, ⟨hhost, hin, hcfg⟩, hsent, e, hwire, hleaves⟩, hrun⟩ :=
    x.runAct_act (s := { s with host := { s.host with plan := p }, inbox := rest }) h.idle h.busOpen
  refine ⟨_, e, hrun, ?_, fun hq => h.cfg ▸ hleaves (h.sent hq), hin⟩
  exact {
    idle := hidle
    cfg := hcfg.trans h.cfg
    loop := (congrArg HostState.loop hhost).trans h.loop
    error := (congrArg HostState.error hhost).trans h.error
    plan := congrArg HostState.plan hhost
    busOpen := hopen.trans h.busOpen
    ended := (congrArg HostState.ended hhost).trans h.ended
    wire := by rw [hwire, h.wire, List.append_assoc]
    sent := fun hq => hsent (h.sent hq) }

/-- R155, R232: the close. -/
theorem ShuttingDown.close {w : List WireEvent} (h : ShuttingDown s₀ w true false shutdownEnd s) (rest : List Event) :
    ∃ t, runAct (.issue { op := 0x02 } .logContinue)
        { s with host := { s.host with plan := [.exit] }, inbox := rest } = .next t ∧
      ShuttingDown s₀ (w ++ [.closed]) false false [.exit] t ∧ t.inbox = rest := by
  obtain ⟨entries, hrun⟩ :=
    runAct_close (s := { s with host := { s.host with plan := [.exit] }, inbox := rest }) h.busOpen
  refine ⟨_, hrun, { h with idle := rfl, plan := rfl, busOpen := rfl, sent := fun _ => rfl, wire := ?_ }, rfl⟩
  rw [← List.append_assoc, ← h.wire]
  rfl

theorem ShutdownStage.act {a : HostAct} {p : List HostAct} (rest : List Event) (h : ShutdownStage s₀ s)
    (hplan : s.host.plan = a :: p) :
    ∃ t, runAct a { s with host := { s.host with plan := p }, inbox := rest } = .next t ∧ ShutdownStage s₀ t ∧
      t.inbox = rest ∧ t.host.plan = p := by
  cases h with
  | trying done todo l hsplit hl h =>
    cases todo with
    | nil =>
      obtain ⟨rfl, rfl⟩ := List.cons.inj (hplan.symm.trans h.plan)
      obtain ⟨t, hrun, ht, hin⟩ := h.close rest
      exact ⟨t, hrun, .closed l (by rwa [← hsplit, List.append_nil]) ht, hin, ht.plan⟩
    | cons x todo =>
      obtain ⟨rfl, rfl⟩ := List.cons.inj (hplan.symm.trans h.plan)
      obtain ⟨t, e, hrun, ht, hleaves, hin⟩ := h.attempt rest
      refine ⟨t, hrun, .trying (done ++ [x]) todo (l ++ [e]) ?_ ?_ ht, hin, ht.plan⟩
      · rw [← hsplit, List.append_assoc, List.singleton_append]
      · exact List.rel_append hl (.cons hleaves .nil)
  | closed l hl h =>
    obtain ⟨rfl, rfl⟩ := List.cons.inj (hplan.symm.trans h.plan)
    exact ⟨_, rfl, .ended l hl { h with plan := rfl, ended := rfl }, rfl, rfl⟩
  | ended l hl h => exact absurd (hplan.symm.trans h.plan) (List.cons_ne_nil _ _)

theorem shutdownStage_planInvariant (s₀ : State) : PlanInvariant (ShutdownStage s₀) where
  idle h := by
    obtain ⟨_, _, _, _, hdown, _⟩ := h.shuttingDown
    exact hdown.idle
  going h hne := by
    obtain ⟨_, _, _, _, hdown, hgo⟩ := h.shuttingDown
    exact hdown.ended.trans (hgo (hdown.plan ▸ hne))
  event rest h he := h.event rest he
  act rest h hplan := h.act rest hplan

/-- A shutdown with nothing left is at its end. -/
theorem ShutdownStage.of_plan_nil (h : ShutdownStage s₀ s) (hplan : s.host.plan = []) :
    ∃ l, LeftOnWire s₀ (shutdownTries s₀.cfg) l ∧ ShuttingDown s₀ (l ++ [.closed]) false true [] s := by
  cases h with
  | trying _ _ _ _ _ h => exact absurd (hplan.symm.trans h.plan).symm (List.append_ne_nil_of_right_ne_nil _ nofun)
  | closed _ _ h => exact absurd (hplan.symm.trans h.plan).symm (List.cons_ne_nil _ _)
  | ended l hl h => exact ⟨l, hl, h⟩

/-- R231: an exception in `Running` begins the shutdown, whatever was planned. -/
theorem step_hostException {late : List Event} (hidle : s.seq = .idle) (hin : s.inbox = .hostException :: late)
    (hloop : s.host.loop = .running) (hgo : s.host.ended = false) (hb : s.busOpen = true) :
    ∃ t, step s = .next t ∧ ShutdownStage s t ∧ t.inbox = late ∧ t.host.plan = planShutdown s.cfg := by
  have hplan : planShutdown s.cfg ++ [] = planShutdown s.cfg := List.append_nil _
  rw [step_event s _ late hidle hin (.inr rfl), runEvent, if_pos ⟨hloop, hgo⟩]
  refine ⟨_, rfl, .trying [] (shutdownTries s.cfg) [] rfl .nil ?_, rfl, hplan⟩
  rw [← planShutdown_eq]
  exact ⟨hidle, rfl, rfl, rfl, hplan, hb, hgo, (List.append_nil _).symm, id⟩

end

/-- Settles O57: the exception begins the shutdown, whose stages are an invariant of its plan up to its end. -/
theorem shutdownAlwaysCloses : Obligations.ShutdownAlwaysCloses := by
  unfold Obligations.ShutdownAlwaysCloses
  intro s late hidle hin hlate hloop hgo hb
  obtain ⟨u, hstep, hu, hinu, hplanu⟩ := step_hostException hidle hin hloop hgo hb
  have hpending : u.pending = 10 + late.length := by rw [State.pending, hplanu, hinu]; rfl
  have hnow : u.NoneWaits := fun e he => hlate e (hinu ▸ he)
  obtain ⟨t, hrun, ht, hplan, hint⟩ := (shutdownStage_planInvariant s).run (10 + late.length) hu hnow hpending.le
  obtain ⟨l, hl, hend⟩ := ht.of_plan_nil hplan
  have hcount : 11 + late.length = 10 + late.length + 1 := by omega
  refine ⟨t, l, ?run, hend.busOpen, hend.ended, hend.error, hint, hplan, ?wire, fun hq => ?frames⟩
  case run => rw [hcount, core_run_succ hstep, hrun]
  case wire => rw [hend.wire, List.append_assoc]
  case frames =>
    match l, hl with
    | _, .cons h₁ (.cons hy (.cons h₂ (.cons hp (.cons h₃ (.cons hfy (.cons h₄ (.cons hfp .nil))))))) =>
      obtain rfl := h₁ hq
      obtain rfl := h₂ hq
      obtain rfl := h₃ hq
      obtain rfl := h₄ hq
      exact ⟨_, _, _, _, rfl, hy hq, hp hq, hfy hq, hfp hq⟩

end Sys2Proof.Machine
end

section
/-! PROOFS, family 42_servo_commands: what a write of one whole frame leaves on a spaced line when it succeeds and when
it fails, each servo command as its prepared write, and `RDPOS` by the outcome of its request and by what arrives. -/

namespace Sys2Proof.Machine

/-! ## One frame on a spaced line, written or cut -/

/-- What the write of a whole frame that is no read request leaves (R152); `m` is what it makes of the actuators' cells
on a clean line (log entries 13 and 14). -/
def State.afterWrite (f : List Byte) (m : Memory) (s : State) : State :=
  { s with wire := s.wire ++ [.wrote f], tmrGap := .since 0, actMem := if s.lineClean = true then m else [],
           env := { s.env with writes := s.env.writes.tail }, draws := s.draws + 1 }

/-- What a failed write of such a frame leaves when its draw is `k` (R152, U14; log entries 14 and 16). -/
def State.afterCut (f : List Byte) (k : Nat) (s : State) : State :=
  { s with txq := [], wire := s.wire ++ [.cut (f.take (min k (f.length - 1)))], err := .busWriteFailure,
           tmrGap := if k = 0 then s.tmrGap else .since 0, actMem := if k = 0 then s.actMem else [],
           lineClean := s.lineClean && decide (k = 0),
           env := { s.env with writes := s.env.writes.tail }, draws := s.draws + 1 }

section

variable {s : State} {f : List Byte} {m : Memory}

/-- R152: the write of one whole frame, which opens a window when it is a read request. -/
theorem State.busWrite_wholeFrame (hf : f ≠ []) (hspaced : s.lineSpaced = true) (hq : s.txq = [])
    (hw : s.nextWrite = .ok) (heffect : actuatorEffect (s.tmrGap.atLeast params.tTorque) f s.actMem = some m) :
    s.busWrite f = (true, { s.afterWrite f m with rqWindow := carriesRequest f }) := by
  obtain ⟨hgap, hwindow⟩ := s.lineSpaced_iff.mp hspaced
  rw [s.busWrite_spaced f hf hgap hwindow hq hw, State.actuate_wholeFrame heffect]
  rfl

/-- The same for a frame that is no read request. -/
theorem State.busWrite_commandFrame (hf : f ≠ []) (hspaced : s.lineSpaced = true) (hq : s.txq = [])
    (hw : s.nextWrite = .ok) (hreq : carriesRequest f = false)
    (heffect : actuatorEffect (s.tmrGap.atLeast params.tTorque) f s.actMem = some m) :
    s.busWrite f = (true, s.afterWrite f m) := by
  obtain ⟨_, hwindow⟩ := s.lineSpaced_iff.mp hspaced
  rw [State.busWrite_wholeFrame hf hspaced hq hw heffect, hreq, ← hwindow]
  rfl

/-- R152, U14: the cut part is empty exactly when the draw is 0, a frame having more than one byte. -/
theorem State.busWrite_cutFrame {k : Nat} (hlen : 1 < f.length) (hspaced : s.lineSpaced = true)
    (hw : s.nextWrite = .fail k) (hreq : carriesRequest f = false) :
    s.busWrite f = (false, s.afterCut f k) := by
  obtain ⟨hgap, hwindow⟩ := s.lineSpaced_iff.mp hspaced
  have hf : f ≠ [] := List.ne_nil_of_length_pos (Nat.zero_lt_of_lt hlen)
  have hnone : f.take (min k (f.length - 1)) = [] ↔ k = 0 := by
    rw [List.take_eq_nil_iff, or_iff_left hf]
    omega
  rw [s.busWrite_fail f k hf hw, s.checkGap_spaced hgap hwindow, State.cutWrite_eq, carriesRequest_take f _ hreq,
    Bool.or_false]
  simp only [hnone]
  rfl

/-! ## The end of a command -/

theorem State.writeAndEnd_of_written {t : State} (h : s.busWrite f = (true, t)) :
    s.writeAndEnd f = t.complete .none := by
  rw [State.writeAndEnd, h]

/-- R171: a failed write is raised. -/
theorem State.writeAndEnd_of_failed {t : State} (h : s.busWrite f = (false, t)) :
    s.writeAndEnd f = t.raise .busWriteFailure := by
  rw [State.writeAndEnd, h]

/-- What is known of the actuators after a whole frame. -/
theorem State.afterWrite_actMem_clean (hc : s.lineClean = true) : (s.afterWrite f m).actMem = m := if_pos hc

theorem State.afterWrite_actMem_dirty (hc : s.lineClean = false) : (s.afterWrite f m).actMem = [] :=
  if_neg (by rw [hc]; exact Bool.false_ne_true)

end

/-! ## The commands as prepared writes -/

/-- What the Free frame makes of the actuators' cells (R72, R273). -/
def Memory.freed (id : Byte) (m : Memory) : Memory := m.write (regAddr id params.addrTorqueMode) params.dataFree

theorem Memory.freed_read_mode (id : Byte) (m : Memory) :
    (m.freed id).read (regAddr id params.addrTorqueMode) = some params.dataFree := Memory.read_write_same _ _ _

theorem Memory.freed_read_other (id : Byte) (m : Memory) {a : Nat} (ha : a ≠ regAddr id params.addrTorqueMode) :
    (m.freed id).read a = m.read a := Memory.read_write_other _ _ a _ ha

/-- The state in which `TQ_ON` and `TQ_OFF` write the Free frame (R172, R173). -/
def State.beforeFree (id : Byte) (s : State) : State :=
  { s with seq := .tqWrFree, seqTrace := [.tqEncFree, .tqWrFree], txbuf := lineFree id ++ s.txbuf.drop 8, txlen := 8 }

/-- The state in which `TQ_ON`, accepted in `s`, writes the Normal frame: the Free frame is out and the wait is over
(R172). -/
def State.beforeNormal (id : Byte) (s : State) : State :=
  { s with seq := .tqWrNormal, seqTrace := [.tqEncFree, .tqWrFree, .tqWait, .tqEncNormal, .tqWrNormal],
           txbuf := lineNormal id ++ s.txbuf.drop 8, txlen := 8,
           wire := s.wire ++ [.wrote (lineFree id), .waited 100000], tmrDelay := .stopped, tmrGap := .since 100000,
           actMem := if s.lineClean = true then s.actMem.freed id else [],
           env := { s.env with writes := s.env.writes.tail }, draws := s.draws + 1 }

/-- The state in which `SETPOS` writes its frame (R175). -/
def State.beforePosition (f : List Byte) (s : State) : State :=
  { s with seq := .spWrite, seqTrace := [.spConv, .spClamp, .spEnc, .spWrite],
           txbuf := f ++ s.txbuf.drop f.length, txlen := f.length }

section

variable {s : State} {id : Byte}

theorem State.beforeFree_eq :
    ((s.accept.enter .tqEncFree).setTx (lineFree id)).enter .tqWrFree = s.beforeFree id := rfl

/-- R172: from the written Free frame to the Normal frame. -/
theorem State.beforeNormal_eq :
    ((((((s.beforeFree id).afterWrite (lineFree id) (s.actMem.freed id)).enter .tqWait).delay params.tTorque).enter
      .tqEncNormal).setTx (lineNormal id)).enter .tqWrNormal = s.beforeNormal id := by
  simp only [State.beforeFree, State.afterWrite, State.enter, State.delay, State.elapse, State.setTx, List.append_assoc]
  rfl

/-- The write of the Free frame. -/
theorem State.busWrite_free (hspaced : s.lineSpaced = true) (hq : s.txq = []) (hw : s.nextWrite = .ok) :
    (s.beforeFree id).busWrite (lineFree id) =
      (true, (s.beforeFree id).afterWrite (lineFree id) (s.actMem.freed id)) :=
  State.busWrite_commandFrame (s := s.beforeFree id) (List.cons_ne_nil _ _) hspaced hq hw (carriesRequest_free _ _)
    (actuatorEffect_free _ _ _)

/-- The write of the Free frame, cut. -/
theorem State.busWrite_free_cut {k : Nat} (hspaced : s.lineSpaced = true) (hw : s.nextWrite = .fail k) :
    (s.beforeFree id).busWrite (lineFree id) = (false, (s.beforeFree id).afterCut (lineFree id) k) :=
  State.busWrite_cutFrame (s := s.beforeFree id) (by simp [lineFree]) hspaced hw (carriesRequest_free _ _)

/-- R302: the wait has let the gap pass. -/
theorem State.beforeNormal_lineSpaced (hspaced : s.lineSpaced = true) : (s.beforeNormal id).lineSpaced = true := by
  obtain ⟨_, hwindow⟩ := s.lineSpaced_iff.mp hspaced
  exact (State.lineSpaced_iff _).mpr ⟨rfl, hwindow⟩

theorem State.beforeNormal_actMem_clean (hc : s.lineClean = true) : (s.beforeNormal id).actMem = s.actMem.freed id :=
  if_pos hc

theorem State.beforeNormal_actMem_dirty (hc : s.lineClean = false) : (s.beforeNormal id).actMem = [] :=
  if_neg (by rw [hc]; exact Bool.false_ne_true)

/-- R302, U3: on a clean line `TQ_ON` has made Free known and has waited long enough, so Normal is entered. -/
theorem actuatorEffect_beforeNormal (hc : s.lineClean = true) :
    actuatorEffect ((s.beforeNormal id).tmrGap.atLeast params.tTorque) (lineNormal id) (s.beforeNormal id).actMem =
      some ((s.actMem.freed id).write (regAddr id params.addrTorqueMode) params.dataNormal) := by
  have hsettled : (s.beforeNormal id).tmrGap.atLeast params.tTorque = true := rfl
  rw [State.beforeNormal_actMem_clean hc, actuatorEffect_normal, hsettled, Memory.freed_read_mode]
  rfl

theorem opTqOff_of_open (hb : s.busOpen = true) :
    opTqOff id s = (s.beforeFree id).writeAndEnd (lineFree id) := by
  rw [opTqOff, s.needBus_open _ hb, frameTq_free, State.beforeFree_eq]

theorem opSetpos_of_open (hb : s.busOpen = true) (d : Deg) : opSetpos id d s =
    (s.beforePosition (linePosition id (setposRaw s.cfg.rawRound d))).writeAndEnd
      (linePosition id (setposRaw s.cfg.rawRound d)) := by
  rw [opSetpos, s.needBus_open _ hb, frameSp_closed]
  rfl

/-- R172: with the Free frame written, the rest is the wait and the Normal frame. -/
theorem opTqOn_of_written (hb : s.busOpen = true) (hspaced : s.lineSpaced = true) (hq : s.txq = [])
    (hw : s.nextWrite = .ok) : opTqOn id s = (s.beforeNormal id).writeAndEnd (lineNormal id) := by
  rw [opTqOn, s.needBus_open _ hb, frameTq_free, frameTq_normal]
  simp only [State.beforeFree_eq, State.busWrite_free hspaced hq hw, State.beforeNormal_eq]

/-- R172: a failed first write ends the command. -/
theorem opTqOn_of_cut {k : Nat} (hb : s.busOpen = true) (hspaced : s.lineSpaced = true) (hw : s.nextWrite = .fail k) :
    opTqOn id s = ((s.beforeFree id).afterCut (lineFree id) k).raise .busWriteFailure := by
  rw [opTqOn, s.needBus_open _ hb, frameTq_free]
  simp only [State.beforeFree_eq, State.busWrite_free_cut hspaced hw]

end

/-! ## The torque commands -/

/-- Settles O30: the write of the Free frame is all of `TQ_OFF`. -/
theorem tqOffSendsFreeOnly : Obligations.TqOffSendsFreeOnly := by
  unfold Obligations.TqOffSendsFreeOnly
  intro s id hb hq hspaced hw
  have hop := (opTqOff_of_open hb).trans (State.writeAndEnd_of_written (State.busWrite_free (id := id) hspaced hq hw))
  refine ⟨opTqOff id s, rfl, ?next, fun hc => ?clean, fun hc a => ?dirty⟩
  all_goals rw [hop]
  case next => rfl
  case clean =>
    rw [State.complete_actMem, State.afterWrite_actMem_clean (s := s.beforeFree id) hc]
    exact ⟨Memory.freed_read_mode id _, fun a ha => Memory.freed_read_other id _ ha⟩
  case dirty =>
    rw [State.complete_actMem, State.afterWrite_actMem_dirty (s := s.beforeFree id) hc]
    rfl

/-- R172: what the second write of `TQ_ON` leaves when it succeeds, whatever the line was before. -/
theorem State.busWrite_normal {s : State} {id : Byte} (hspaced : s.lineSpaced = true) (hq : s.txq = [])
    (hw : s.popWrite.nextWrite = .ok) : ∃ m : Memory,
      (s.beforeNormal id).busWrite (lineNormal id) = (true, (s.beforeNormal id).afterWrite (lineNormal id) m) ∧
      (s.lineClean = true → m = (s.actMem.freed id).write (regAddr id params.addrTorqueMode) params.dataNormal) := by
  have heffect :=
    actuatorEffect_normal ((s.beforeNormal id).tmrGap.atLeast params.tTorque) id (s.beforeNormal id).actMem
  refine ⟨_, State.busWrite_commandFrame (s := s.beforeNormal id) (List.cons_ne_nil _ _)
    (State.beforeNormal_lineSpaced hspaced) hq hw (carriesRequest_normal _ _) heffect, fun hc => ?_⟩
  exact Option.some.inj (heffect.symm.trans (actuatorEffect_beforeNormal hc))

/-- Settles O28: the Free frame, then the Normal frame on what it and the wait left. -/
theorem tqOnSendsFreeThenNormal : Obligations.TqOnSendsFreeThenNormal := by
  unfold Obligations.TqOnSendsFreeThenNormal
  intro s id hb hq hspaced hw hw2
  obtain ⟨m, hnormal, hm⟩ := State.busWrite_normal (id := id) hspaced hq hw2
  have hop := (opTqOn_of_written hb hspaced hq hw).trans (State.writeAndEnd_of_written hnormal)
  refine ⟨opTqOn id s, rfl, ?next, fun hc => ?clean, fun hc a => ?dirty⟩
  all_goals rw [hop]
  case next =>
    apply State.ext
    case wire => exact List.append_assoc _ _ _
    all_goals rfl
  case clean =>
    rw [State.complete_actMem, State.afterWrite_actMem_clean (s := s.beforeNormal id) hc, hm hc]
    refine ⟨Memory.read_write_same _ _ _, fun a ha => ?_⟩
    rw [Memory.read_write_other _ _ a _ ha, Memory.freed_read_other id _ ha]
  case dirty =>
    rw [State.complete_actMem, State.afterWrite_actMem_dirty (s := s.beforeNormal id) hc]
    rfl

/-- Settles O29: the failed write is the first or the second, and ends the command with what it left. -/
theorem tqOnStopsAtTheFailedWrite : Obligations.TqOnStopsAtTheFailedWrite := by
  unfold Obligations.TqOnStopsAtTheFailedWrite
  intro s id k hb hq hspaced
  refine ⟨fun hw => ⟨opTqOn id s, rfl, ?first⟩, fun hw hw2 => ?second⟩
  case first =>
    rw [opTqOn_of_cut hb hspaced hw]
    apply State.ext
    case txq => exact hq.symm
    all_goals rfl
  case second =>
    have hcut := State.busWrite_cutFrame (s := s.beforeNormal id) (f := lineNormal id) (by simp [lineNormal])
      (State.beforeNormal_lineSpaced hspaced) hw2 (carriesRequest_normal _ _)
    have hop := (opTqOn_of_written hb hspaced hq hw).trans (State.writeAndEnd_of_failed hcut)
    have hmem : (opTqOn id s).actMem = if k = 0 then (s.beforeNormal id).actMem else [] := congrArg State.actMem hop
    refine ⟨opTqOn id s, rfl, ?next, fun hun => ?unknown, fun hk hc => ?free⟩
    case next =>
      rw [hop]
      apply State.ext
      case txq => exact hq.symm
      case wire => exact List.append_assoc _ _ _
      all_goals rfl
    case unknown =>
      rw [hmem]
      obtain hk | hc := hun
      · exact if_neg hk
      · rw [State.beforeNormal_actMem_dirty hc, ite_self]
    case free =>
      rw [hmem, if_pos hk, State.beforeNormal_actMem_clean hc]
      exact ⟨Memory.freed_read_mode id _, fun a ha => Memory.freed_read_other id _ ha⟩

/-! ## `SETPOS` -/

/-- R175, R205: the integer clamp, by where the converted angle stands. -/
theorem clampElectrical_cases {q raw : Int} (h : clampElectrical q = raw) :
    (q ≤ -8000 → raw = -8000) ∧ (8000 ≤ q → raw = 8000) ∧ (-8000 ≤ q → q ≤ 8000 → raw = q) := by
  have hclamp : min (max q (-8000)) 8000 = raw := h
  omega

/-- The cells of actuator `id` that `moved` lists made unknown (R82). -/
def Memory.displaced (id : Byte) (m : Memory) : Memory :=
  (((m.erase (regAddr id params.addrTgtPos)).erase (regAddr id 0x2B)).erase (regAddr id params.addrCurPos)).erase
    (regAddr id 0x2D)

theorem Memory.displaced_read_moved {id : Byte} {a : Nat} (ha : a ∈ moved id) (m : Memory) :
    (m.displaced id).read a = none := (m.read_erase_moved id a).trans (if_pos ha)

theorem Memory.displaced_read_other {id : Byte} {a : Nat} (ha : a ∉ moved id) (m : Memory) :
    (m.displaced id).read a = m.read a := (m.read_erase_moved id a).trans (if_neg ha)

/-- R82: a position frame, whatever its position. -/
theorem actuatorEffect_linePosition (b : Bool) (id : Byte) (raw : Half) (m : Memory) :
    actuatorEffect b (linePosition id raw) m = some (m.displaced id) := actuatorEffect_position _ _ _ _ _

/-- The write of `SETPOS`. -/
theorem State.busWrite_position {s : State} {id : Byte} {raw : Half} (hspaced : s.lineSpaced = true) (hq : s.txq = [])
    (hw : s.nextWrite = .ok) : (s.beforePosition (linePosition id raw)).busWrite (linePosition id raw) =
      (true, (s.beforePosition (linePosition id raw)).afterWrite (linePosition id raw) (s.actMem.displaced id)) :=
  State.busWrite_commandFrame (s := s.beforePosition _) (List.cons_ne_nil _ _) hspaced hq hw (carriesRequest_sp _ _ _ _)
    (actuatorEffect_linePosition _ _ _ _)

/-- The write of `SETPOS`, cut. -/
theorem State.busWrite_position_cut {s : State} {id : Byte} {raw : Half} {k : Nat} (hspaced : s.lineSpaced = true)
    (hw : s.nextWrite = .fail k) : (s.beforePosition (linePosition id raw)).busWrite (linePosition id raw) =
      (false, (s.beforePosition (linePosition id raw)).afterCut (linePosition id raw) k) :=
  State.busWrite_cutFrame (s := s.beforePosition _) (by simp [linePosition]) hspaced hw (carriesRequest_sp _ _ _ _)

/-- Settles O31: the frame of the clamped angle is a command frame, which displaces the cells of `moved`. -/
theorem setposSendsTheClampedPosition : Obligations.SetposSendsTheClampedPosition := by
  unfold Obligations.SetposSendsTheClampedPosition
  intro s id d hb hq hspaced hw
  obtain ⟨hlow, hhigh, hwithin⟩ := clampElectrical_cases (q := degToRaw s.cfg.rawRound d) rfl
  have hop := (opSetpos_of_open (id := id) hb d).trans
    (State.writeAndEnd_of_written (State.busWrite_position hspaced hq hw))
  refine ⟨opSetpos id d s, _, _, rfl, rfl, hlow, hhigh, hwithin, ?next,
    fun a ha => ?moved, fun hc a ha => ?other, fun hc a => ?dirty⟩
  all_goals rw [hop]
  case next => rfl
  all_goals rw [State.complete_actMem]
  case moved =>
    cases hc : s.lineClean with
    | false => rw [State.afterWrite_actMem_dirty (s := s.beforePosition _) hc, Memory.read]
    | true => rw [State.afterWrite_actMem_clean (s := s.beforePosition _) hc, Memory.displaced_read_moved ha]
  case other => rw [State.afterWrite_actMem_clean (s := s.beforePosition _) hc, Memory.displaced_read_other ha]
  case dirty => rw [State.afterWrite_actMem_dirty (s := s.beforePosition _) hc, Memory.read]

/-! ## Failed writes -/

/-- Settles O32: the one write of either command is cut. -/
theorem failedServoWritesAreRaised : Obligations.FailedServoWritesAreRaised := by
  unfold Obligations.FailedServoWritesAreRaised
  intro s id d k hb hspaced hw
  refine ⟨⟨opTqOff id s, rfl, ?free⟩, ⟨opSetpos id d s, _, rfl, rfl, ?position⟩⟩
  case free =>
    rw [opTqOff_of_open hb, State.writeAndEnd_of_failed (State.busWrite_free_cut hspaced hw)]
    rfl
  case position =>
    rw [opSetpos_of_open hb d, State.writeAndEnd_of_failed (State.busWrite_position_cut hspaced hw)]
    rfl

/-! ## `RDPOS` by the outcome of its request -/

section

variable {s u : State} {id : Byte}

/-- The state in which `RDPOS`, accepted in `s`, writes its request: the flush is done (R176). -/
def State.requesting (id : Byte) (s : State) : State :=
  { s with seq := .rdWrite, seqTrace := [.rdFlush, .rdEnc, .rdWrite], rxq := [], txq := [], rqWindow := false,
           wire := s.wire ++ [.flushed], txbuf := lineRequest id ++ s.txbuf.drop 7, txlen := 7 }

theorem State.requesting_eq : s.accept.beforeRequest id = s.requesting id := by
  rw [State.beforeRequest, frameRd_closed]
  rfl

/-- R176: `RDPOS` when its request was written, by what came back. -/
theorem opRdpos_of_written (hb : s.busOpen = true) (h : (s.requesting id).busWrite (lineRequest id) = (true, u)) :
    opRdpos id s = match decodeResponse u.readResponse.1 with
      | some v => (u.storeResponse.setOutcome false).complete (.deg (rawToDeg v))
      | none => (((u.storeResponse.setOutcome true).absorb .shortResponse).emit
          (.shortResponse id u.readResponse.1.length)).complete .absentValue := by
  rw [← State.requesting_eq, State.beforeRequest, ← frameRd_closed] at h
  rw [opRdpos_open id s hb]
  simp only [readPosition, h, State.storeResponse, State.readResponse]
  cases decodeResponse _ <;> rfl

/-- R176, R171: `RDPOS` when its request failed: absorbed and logged. -/
theorem opRdpos_of_failed (hb : s.busOpen = true) (h : (s.requesting id).busWrite (lineRequest id) = (false, u)) :
    opRdpos id s = State.complete .absentValue
      { u with rxbuf := rxTailBytes u.draws 0, rxlen := 0, draws := u.draws + 1, rspShort := true, posValid := false,
               err := .busWriteFailure, log := u.log ++ [⟨.warning, .writeFailed id⟩] } := by
  rw [← State.requesting_eq, State.beforeRequest, ← frameRd_closed] at h
  rw [opRdpos_open id s hb]
  simp only [readPosition, h]
  rfl

/-- R136: seven bytes carry the position of their offsets 4 and 5. -/
theorem decodeResponse_of_le {r : List Byte} (h : 7 ≤ r.length) :
    decodeResponse r = some (get16le (r.getD 4 0) (r.getD 5 0)) := if_pos h

/-- R108: a position is a signed 16-bit value. -/
theorem decodeResponse_bounds {r : List Byte} {v : Raw} (h : decodeResponse r = some v) :
    -32768 ≤ v ∧ v ≤ 32767 := by
  unfold decodeResponse at h
  split at h
  next =>
    obtain ⟨hlo, hhi, _⟩ := le16_toInt_cases (r.getD 4 0) (r.getD 5 0)
    obtain rfl := Option.some.inj h
    exact ⟨hlo, hhi⟩
  next => cases h

/-- R194: a position in degrees is its count of hundredths. -/
theorem hundred_mul_rawToDeg (v : Raw) : 100 * rawToDeg v = (v : Rat) := by
  rw [rawToDeg, Rat.mkRat_eq_div]
  push_cast
  ring

/-- The wait, the read and the store of the response leave `ERR` and the log. -/
theorem State.storeResponse_frame (u : State) : u.storeResponse.err = u.err ∧ u.storeResponse.log = u.log := by
  have hread : u.readResponse.2.err = u.err ∧ u.readResponse.2.log = u.log := by
    rw [State.readResponse, State.busRead_frame]
    exact ⟨rfl, rfl⟩
  exact hread

/-- A request that was written leaves `ERR` and the log. -/
theorem State.busWrite_written_frame {f : List Byte} (h : s.busWrite f = (true, u)) :
    u.err = s.err ∧ u.log = s.log := by
  have herr := s.busWrite_err f
  have hlog : (s.busWrite f).2.log = s.log := by rw [State.busWrite_frame]
  rw [h] at herr hlog
  exact ⟨herr, hlog⟩

end

/-! ## `RDPOS` raises nothing -/

/-- R44, R253: the two ways in which `RDPOS` completes. -/
theorem opRdpos_outcome {s : State} (hb : s.busOpen = true) (id : Byte) :
    (∃ (u : State) (v : Raw), opRdpos id s = (u.setOutcome false).complete (.deg (rawToDeg v)) ∧ u.err = s.err ∧
        u.log = s.log ∧ -32768 ≤ v ∧ v ≤ 32767) ∨
      ∃ u : State, opRdpos id s = u.complete .absentValue ∧ u.rspShort = true ∧ u.posValid = false ∧
        u.err ≠ .none := by
  rcases hwrite : (s.requesting id).busWrite (lineRequest id) with ⟨_ | _, u⟩
  case false =>
    rw [opRdpos_of_failed hb hwrite]
    exact .inr ⟨_, rfl, rfl, rfl, nofun⟩
  case true =>
    rw [opRdpos_of_written hb hwrite]
    split
    next v hd =>
      obtain ⟨hlo, hhi⟩ := decodeResponse_bounds hd
      obtain ⟨herr, hlog⟩ := State.busWrite_written_frame hwrite
      obtain ⟨herr', hlog'⟩ := u.storeResponse_frame
      exact .inl ⟨u.storeResponse, v, rfl, herr'.trans herr, hlog'.trans hlog, hlo, hhi⟩
    next => exact .inr ⟨_, rfl, rfl, rfl, nofun⟩

/-- Settles O34: `RDPOS` ends in one of two ways; a failed request touches neither the calibration nor the channel. -/
theorem rdposNeverRaises : Obligations.RdposNeverRaises := by
  unfold Obligations.RdposNeverRaises
  intro s id hb
  refine ⟨?completes, fun k hw => ?failed⟩
  case completes =>
    obtain ⟨u, v, hop, herr, hlog, hlo, hhi⟩ | ⟨u, hop, hshort, hvalid, herr⟩ := opRdpos_outcome hb id
    · refine ⟨opRdpos id s, rawToDeg v, rfl, .inl ?_⟩
      rw [hop]
      exact ⟨rfl, rfl, herr, hlog, rfl, v, hlo, hhi, hundred_mul_rawToDeg v⟩
    · refine ⟨opRdpos id s, 0, rfl, .inr ?_⟩
      rw [hop]
      exact ⟨hshort, hvalid, herr, rfl⟩
  case failed =>
    have hwrite := State.busWrite_fail (s.requesting id) (lineRequest id) k (List.cons_ne_nil _ _) hw
    rw [State.cutWrite_eq, State.checkGap_frame] at hwrite
    refine ⟨opRdpos id s, rfl, ?_⟩
    rw [opRdpos_of_failed hb hwrite]
    exact ⟨rfl, rfl, rfl, rfl, rfl, rfl, rfl, rfl, rfl, rfl, rfl, rfl, List.append_assoc _ _ _⟩

/-! ## What `RDPOS` reads -/

/-- R153, R176: the wait and the read after a request, when `RXQ` is empty and `r` arrives (log entries 16, 26, 34). -/
theorem State.readResponse_of_arrivals {u : State} {r : List Byte} (hq : u.rxq = []) (hr : u.nextArrivals = r) :
    u.readResponse = (r.take 12,
      { u with seq := .rdRead, seqTrace := u.seqTrace ++ [.rdWait] ++ [.rdRead], rxq := r.drop 12,
               tmrDelay := .stopped, tmrRto := .stopped,
               tmrGap := if r.length < 12 then (u.tmrGap.add 50000).add 100000 else u.tmrGap.add 50000,
               rqWindow := false, wire := u.wire ++ [.waited 50000] ++ [.readBack 12 (r.take 12)],
               env := { u.env with arrivals := u.env.arrivals.tail }, draws := u.draws + 1 }) := by
  subst hr
  have hwaited : ((u.enter .rdWait).delay params.tPostWrite).enter .rdRead =
      { u with seq := .rdRead, seqTrace := u.seqTrace ++ [.rdWait] ++ [.rdRead], tmrDelay := .stopped,
               tmrGap := u.tmrGap.add 50000, wire := u.wire ++ [.waited 50000] } := rfl
  rw [State.readResponse, hwaited, State.busRead, State.awaitBytes_of_lt (by simp [hq, params])]
  simp only [hq, List.nil_append]
  rfl

/-- The write of the request, after which a response is awaited. -/
theorem State.busWrite_request {s : State} {id : Byte} (hgap : s.tmrGap.atLeast params.tCmdGap = true)
    (hw : s.nextWrite = .ok) : (s.requesting id).busWrite (lineRequest id) =
      (true, { (s.requesting id).afterWrite (lineRequest id) s.actMem with
        rqWindow := carriesRequest (lineRequest id) }) :=
  State.busWrite_wholeFrame (s := s.requesting id) (List.cons_ne_nil _ _) ((State.lineSpaced_iff _).mpr ⟨hgap, rfl⟩)
    rfl hw (actuatorEffect_request _ _ _)

/-- The state in which `RDPOS`, accepted in `s`, decodes the response when `r` arrived (R176). -/
def State.responded (id : Byte) (r : List Byte) (s : State) : State :=
  { s with seq := .rdDecode, seqTrace := [.rdFlush, .rdEnc, .rdWrite, .rdWait, .rdRead, .rdDecode],
           txbuf := lineRequest id ++ s.txbuf.drop 7, txlen := 7,
           rxbuf := r.take 12 ++ rxTailBytes (s.draws + 2) (min 12 r.length), rxlen := min 12 r.length,
           rxq := r.drop 12, txq := [], tmrDelay := .stopped, tmrRto := .stopped,
           tmrGap := .since (if r.length < 12 then 150000 else 50000), rqWindow := false,
           actMem := if s.lineClean = true then s.actMem else [],
           wire := s.wire ++ [.flushed, .wrote (lineRequest id), .waited 50000, .readBack 12 (r.take 12)],
           env := { s.env with writes := s.env.writes.tail, arrivals := s.env.arrivals.tail }, draws := s.draws + 3 }

/-- R176: the wait, the read and the store of the response after the written request, put together. -/
theorem State.responded_eq {s u : State} {id : Byte} {r : List Byte} (hr : s.popWrite.nextArrivals = r)
    (hu : u = { (s.requesting id).afterWrite (lineRequest id) s.actMem with
      rqWindow := carriesRequest (lineRequest id) }) :
    u.readResponse.1 = r.take 12 ∧ u.storeResponse = s.responded id r := by
  have harrivals : u.nextArrivals = r := hu ▸ hr
  have hread := State.readResponse_of_arrivals (hu ▸ rfl) harrivals
  rw [State.storeResponse, hread]
  refine ⟨rfl, ?_⟩
  subst hu
  apply State.ext
  case wire | rxbuf => simp [State.requesting, State.afterWrite, State.setRx, State.responded]
  case rxlen => exact List.length_take
  case tmrGap => exact (apply_ite GapTimer.since _ _ _).symm
  all_goals rfl

/-- R176: `RDPOS` when its request was written, by the answer of what arrived. -/
theorem opRdpos_of_arrivals {s : State} {id : Byte} {r : List Byte} (hb : s.busOpen = true)
    (hgap : s.tmrGap.atLeast params.tCmdGap = true) (hw : s.nextWrite = .ok) (hr : s.popWrite.nextArrivals = r) :
    (r.length < 7 → opRdpos id s = State.complete .absentValue
      { s.responded id r with rspShort := true, posValid := false, err := .shortResponse,
                              log := s.log ++ [⟨.warning, .shortResponse id r.length⟩] }) ∧
    (7 ≤ r.length → opRdpos id s = State.complete (.deg (responseDegrees r))
      { s.responded id r with rspShort := false, posValid := true }) := by
  have hop := opRdpos_of_written hb (State.busWrite_request (id := id) hgap hw)
  obtain ⟨hread, hstore⟩ := State.responded_eq (id := id) hr rfl
  rw [hread, hstore] at hop
  refine ⟨fun hlt => ?short, fun hge => ?answered⟩
  case short =>
    have hall : r.take 12 = r := List.take_of_length_le (by omega)
    rw [hop, hall, decodeResponse_eq_none hlt]
    rfl
  case answered =>
    have hdec := decodeResponse_of_le (r := r.take 12) (by rw [List.length_take]; omega)
    have hanswer := (decodeResponse_answer (r.take 12)).trans (responseAnswer_take r)
    rw [hdec, responseAnswer, if_neg (Nat.not_lt_of_le hge)] at hanswer
    rw [hop, hdec, ← Option.some.inj hanswer]
    rfl

/-- Settles O33: too few bytes or enough, the rest of the state is the same. -/
theorem rdposReadsThePosition : Obligations.RdposReadsThePosition := by
  unfold Obligations.RdposReadsThePosition
  intro s id r hb hgap hw hr
  obtain ⟨hshort, hlong⟩ := opRdpos_of_arrivals (id := id) hb hgap hw hr
  refine ⟨opRdpos id s, rfl, ?_⟩
  rcases Nat.lt_or_ge r.length 7 with hlt | hge
  · rw [hshort hlt]
    simp only [hlt, Nat.not_le_of_lt hlt, if_true, decide_true, decide_false]
    exact ⟨rfl, List.take_left' List.length_take⟩
  · rw [hlong hge]
    simp only [hge, Nat.not_lt_of_le hge, if_false, decide_true, decide_false]
    exact ⟨rfl, List.take_left' List.length_take⟩

end Sys2Proof.Machine
end

section
/-! PROOFS, family 43_axis_unit, conversions: how far each rounding mode moves a value and which way it breaks a tie,
the mapping of an axis, and the offset. -/

namespace Sys2Proof.Machine

/-! ## Rounding, mode by mode -/

/-- The distance of an integer from a rational, as a distance of integers. -/
theorem abs_intCast_sub_rat (q : Int) (x : Rat) : |(q : Rat) - x| = ((x.den * q - x.num).natAbs : Rat) / x.den := by
  have hden : (0 : Rat) < x.den := by exact_mod_cast x.den_pos
  have hscaled : ((x.den * q - x.num : Int) : Rat) = (q - x) * x.den := by
    push_cast
    rw [← Rat.den_mul_eq_num]
    ring
  rw [Nat.cast_natAbs, Int.cast_abs, hscaled, abs_mul, abs_of_pos hden, mul_div_cancel_right₀ _ hden.ne']

theorem abs_intCast_sub_rat_le_half {q : Int} {x : Rat} :
    |(q : Rat) - x| ≤ 1 / 2 ↔ 2 * (x.den * q - x.num).natAbs ≤ x.den := by
  have hden : (0 : Rat) < x.den := by exact_mod_cast x.den_pos
  rw [abs_intCast_sub_rat, div_le_div_iff₀ hden two_pos, one_mul, mul_comm]
  exact_mod_cast Iff.rfl

theorem abs_intCast_sub_rat_eq_half {q : Int} {x : Rat} :
    |(q : Rat) - x| = 1 / 2 ↔ 2 * (x.den * q - x.num).natAbs = x.den := by
  have hden : (0 : Rat) < x.den := by exact_mod_cast x.den_pos
  rw [abs_intCast_sub_rat, div_eq_div_iff hden.ne' two_ne_zero, one_mul, mul_comm]
  exact_mod_cast Iff.rfl

theorem roundRaw_towardMinusInf (x : Rat) : roundRaw .towardMinusInf x = x.floor := (Rat.floor_def x).symm

theorem roundRaw_towardZero_of_nonneg {x : Rat} (h : 0 ≤ x) : roundRaw .towardZero x = x.floor := by
  rw [Rat.floor_def]
  exact Int.tdiv_eq_ediv_of_nonneg (Rat.num_nonneg.mpr h)

theorem roundRaw_towardZero_of_nonpos {x : Rat} (h : x ≤ 0) : roundRaw .towardZero x = ⌈x⌉ := by
  have hnum : 0 ≤ -x.num := neg_nonneg.mpr (Rat.num_nonpos.mpr h)
  rw [Rat.ceil_def', ← Int.tdiv_eq_ediv_of_nonneg hnum, Int.neg_tdiv, neg_neg]
  rfl

/-- The library's two roundings upward are one. -/
theorem rat_ceil_eq (x : Rat) : x.ceil = ⌈x⌉ := by
  rw [Rat.ceil_eq_neg_floor_neg, Int.neg_eq_comm, ← Int.floor_neg]
  rfl

/-- R193: the nearest integer, the even one of two. -/
theorem roundRaw_nearestEven {x : Rat} {q : Int} (h : roundRaw .nearestEven x = q) :
    |(q : Rat) - x| ≤ 1 / 2 ∧ (|(q : Rat) - x| = 1 / 2 → q % 2 = 0) := by
  rw [abs_intCast_sub_rat_le_half, abs_intCast_sub_rat_eq_half]
  have hden : 0 < (x.den : Int) := by exact_mod_cast x.den_pos
  have hdiv := Int.mul_ediv_add_emod x.num x.den
  have hnonneg := Int.emod_nonneg x.num hden.ne'
  have hlt := Int.emod_lt_of_pos x.num hden
  have hcomm := Int.mul_comm (x.num / x.den) x.den
  have hsucc : (x.den : Int) * (x.num / x.den + 1) = x.den * (x.num / x.den) + x.den := mul_add_one _ _
  simp only [roundRaw] at h
  split at h
  case isTrue => subst h; omega
  case isFalse => split at h <;> subst h <;> omega

/-- R193: the nearest integer, the one farther from zero of two. -/
theorem roundRaw_nearestAway (x : Rat) : |(roundRaw .nearestAway x : Rat) - x| ≤ 1 / 2 ∧
    (|(roundRaw .nearestAway x : Rat) - x| = 1 / 2 → |x| < |(roundRaw .nearestAway x : Rat)|) := by
  have hden : (0 : Rat) < x.den := by exact_mod_cast x.den_pos
  have habs : |x| < |(roundRaw .nearestAway x : Rat)| ↔ x.num.natAbs < x.den * (roundRaw .nearestAway x).natAbs := by
    have hx : |x| = (x.num.natAbs : Rat) / x.den := by
      rw [Nat.cast_natAbs, Int.cast_abs, eq_div_iff hden.ne', ← Rat.mul_den_eq_num, abs_mul, abs_of_pos hden]
    rw [hx, div_lt_iff₀ hden, ← Int.cast_abs, ← Nat.cast_natAbs, mul_comm]
    exact_mod_cast Iff.rfl
  rw [abs_intCast_sub_rat_le_half, abs_intCast_sub_rat_eq_half, habs]
  have hhalf := Nat.div_add_mod (2 * x.num.natAbs + x.den) (2 * x.den)
  have hrest := Nat.mod_lt (2 * x.num.natAbs + x.den) (y := 2 * x.den) (by have := x.den_pos; omega)
  rw [Nat.mul_assoc] at hhalf
  simp only [roundRaw]
  split
  case isTrue => rw [Int.mul_neg, Int.natAbs_neg, Int.natAbs_natCast, ← Int.natCast_mul]; omega
  case isFalse => rw [Int.natAbs_natCast, ← Int.natCast_mul]; omega

/-- Rounding to a nearest integer is monotone however it breaks ties: values whose roundings are out of order are both
half-way between the same two integers, so they are equal. -/
theorem rounding_monotone_of_half {f : Rat → Int} (h : ∀ x, |(f x : Rat) - x| ≤ 1 / 2) : Monotone f := by
  intro x y hxy
  by_contra hlt
  have hstep : (f y : Rat) + 1 ≤ f x := by exact_mod_cast not_le.mp hlt
  obtain ⟨_, hx⟩ := abs_le.mp (h x)
  obtain ⟨hy, _⟩ := abs_le.mp (h y)
  obtain rfl : x = y := by linarith
  exact hlt le_rfl

/-- R193, P2. -/
theorem roundRaw_monotone (m : RawRound) : Monotone (roundRaw m) := by
  intro x y hxy
  cases m with
  | towardZero =>
    rcases le_total 0 x with hx | hx
    · rw [roundRaw_towardZero_of_nonneg hx, roundRaw_towardZero_of_nonneg (hx.trans hxy)]
      exact Int.floor_mono hxy
    rcases le_total 0 y with hy | hy
    · rw [roundRaw_towardZero_of_nonpos hx, roundRaw_towardZero_of_nonneg hy]
      exact (Int.ceil_nonpos.mpr hx).trans (Int.floor_nonneg.mpr hy)
    · rw [roundRaw_towardZero_of_nonpos hx, roundRaw_towardZero_of_nonpos hy]
      exact Int.ceil_mono hxy
  | towardMinusInf =>
    rw [roundRaw_towardMinusInf, roundRaw_towardMinusInf]
    exact Int.floor_mono hxy
  | nearestEven => exact rounding_monotone_of_half (fun _ => (roundRaw_nearestEven rfl).1) hxy
  | nearestAway => exact rounding_monotone_of_half (fun x => (roundRaw_nearestAway x).1) hxy

/-- R193, P1: an integer less than one away from an integer is that integer. -/
theorem roundRaw_intCast (m : RawRound) (k : Int) : roundRaw m (k : Rat) = k := by
  have hnear : |roundRaw m (k : Rat) - k| < 1 := by exact_mod_cast abs_roundRaw_sub_lt_one m (k : Rat)
  exact sub_eq_zero.mp (Int.abs_lt_one_iff.mp hnear)

/-! ## `D2R` and `R2D` -/

/-- Settles O9: the laws of each mode, at `100*d`. -/
theorem d2rRoundsAsConfigured : Obligations.D2rRoundsAsConfigured := by
  unfold Obligations.D2rRoundsAsConfigured
  intro s d
  refine ⟨_, degToRaw s.cfg.rawRound d, exec_d2r s d, rfl, fun hm => ⟨fun hd => ?zeroFloor, fun hd => ?zeroCeil⟩,
    fun hm => ?minusInf, fun hm => ?even, fun hm => ?away, fun k hk => ?exact, fun d' t' q' hd ht hresp => ?mono,
    abs_degToRaw_sub_lt_one _ d⟩
  case zeroFloor => rw [degToRaw, hm, roundRaw_towardZero_of_nonneg (by linarith)]
  case zeroCeil => rw [degToRaw, hm, roundRaw_towardZero_of_nonpos (by linarith), rat_ceil_eq]
  case minusInf => rw [degToRaw, hm, roundRaw_towardMinusInf]
  case even => rw [degToRaw, hm]; exact roundRaw_nearestEven rfl
  case away => rw [degToRaw, hm]; exact roundRaw_nearestAway _
  case exact => rw [degToRaw, hk, mul_div_cancel₀ _ (by norm_num), roundRaw_intCast]
  case mono =>
    obtain rfl := Host.Outcome.next.inj ((exec_d2r s d').symm.trans ht)
    obtain rfl : degToRaw s.cfg.rawRound d' = q' := by simpa using congrArg (Option.map Response.result) hresp
    exact roundRaw_monotone _ (by linarith)

/-- R193, R194: `D2R` takes back what `R2D` gives, in every mode. -/
theorem degToRaw_rawToDeg (m : RawRound) (v : Raw) : degToRaw m (rawToDeg v) = v := by
  rw [degToRaw, hundred_mul_rawToDeg, roundRaw_intCast]

/-- Settles O10: a 16-bit value bounds its hundredth. -/
theorem r2dDividesByHundred : Obligations.R2dDividesByHundred := by
  unfold Obligations.R2dDividesByHundred
  intro s raw
  have hlo : (-32768 : Rat) ≤ raw.toInt := by exact_mod_cast raw.le_toInt
  have hhi : (raw.toInt : Rat) ≤ 32767 := by exact_mod_cast Int.le_of_lt_add_one raw.toInt_lt
  have hscale := hundred_mul_rawToDeg raw.toInt
  have hback := exec_d2r (s.answered (.deg (rawToDeg raw.toInt))) (rawToDeg raw.toInt)
  rw [degToRaw_rawToDeg] at hback
  exact ⟨_, _, rawToDeg raw.toInt, exec_r2d s raw, rfl, hscale, by linarith, by linarith, hback,
    State.answered_resp _ _⟩

/-! ## `AX_MAP` and `CAL_APPLY` -/

/-- R114: the two selectors. -/
theorem axisOfSel_eq_some {sel : Byte} {a : Axis} (h : (sel = 0 ∧ a = .yaw) ∨ (sel = 1 ∧ a = .pitch)) :
    axisOfSel sel = some a := by
  obtain ⟨rfl, rfl⟩ | ⟨rfl, rfl⟩ := h <;> rfl

theorem exec_axMap_of_sel {sel : Byte} {a : Axis} (h : axisOfSel sel = some a) (s : State) (d : Deg) :
    exec (.axMap sel d) s = .next (s.answered (.deg (axisMap (s.cfg.axis a) d))) := by
  simp only [exec, execAxMap, opAxMap, h, State.answered]

theorem exec_calApply_of_sel {sel : Byte} {a : Axis} (h : axisOfSel sel = some a) (s : State) (d : Deg) :
    exec (.calApply sel d) s = .next (s.answered (.deg (applyOffset (s.cfg.calSign a) (s.caloff a) d))) := by
  simp only [exec, execCalApply, opCalApply, h, State.answered]

/-- R192: a factor of +1 or -1 keeps or flips the sign. -/
theorem signFactor_mul (sg : Sign) (d : Deg) : signFactor sg * d = if sg = .plus then d else -d := by
  cases sg <;> simp [signFactor]

/-- R13: a clamp with its limits in order ends between them, and leaves what lies between them. -/
theorem clampDeg_mem {lo hi : Deg} (h : lo ≤ hi) (x : Deg) : lo ≤ clampDeg x lo hi ∧ clampDeg x lo hi ≤ hi :=
  ⟨le_min (le_max_right _ _) h, min_le_right _ _⟩

theorem clampDeg_of_mem {x lo hi : Deg} (hlo : lo ≤ x) (hhi : x ≤ hi) : clampDeg x lo hi = x := by
  rw [clampDeg, max_eq_left hlo, min_eq_left hhi]

/-- Settles O11: `axisMap` is the clamp of R191. -/
theorem axMapClampsToLogicalRange : Obligations.AxMapClampsToLogicalRange := by
  unfold Obligations.AxMapClampsToLogicalRange
  intro s sel a d hsel
  refine ⟨_, axisMap (s.cfg.axis a) d, exec_axMap_of_sel (axisOfSel_eq_some hsel) s d, rfl, ?formula,
    fun hmin hmax => ?range⟩
  case formula => rw [axisMap, signFactor_mul]; rfl
  case range =>
    obtain ⟨hlo, hhi⟩ := clampDeg_mem (hmin.trans hmax) ((s.cfg.axis a).center + signFactor (s.cfg.axis a).sign * d)
    refine ⟨hlo, hhi, ?_⟩
    rintro rfl
    rw [axisMap, mul_zero, add_zero, clampDeg_of_mem hmin hmax]

/-- R195: the offset is added or subtracted as `CAL_SIGN` says; an offset of zero changes nothing. -/
theorem applyOffset_cases {sg : Sign} {offset d v : Deg} (h : applyOffset sg offset d = v) :
    (sg = .plus → v = d + offset) ∧ (sg = .minus → v = d - offset) ∧ (offset = 0 → v = d) := by
  rw [applyOffset, signFactor_mul] at h
  subst h
  refine ⟨?_, ?_, ?_⟩
  · rintro rfl; rfl
  · rintro rfl; exact (sub_eq_add_neg _ _).symm
  · rintro rfl; simp

/-- Settles O12: each selector at its axis. -/
theorem calApplyAddsTheOffset : Obligations.CalApplyAddsTheOffset := by
  unfold Obligations.CalApplyAddsTheOffset
  intro s sel d
  constructor
  · rintro rfl
    exact ⟨_, _, exec_calApply_of_sel (a := .yaw) rfl s d, rfl, applyOffset_cases rfl⟩
  · rintro rfl
    exact ⟨_, _, exec_calApply_of_sel (a := .pitch) rfl s d, rfl, applyOffset_cases rfl⟩

end Sys2Proof.Machine
end

section
/-! PROOFS, family 43_axis_unit, the calibration store: how a load and a save end, and the two lines a store is
read as. -/

namespace Sys2Proof.Machine

/-! ## `CAL_LD` -/

/-- Settles O13: the ends of a load, by what `MemRead` gives. -/
theorem calLdLoadsOrDefaults : Obligations.CalLdLoadsOrDefaults := by
  unfold Obligations.CalLdLoadsOrDefaults
  intro s
  refine ⟨opCalLd s, rfl, fun h => ?absent, fun m y p h hparse => ?loaded, fun m h hparse => ?malformed⟩
  case absent => rw [opCalLd_absent h]; rfl
  case loaded => rw [opCalLd_loaded h hparse]; rfl
  case malformed => rw [opCalLd_malformed h hparse]; rfl

/-! ## `CAL_SV` -/

/-- What a save that succeeds leaves, before the response (R77, R199). -/
def State.saved (y p : Deg) (s : State) : State :=
  { s with seq := .csWrite, seqTrace := s.seqTrace ++ [.csFormat] ++ [.csWrite], saveFail := false,
           calmem := some (calText y p), env := { s.env with saves := s.env.saves.tail }, draws := s.draws + 1 }

/-- What a save that fails leaves, the store being whatever the environment left (R77, R199). -/
def State.saveFailed (left : Option (List Byte)) (s : State) : State :=
  { s with seq := .csWrite, seqTrace := s.seqTrace ++ [.csFormat] ++ [.csWrite], saveFail := true, calmem := left,
           err := .calSaveFailure, log := s.log ++ [⟨.warning, .calSaveFailed⟩],
           env := { s.env with saves := s.env.saves.tail }, draws := s.draws + 1 }

section

variable {s : State} {y p : Deg}

theorem State.memWrite_saved (h : s.nextSave = .ok) (b : List Byte) : s.memWrite b =
    (true, { s with calmem := some b, env := { s.env with saves := s.env.saves.tail }, draws := s.draws + 1 }) := by
  simp only [State.memWrite, h]

theorem State.memWrite_failed {left : Option (List Byte)} (h : s.nextSave = .fail left) (b : List Byte) : s.memWrite b =
    (false, { s with calmem := left, env := { s.env with saves := s.env.saves.tail }, draws := s.draws + 1 }) := by
  simp only [State.memWrite, h]

theorem calSave_of_saved (h : s.nextSave = .ok) : calSave y p s = s.saved y p := by
  rw [calSave, State.memWrite_saved (s := (s.enter .csFormat).enter .csWrite) h]
  rfl

theorem calSave_of_failed {left : Option (List Byte)} (h : s.nextSave = .fail left) :
    calSave y p s = s.saveFailed left := by
  rw [calSave, State.memWrite_failed (s := (s.enter .csFormat).enter .csWrite) h]
  rfl

/-- R199: within its domain `CAL_SV` is the save of its operands. -/
theorem opCalSv_of_finite (hy : finiteDecimal y = true) (hp : finiteDecimal p = true) (s : State) :
    opCalSv y p s = (calSave y p s.accept).complete .none := by
  simp only [opCalSv, hy, hp, Bool.and_self, if_true]

theorem opCalSv_of_saved (hy : finiteDecimal y = true) (hp : finiteDecimal p = true) (h : s.nextSave = .ok) :
    opCalSv y p s = (s.accept.saved y p).complete .none := by
  rw [opCalSv_of_finite hy hp, calSave_of_saved (s := s.accept) h]

/-- R199, R262: outside its domain it is refused. -/
theorem opCalSv_refused (h : finiteDecimal y = false ∨ finiteDecimal p = false) (s : State) :
    opCalSv y p s = s.refuse .illegalOperand := by
  have hdomain : (finiteDecimal y && finiteDecimal p) = false := Bool.and_eq_false_iff.mpr h
  simp only [opCalSv, hdomain, Bool.false_eq_true, if_false]

end

/-- Settles O17: saved, failed or refused. -/
theorem calSvSavesItsOperands : Obligations.CalSvSavesItsOperands := by
  unfold Obligations.CalSvSavesItsOperands
  intro s y p
  refine ⟨fun hy hp hsave => ⟨opCalSv y p s, rfl, ?saved⟩, fun left hy hp hsave => ⟨opCalSv y p s, rfl, ?failed⟩,
    fun h => congrArg Host.Outcome.next (opCalSv_refused h s)⟩
  case saved => rw [opCalSv_of_saved hy hp hsave]; rfl
  case failed => rw [opCalSv_of_finite hy hp, calSave_of_failed (s := s.accept) hsave]; rfl

/-! ## The two lines of a store -/

section

variable {l r : List Byte}

theorem ne_lf_of_not_mem (h : 0x0A ∉ l) : ∀ b ∈ l, (b != lf) = true :=
  fun _ hb => bne_iff_ne.mpr fun he => h (by rwa [he] at hb)

theorem firstLine_append (h : 0x0A ∉ l) : firstLine (l ++ 0x0A :: r) = l := by
  rw [firstLine, List.takeWhile_append_of_pos (ne_lf_of_not_mem h)]
  exact List.append_nil l

theorem firstLine_of_no_lf (h : 0x0A ∉ l) : firstLine l = l :=
  List.takeWhile_eq_self_iff.mpr (ne_lf_of_not_mem h)

theorem afterLine_append (h : 0x0A ∉ l) : afterLine (l ++ 0x0A :: r) = some r := by
  rw [afterLine, List.dropWhile_append_of_pos (ne_lf_of_not_mem h)]
  rfl

/-- A store of one line is malformed (R198). -/
theorem parseCal_of_no_lf (h : 0x0A ∉ l) : parseCal l = none := by
  have hnone : afterLine l = none := by
    have hall : l.dropWhile (fun b => b != lf) = [] :=
      List.dropWhile_eq_nil_iff.mpr (ne_lf_of_not_mem h)
    simp only [afterLine, hall]
  simp only [parseCal, hnone]

end

/-- The pair of two lines, when both are numbers (R198). -/
def parsePair (l1 l2 : List Byte) : Option (Deg × Deg) :=
  (parseLine l1).bind fun y => (parseLine l2).map fun p => (y, p)

section

variable {l1 l2 : List Byte}

theorem parseCal_append {r : List Byte} (h1 : 0x0A ∉ l1) : parseCal (l1 ++ 0x0A :: r) = parsePair l1 (firstLine r) := by
  simp only [parseCal, afterLine_append h1, firstLine_append h1, parsePair]
  cases parseLine l1 <;> cases parseLine (firstLine r) <;> rfl

theorem parseCal_two_lines (h1 : 0x0A ∉ l1) (h2 : 0x0A ∉ l2) : parseCal (l1 ++ 0x0A :: l2) = parsePair l1 l2 := by
  rw [parseCal_append h1, firstLine_of_no_lf h2]

/-- What follows the second line does not matter (R198). -/
theorem parseCal_more_lines (h1 : 0x0A ∉ l1) (h2 : 0x0A ∉ l2) (rest : List Byte) :
    parseCal (l1 ++ 0x0A :: (l2 ++ 0x0A :: rest)) = parsePair l1 l2 := by
  rw [parseCal_append h1, firstLine_append h2]

theorem parsePair_eq_some {y p : Deg} : parsePair l1 l2 = some (y, p) ↔ CalLine l1 y ∧ CalLine l2 p := by
  rw [← parseLine_iff, ← parseLine_iff, parsePair]
  cases parseLine l1 <;> cases parseLine l2 <;> simp

/-- One bad line makes the whole store malformed (R198). -/
theorem parsePair_eq_none (h : (∀ y, ¬CalLine l1 y) ∨ ∀ p, ¬CalLine l2 p) : parsePair l1 l2 = none := by
  refine Option.eq_none_iff_forall_not_mem.mpr fun d hd => ?_
  obtain ⟨h1, h2⟩ := parsePair_eq_some.mp hd
  exact h.elim (fun h => h _ h1) (fun h => h _ h2)

end

/-! ## The characters of a line -/

/-- The bytes that R198 lets stand in one of the first two lines. -/
def lineBytes : List Byte :=
  [0x30, 0x31, 0x32, 0x33, 0x34, 0x35, 0x36, 0x37, 0x38, 0x39, 0x2B, 0x2D, 0x2E, 0x45, 0x65, 0x20, 0x09, 0x0D]

theorem digit_mem_lineBytes {b : Byte} (h : 0x30 ≤ b.toNat ∧ b.toNat ≤ 0x39) : b ∈ lineBytes := by
  have hdigit : b = BitVec.ofNat 8 b.toNat := by simp
  obtain ⟨hlo, hhi⟩ := h
  rw [hdigit]
  generalize b.toNat = n at hlo hhi
  interval_cases n <;> decide

theorem SignText.mem_lineBytes {t : List Byte} {neg : Bool} (h : SignText t neg) : ∀ b ∈ t, b ∈ lineBytes := by
  obtain ⟨rfl, _⟩ | ⟨rfl, _⟩ | ⟨rfl, _⟩ := h <;> decide

theorem MantText.mem_lineBytes {t whole frac : List Byte} (h : MantText t whole frac) : ∀ b ∈ t, b ∈ lineBytes := by
  intro b hb
  obtain hdigit | rfl := h.mem b hb
  · exact digit_mem_lineBytes hdigit
  · decide

theorem ExpText.mem_lineBytes {t : List Byte} {e : Int} (h : ExpText t e) : ∀ b ∈ t, b ∈ lineBytes := by
  intro b hb
  obtain ⟨rfl, _⟩ | ⟨c, sg, ds, neg, rfl, hc, hsign, hdigits, _⟩ := h
  · cases hb
  rcases List.mem_cons.mp hb with rfl | hb
  · obtain rfl | rfl := hc <;> decide
  rcases List.mem_append.mp hb with hb | hb
  · exact hsign.mem_lineBytes b hb
  · exact digit_mem_lineBytes (hdigits b hb)

/-- A line of the grammar consists of the grammar's characters (R198). -/
theorem CalLine.mem_lineBytes {l : List Byte} {v : Deg} (h : CalLine l v) : ∀ b ∈ l, b ∈ lineBytes := by
  obtain ⟨lead, sg, mant, whole, frac, ex, trail, cr, neg, e, rfl, hblank, hcr, hsign, hmant, hexp, _⟩ := h
  have hblanks : ∀ b ∈ lead ++ trail, b ∈ lineBytes := fun b hb => by
    obtain rfl | rfl := hblank b hb <;> decide
  intro b hb
  simp only [List.mem_append] at hb
  obtain ((hlead | hsg | hm | hex) | htrail) | hend := hb
  · exact hblanks b (List.mem_append_left _ hlead)
  · exact hsign.mem_lineBytes b hsg
  · exact hmant.mem_lineBytes b hm
  · exact hexp.mem_lineBytes b hex
  · exact hblanks b (List.mem_append_right _ htrail)
  · obtain rfl | rfl := hcr
    · cases hend
    · rw [List.mem_singleton.mp hend]; decide

/-- A byte outside the grammar's characters makes its line bad. -/
theorem not_calLine_of_mem {l : List Byte} {b : Byte} (hb : b ∈ l) (hbad : b ∉ lineBytes) (v : Deg) : ¬CalLine l v :=
  fun h => hbad (h.mem_lineBytes b hb)

/-- No line of the grammar holds an LF. -/
theorem CalLine.no_lf {l : List Byte} {v : Deg} (h : CalLine l v) : 0x0A ∉ l :=
  fun hmem => not_calLine_of_mem hmem (by decide) v h

/-- Settles O15: a store is read as the pair of its first two lines, and each line by the grammar. -/
theorem parseCalReadsTwoLines : Obligations.ParseCalReadsTwoLines := by
  unfold Obligations.ParseCalReadsTwoLines
  refine ⟨fun l1 l2 rest y p h1 h2 => ?both, fun l1 l2 h1 h2 hbad => ?bad, fun m hm => parseCal_of_no_lf hm,
    fun l1 l2 rest h1 h2 => ?more, fun l1 l2 b h1 h2 hb hbad => ?character⟩
  case both =>
    rw [parseCal_more_lines h1.no_lf h2.no_lf, parseCal_two_lines h1.no_lf h2.no_lf]
    exact ⟨parsePair_eq_some.mpr ⟨h1, h2⟩, parsePair_eq_some.mpr ⟨h1, h2⟩⟩
  case bad => rw [parseCal_two_lines h1 h2, parsePair_eq_none hbad]
  case more => rw [parseCal_more_lines h1 h2, parseCal_two_lines h1 h2]
  case character =>
    rw [parseCal_two_lines h1 h2]
    exact parsePair_eq_none ((List.mem_append.mp hb).imp (not_calLine_of_mem · hbad) (not_calLine_of_mem · hbad))

end Sys2Proof.Machine
end

section
/-! PROOFS, family 43_axis_unit, the canonical text: the digits it is made of, the number it denotes, and what it means
for a store to be saved and loaded. -/

namespace Sys2Proof.Machine

/-! ## Decimal digits -/

/-- The character of the last decimal digit. -/
def lastDigit (n : Nat) : Byte := BitVec.ofNat 8 (0x30 + n % 10)

theorem lastDigit_toNat (n : Nat) : (lastDigit n).toNat = 0x30 + n % 10 := by
  rw [lastDigit, BitVec.toNat_ofNat, Nat.mod_eq_of_lt (by omega)]

theorem lastDigit_isDigit (n : Nat) : isDigit (lastDigit n) = true := by
  rw [isDigit_iff, lastDigit_toNat]
  omega

theorem lastDigit_eq_zero_iff {n : Nat} : lastDigit n = 0x30 ↔ n % 10 = 0 := by
  rw [← BitVec.toNat_inj, lastDigit_toNat]
  exact Nat.add_eq_left

theorem fixedDigits_succ (k n : Nat) : fixedDigits (k + 1) n = fixedDigits k (n / 10) ++ [lastDigit n] := rfl

theorem fixedDigits_length (k n : Nat) : (fixedDigits k n).length = k := by
  induction k generalizing n with
  | zero => rfl
  | succ k ih => rw [fixedDigits_succ, List.length_append, ih, List.length_singleton]

theorem fixedDigits_all_isDigit (k n : Nat) : (fixedDigits k n).all isDigit = true := by
  induction k generalizing n with
  | zero => rfl
  | succ k ih => simp [fixedDigits_succ, List.all_append, ih, lastDigit_isDigit]

/-- The digits of a number split at any place. -/
theorem fixedDigits_append (j k n : Nat) :
    fixedDigits j (n / 10 ^ k) ++ fixedDigits k n = fixedDigits (j + k) n := by
  induction k generalizing n with
  | zero => simp [fixedDigits]
  | succ k ih =>
    rw [← Nat.add_assoc, fixedDigits_succ, fixedDigits_succ, ← ih, Nat.div_div_eq_div_mul, ← Nat.pow_succ',
      List.append_assoc]

theorem digitsValue_fixedDigits (k n : Nat) : digitsValue (fixedDigits k n) = n % 10 ^ k := by
  induction k generalizing n with
  | zero => exact (Nat.mod_one n).symm
  | succ k ih =>
    have hvalue : digitsValue (fixedDigits (k + 1) n) =
        10 * digitsValue (fixedDigits k (n / 10)) + ((lastDigit n).toNat - 0x30) := by
      simp [digitsValue, fixedDigits_succ]
    rw [hvalue, ih, lastDigit_toNat, Nat.pow_succ', Nat.mod_mul]
    omega

/-- The search for the number of digits ends within its bound. -/
theorem digitCount_eq_log {f n : Nat} (h : n < 10 ^ (f + 1)) : digitCount f n = Nat.log 10 n + 1 := by
  induction f generalizing n with
  | zero => rw [Nat.log_of_lt (by simpa using h)]; rfl
  | succ f ih =>
    rw [digitCount]
    split
    case isTrue hlt => rw [Nat.log_of_lt hlt]
    case isFalse hge =>
      have hdiv : n / 10 < 10 ^ (f + 1) := Nat.div_lt_of_lt_mul (by rwa [← Nat.pow_succ'])
      rw [ih hdiv, Nat.log_of_one_lt_of_le (by decide) (not_lt.mp hge), Nat.add_comm]

theorem natDigits_eq (n : Nat) : natDigits n = fixedDigits (Nat.log 10 n + 1) n := by
  have hbound : n < 10 ^ (n.log2 + 1 + 1) :=
    calc n < 2 ^ (n.log2 + 1) := Nat.lt_log2_self
      _ ≤ 10 ^ (n.log2 + 1) := Nat.pow_le_pow_left (by decide) _
      _ ≤ 10 ^ (n.log2 + 1 + 1) := Nat.pow_le_pow_right (by decide) (Nat.le_succ _)
  rw [natDigits, digitCount_eq_log hbound]

/-- R200: no leading zeros; zero itself is one digit. -/
theorem natDigits_no_leading_zero {n : Nat} (h : (natDigits n).head? = some 0x30) : natDigits n = [0x30] := by
  have hsplit : natDigits n = lastDigit (n / 10 ^ Nat.log 10 n) :: fixedDigits (Nat.log 10 n) n := by
    rw [natDigits_eq, Nat.add_comm, ← fixedDigits_append]
    rfl
  have hlead : n / 10 ^ Nat.log 10 n % 10 = 0 := lastDigit_eq_zero_iff.mp (by simpa [hsplit] using h)
  have hlt : n / 10 ^ Nat.log 10 n < 10 :=
    Nat.div_lt_of_lt_mul (by rw [← Nat.pow_succ]; exact Nat.lt_pow_succ_log_self (by decide) n)
  have hzero : n = 0 := by
    by_contra hne
    have hpos : 0 < n / 10 ^ Nat.log 10 n := Nat.div_pos (Nat.pow_log_le_self 10 hne) (by positivity)
    omega
  subst hzero
  rfl

/-! ## How many fractional digits -/

/-- The search finds the least power of ten from `10^k` on that the denominator divides. -/
theorem fracLenFrom_spec {den f k : Nat} (h : den ∣ 10 ^ (k + f)) :
    den ∣ 10 ^ fracLenFrom den f k ∧ ∀ j, k ≤ j → j < fracLenFrom den f k → ¬den ∣ 10 ^ j := by
  induction f generalizing k with
  | zero => exact ⟨h, fun j hkj hjk => absurd hjk (not_lt.mpr hkj)⟩
  | succ f ih =>
    rw [fracLenFrom]
    split
    case isTrue hdvd => exact ⟨Nat.dvd_of_mod_eq_zero hdvd, fun j hkj hjk => absurd hjk (not_lt.mpr hkj)⟩
    case isFalse hndvd =>
      obtain ⟨hdvd, hleast⟩ := ih (k := k + 1) (by rwa [Nat.succ_add_eq_add_succ])
      refine ⟨hdvd, fun j hkj hj => ?_⟩
      obtain rfl | hlt := hkj.eq_or_lt
      · exact fun hd => hndvd (Nat.mod_eq_zero_of_dvd hd)
      · exact hleast j hlt hj

section

variable {d : Deg}

theorem one_le_fracLen (d : Deg) : 1 ≤ fracLen d := le_max_left _ _

/-- R200: as many digits as are needed to be exact. -/
theorem den_dvd_pow_fracLen (h : finiteDecimal d = true) : d.den ∣ 10 ^ fracLen d := by
  have hfinite : d.den ∣ 10 ^ (0 + d.den.log2) := by
    rw [Nat.zero_add]
    exact Nat.dvd_of_mod_eq_zero (beq_iff_eq.mp h)
  exact (fracLenFrom_spec hfinite).1.trans (Nat.pow_dvd_pow 10 (le_max_right _ _))

/-- R200: and no more, but at least one. -/
theorem not_den_dvd_of_lt_fracLen (h : finiteDecimal d = true) {j : Nat} (hpos : 1 ≤ j) (hj : j < fracLen d) :
    ¬d.den ∣ 10 ^ j := by
  have hfinite : d.den ∣ 10 ^ (0 + d.den.log2) := by
    rw [Nat.zero_add]
    exact Nat.dvd_of_mod_eq_zero (beq_iff_eq.mp h)
  exact (fracLenFrom_spec hfinite).2 j (Nat.zero_le j) ((lt_max_iff.mp hj).resolve_left (not_lt.mpr hpos))

end

/-! ## The text of one offset -/

/-- All digits of the text of `d` as one number: `|d|` times ten to the number of fractional digits (R200). -/
def fmtDigits (d : Deg) : Nat := d.num.natAbs * 10 ^ fracLen d / d.den

/-- The integer part of the text. -/
def fmtWhole (d : Deg) : List Byte := natDigits (fmtDigits d / 10 ^ fracLen d)

/-- The fractional digits of the text. -/
def fmtFrac (d : Deg) : List Byte := fixedDigits (fracLen d) (fmtDigits d)

/-- The sign of the text. -/
def fmtSign (d : Deg) : List Byte := if d < 0 then [0x2D] else []

section

variable {d : Deg}

theorem fmtCal_eq (d : Deg) : fmtCal d = fmtSign d ++ fmtWhole d ++ 0x2E :: fmtFrac d := List.append_assoc _ [0x2E] _

theorem fmtSign_signText (d : Deg) : SignText (fmtSign d) (decide (d < 0)) := by
  unfold fmtSign
  split
  case isTrue h => exact .inr (.inr ⟨rfl, decide_eq_true h⟩)
  case isFalse h => exact .inl ⟨rfl, decide_eq_false h⟩

theorem fmtWhole_all_isDigit (d : Deg) : (fmtWhole d).all isDigit = true := by
  rw [fmtWhole, natDigits_eq]
  exact fixedDigits_all_isDigit _ _

theorem fmtFrac_all_isDigit (d : Deg) : (fmtFrac d).all isDigit = true := fixedDigits_all_isDigit _ _

theorem fmtWhole_ne_nil (d : Deg) : fmtWhole d ≠ [] := by
  rw [fmtWhole, natDigits_eq, fixedDigits_succ]
  exact List.append_ne_nil_of_right_ne_nil _ (List.cons_ne_nil _ _)

theorem fmtFrac_length (d : Deg) : (fmtFrac d).length = fracLen d := fixedDigits_length _ _

theorem fmtFrac_ne_nil (d : Deg) : fmtFrac d ≠ [] :=
  List.ne_nil_of_length_pos (fmtFrac_length d ▸ one_le_fracLen d)

/-- The text holds all the digits. -/
theorem decimalValue_fmt (d : Deg) : decimalValue (fmtWhole d ++ fmtFrac d) = fmtDigits d := by
  rw [fmtWhole, fmtFrac, natDigits_eq, fixedDigits_append, ← digitsValue_eq, digitsValue_fixedDigits]
  apply Nat.mod_eq_of_lt
  rw [Nat.pow_add]
  exact (Nat.div_lt_iff_lt_mul (by positivity)).mp (Nat.lt_pow_succ_log_self (by decide) _)

/-- The digits are exact. -/
theorem fmtDigits_mul_den (h : finiteDecimal d = true) : fmtDigits d * d.den = d.num.natAbs * 10 ^ fracLen d :=
  Nat.div_mul_cancel ((den_dvd_pow_fracLen h).mul_left _)

/-- R200: the last fractional digit is needed, unless it is the only one. -/
theorem fmtFrac_no_trailing_zero (h : finiteDecimal d = true) (hlast : (fmtFrac d).getLast? = some 0x30) :
    fmtFrac d = [0x30] := by
  obtain ⟨j, hj⟩ := Nat.exists_eq_add_of_le' (one_le_fracLen d)
  have hfrac : fmtFrac d = fixedDigits j (fmtDigits d / 10) ++ [lastDigit (fmtDigits d)] := by
    rw [fmtFrac, hj, fixedDigits_succ]
  rw [hfrac, List.getLast?_concat, Option.some_inj] at hlast
  have hten : 10 ∣ fmtDigits d := Nat.dvd_of_mod_eq_zero (lastDigit_eq_zero_iff.mp hlast)
  obtain rfl | hpos := Nat.eq_zero_or_pos j
  · rw [hfrac, hlast]
    rfl
  · obtain ⟨m, hm⟩ := hten
    have hexact : m * d.den = d.num.natAbs * 10 ^ j := by
      have hscaled := fmtDigits_mul_den h
      rw [hm, hj, Nat.pow_succ, ← Nat.mul_assoc] at hscaled
      refine Nat.eq_of_mul_eq_mul_left (by decide : 0 < 10) ?_
      rw [← Nat.mul_assoc, hscaled, Nat.mul_comm]
    have hdvd : d.den ∣ 10 ^ j := d.reduced.symm.dvd_of_dvd_mul_left (Dvd.intro_left m hexact)
    exact absurd hdvd (not_den_dvd_of_lt_fracLen h hpos (by omega))

/-- R200: the digits, the sign and the place of the point give the value back. -/
theorem fmtDigits_value (h : finiteDecimal d = true) :
    d = (if decide (d < 0) then -1 else 1) * (fmtDigits d : Rat) * (10 : Rat) ^ ((0 : Int) - fracLen d) := by
  have hden : (d.den : Rat) ≠ 0 := by exact_mod_cast d.den_nz
  have hscaled : (fmtDigits d : Rat) * d.den = d.num.natAbs * 10 ^ fracLen d := by
    exact_mod_cast fmtDigits_mul_den h
  have habs : (fmtDigits d : Rat) * (10 : Rat) ^ ((0 : Int) - fracLen d) = |d| := by
    have hmul : |d| * d.den = d.num.natAbs := by
      rw [Nat.cast_natAbs, Int.cast_abs, ← Rat.mul_den_eq_num, abs_mul, Nat.abs_cast]
    rw [zero_sub, zpow_neg, zpow_natCast, ← div_eq_mul_inv, div_eq_iff (by positivity)]
    apply mul_right_cancel₀ hden
    rw [hscaled, ← hmul]
    ring
  rw [mul_assoc, habs]
  by_cases hneg : d < 0
  · simp [hneg, abs_of_neg hneg]
  · simp [hneg, abs_of_nonneg (not_lt.mp hneg)]

/-- R200: the canonical text denotes its value. -/
theorem parseNumber_fmtCal (h : finiteDecimal d = true) : parseNumber (fmtCal d) = some d := by
  have hmant : MantText (fmtWhole d ++ 0x2E :: fmtFrac d) (fmtWhole d) (fmtFrac d) :=
    ⟨(all_isDigit_iff _).mp (fmtWhole_all_isDigit d), (all_isDigit_iff _).mp (fmtFrac_all_isDigit d),
      .inr ⟨rfl, .inl (fmtWhole_ne_nil d)⟩⟩
  refine (parseNumber_iff _ _).mpr ⟨fmtSign d, _, _, _, [], _, 0, ?text, fmtSign_signText d, hmant,
    .inl ⟨rfl, rfl⟩, ?value⟩
  case text => rw [fmtCal_eq, List.append_nil, List.append_assoc]
  case value =>
    rw [decimalValue_fmt, fmtFrac_length]
    exact fmtDigits_value h

end

/-- Settles O16: the parts of the text. -/
theorem fmtCalIsCanonical : Obligations.FmtCalIsCanonical := by
  unfold Obligations.FmtCalIsCanonical
  intro d h
  exact ⟨fmtWhole d, fmtFrac d, fmtCal_eq d, fmtWhole_all_isDigit d, fmtFrac_all_isDigit d, fmtWhole_ne_nil d,
    fmtFrac_ne_nil d, natDigits_no_leading_zero, fmtFrac_no_trailing_zero h, parseNumber_fmtCal h⟩

end Sys2Proof.Machine
end

section
/-! PROOFS, family 43_axis_unit, saving and loading: the canonical store is read back, so a load and a save undo each
other on it. -/

namespace Sys2Proof.Machine

/-! ## The canonical store -/

/-- A number with nothing around it is a line of the grammar (R198). -/
theorem calLine_of_parseNumber {l : List Byte} {v : Deg} (h : parseNumber l = some v) : CalLine l v := by
  obtain ⟨sg, mant, whole, frac, ex, neg, e, hl, hsign, hmant, hexp, hv⟩ := (parseNumber_iff l v).mp h
  exact ⟨[], sg, mant, whole, frac, ex, [], [], neg, e, by simpa using hl, by simp, .inl rfl, hsign, hmant, hexp, hv⟩

section

variable {s : State} {y p : Deg}

/-- R201: what is written is what is read. -/
theorem parseCal_calText (hy : finiteDecimal y = true) (hp : finiteDecimal p = true) :
    parseCal (calText y p) = some (y, p) := by
  have hyaw := calLine_of_parseNumber (parseNumber_fmtCal hy)
  have hpitch := calLine_of_parseNumber (parseNumber_fmtCal hp)
  have htext : calText y p = fmtCal y ++ 0x0A :: (fmtCal p ++ 0x0A :: []) := by simp [calText, lf]
  rw [htext, parseCal_more_lines hyaw.no_lf hpitch.no_lf, parsePair_eq_some]
  exact ⟨hyaw, hpitch⟩

/-- R200: the store of the offsets (0, 0). -/
theorem calText_zero : calText 0 0 = [0x30, 0x2E, 0x30, 0x0A, 0x30, 0x2E, 0x30, 0x0A] := by decide +kernel

/-! ## A load, by what the store holds -/

/-- The store is the canonical text of some pair (R199, R200). -/
def CanonicalStore (c : Option (List Byte)) : Prop :=
  ∃ y p : Deg, finiteDecimal y = true ∧ finiteDecimal p = true ∧ c = some (calText y p)

/-- R76, log entry 4: an unscripted read gives the whole store. -/
theorem State.memRead_unscripted {m : List Byte} (h : s.calmem = some m) (hreads : s.env.reads = []) :
    s.memRead = .content m := by
  simp only [State.memRead, h, State.nextRead_nil hreads]

/-- A store that parses is canonical exactly when it is the text of the pair it parses to. -/
theorem canonicalStore_iff_of_parsed {m : List Byte} (h : parseCal m = some (y, p)) :
    some (calText y p) = some m ↔ CanonicalStore (some m) := by
  obtain ⟨hy, hp⟩ := parseCal_finiteDecimal m y p h
  constructor
  · exact fun heq => ⟨y, p, hy, hp, heq.symm⟩
  · rintro ⟨y', p', hy', hp', hm⟩
    obtain rfl := Option.some.inj hm
    rw [parseCal_calText hy' hp'] at h
    cases h
    rfl

/-- A store that does not parse is not canonical. -/
theorem not_canonicalStore_of_malformed {m : List Byte} (h : parseCal m = none) : ¬CanonicalStore (some m) := by
  rintro ⟨y, p, hy, hp, hm⟩
  obtain rfl := Option.some.inj hm
  exact absurd (h.symm.trans (parseCal_calText hy hp)) nofun

/-- How a load ends when the read is unscripted (R197, log entry 4): with a pair of finite decimals, whose text is the
store exactly when the store is canonical, and which is (0, 0) unless the store was loaded. -/
theorem opCalLd_unscripted (hreads : s.env.reads = []) :
    ∃ (y p : Deg) (st : CalStatus) (c : Cause) (l : List LogRecord),
    opCalLd s = s.loadEnd y p st c l ∧ finiteDecimal y = true ∧ finiteDecimal p = true ∧
      (some (calText y p) = s.calmem ↔ CanonicalStore s.calmem) ∧ (st ≠ .loaded → y = 0 ∧ p = 0) := by
  cases hmem : s.calmem with
  | none =>
    have hread : s.memRead = .absent := by simp only [State.memRead, hmem]
    have hnot : ¬CanonicalStore none := by rintro ⟨_, _, _, _, h⟩; cases h
    exact ⟨0, 0, _, _, _, opCalLd_absent hread, finiteDecimal_zero, finiteDecimal_zero, iff_of_false nofun hnot,
      fun _ => ⟨rfl, rfl⟩⟩
  | some m =>
    have hread := State.memRead_unscripted hmem hreads
    cases hparse : parseCal m with
    | none =>
      have hnot := not_canonicalStore_of_malformed hparse
      have hother : some (calText 0 0) ≠ some m := fun h => hnot ⟨0, 0, rfl, rfl, h.symm⟩
      exact ⟨0, 0, _, _, _, opCalLd_malformed hread hparse, finiteDecimal_zero, finiteDecimal_zero,
        iff_of_false hother hnot, fun _ => ⟨rfl, rfl⟩⟩
    | some d =>
      obtain ⟨hy, hp⟩ := parseCal_finiteDecimal m d.1 d.2 hparse
      exact ⟨d.1, d.2, _, _, _, opCalLd_loaded hread hparse, hy, hp, canonicalStore_iff_of_parsed hparse,
        fun hst => absurd rfl hst⟩

/-- A load makes no draw that a save makes. -/
theorem State.loadEnd_nextSave (s : State) (y p : Deg) (st : CalStatus) (c : Cause) (l : List LogRecord) :
    (s.loadEnd y p st c l).nextSave = s.nextSave := by
  have hsaves : s.popRead.env.saves = s.env.saves := by unfold State.popRead; split <;> rfl
  simp only [State.nextSave, State.loadEnd, State.complete_env, State.complete_draws, hsaves]

end

/-- Settles O18: the text is read back; a load is followed by the save of the pair it ended with. -/
theorem saveAndLoadAgree : Obligations.SaveAndLoadAgree := by
  unfold Obligations.SaveAndLoadAgree
  refine ⟨fun y p hy hp => parseCal_calText hy hp, fun s y p hy hp hsave hreads => ?saveLoad,
    fun s hreads hsave => ?loadSave⟩
  case saveLoad =>
    have hread : ((s.accept.saved y p).complete .none).memRead = .content (calText y p) :=
      State.memRead_unscripted rfl hreads
    exact ⟨_, _, congrArg Host.Outcome.next (opCalSv_of_saved hy hp hsave),
      congrArg Host.Outcome.next (opCalLd_loaded hread (parseCal_calText hy hp)), rfl, rfl, rfl⟩
  case loadSave =>
    obtain ⟨y, p, st, c, l, hload, hy, hp, hcanonical, hdefault⟩ := opCalLd_unscripted hreads
    have hsave' := (s.loadEnd_nextSave y p st c l).trans hsave
    refine ⟨_, _, y, p, congrArg Host.Outcome.next hload, rfl, rfl,
      congrArg Host.Outcome.next (opCalSv_of_saved hy hp hsave'), rfl, hcanonical, fun hst => ?_⟩
    obtain ⟨rfl, rfl⟩ := hdefault hst
    exact congrArg some calText_zero

end Sys2Proof.Machine
end

section
/-! PROOFS, family 43_axis_unit, the calibration procedure: what an exchange keeps, the two exchanges of `CAL_RUN` and
its two endings, and its whole next state when both requests are answered. -/

namespace Sys2Proof.Machine

/-! ## What an exchange keeps -/

/-- What an exchange of `read_position` leaves outside the bus and its flags (R176): the store and its flag; it empties
`TXQ` and only adds to the log. -/
structure State.ExchangeKept (s t : State) : Prop where
  txq : t.txq = []
  calmem : t.calmem = s.calmem
  saveFail : t.saveFail = s.saveFail
  log : ∃ l, t.log = s.log ++ l

section

variable {id : Byte} {s u : State}

theorem State.beforeRequest_busWrite_kept (id : Byte) (s : State) :
    s.ExchangeKept ((s.beforeRequest id).busWrite (frameRd id)).2 where
  txq := State.busWrite_txq _ _ rfl
  calmem := by rw [State.busWrite_frame]; rfl
  saveFail := by rw [State.busWrite_frame]; rfl
  log := ⟨[], by rw [State.busWrite_frame, List.append_nil]; rfl⟩

theorem State.ExchangeKept.storeResponse (h : s.ExchangeKept u) : s.ExchangeKept u.storeResponse := by
  have hread : u.readResponse.2.txq = u.txq ∧ u.readResponse.2.calmem = u.calmem ∧
      u.readResponse.2.saveFail = u.saveFail := by
    rw [State.readResponse, State.busRead_frame]
    exact ⟨rfl, rfl, rfl⟩
  obtain ⟨htxq, hmem, hflag⟩ := hread
  obtain ⟨_, hlog⟩ := u.storeResponse_frame
  rw [State.storeResponse] at hlog ⊢
  generalize u.readResponse = a at *
  exact ⟨htxq.trans h.txq, hmem.trans h.calmem, hflag.trans h.saveFail, hlog ▸ h.log⟩

theorem State.ExchangeKept.emit (h : s.ExchangeKept u) (e : LogEvent) : s.ExchangeKept (u.emit e) := by
  obtain ⟨l, hl⟩ := h.log
  exact { h with log := ⟨l ++ [⟨e.level, e⟩], by rw [← List.append_assoc, ← hl]; rfl⟩ }

/-- The wait between two exchanges keeps it all. -/
theorem State.ExchangeKept.wait (h : s.ExchangeKept u) (us : Nat) (ph : Phase) :
    s.ExchangeKept ((u.delay us).enter ph) := { h with }

theorem State.ExchangeKept.trans {t : State} (h : s.ExchangeKept t) (k : t.ExchangeKept u) : s.ExchangeKept u := by
  obtain ⟨l, hl⟩ := h.log
  obtain ⟨l', hl'⟩ := k.log
  exact ⟨k.txq, k.calmem.trans h.calmem, k.saveFail.trans h.saveFail, l ++ l', by rw [hl', hl, List.append_assoc]⟩

theorem readPosition_kept (id : Byte) (s : State) : s.ExchangeKept (readPosition id s).2 := by
  have hwrite := s.beforeRequest_busWrite_kept id
  have hcases := readPosition_cases id s _ rfl
  generalize ((s.beforeRequest id).busWrite (frameRd id)).2 = u at hwrite hcases
  have hread := hwrite.storeResponse
  generalize u.storeResponse = v at hread hcases
  obtain h | ⟨_, h⟩ | h := hcases <;> rw [h]
  case inl =>
    exact State.ExchangeKept.emit (u := ((u.setRx []).setOutcome true).absorb .busWriteFailure) { hwrite with } _
  case inr.inl => exact { hread with }
  case inr.inr => exact State.ExchangeKept.emit (u := (v.setOutcome true).absorb .shortResponse) { hread with } _

/-- R176: an exchange that answers leaves `ERR`. -/
theorem readPosition_err_of_answered {d : Deg} (h : (readPosition id s).1 = some d) :
    (readPosition id s).2.err = s.err := by
  cases hw : s.nextWrite with
  | fail k =>
    obtain ⟨hnone, _⟩ := readPosition_fail id s k hw
    exact absurd (h.symm.trans hnone) nofun
  | ok =>
    obtain ⟨hanswer, _, _, _, herr⟩ := readPosition_ok id s hw
    refine herr (not_lt.mp fun hshort => ?_)
    rw [hanswer, responseAnswer, if_pos hshort] at h
    cases h

/-- An exchange makes one write. -/
theorem readPosition_writes (id : Byte) (s : State) : (readPosition id s).2.env.writes = s.env.writes.tail := by
  cases hw : s.nextWrite with
  | fail k =>
    obtain ⟨_, _, henv, _⟩ := readPosition_fail id s k hw
    rw [henv]
  | ok =>
    obtain ⟨_, _, henv, _⟩ := readPosition_ok id s hw
    rw [henv]

theorem State.nextWrite_cons {d : WriteDraw} {ws : List WriteDraw} (h : s.env.writes = d :: ws) : s.nextWrite = d := by
  simp only [State.nextWrite, h]

theorem State.nextArrivals_cons {r : List Byte} {rs : List (List Byte)} (h : s.env.arrivals = r :: rs) :
    s.nextArrivals = r := by
  simp only [State.nextArrivals, h]

theorem State.nextSave_cons {d : SaveDraw} {ss : List SaveDraw} (h : s.env.saves = d :: ss) : s.nextSave = d := by
  simp only [State.nextSave, h]

/-- R176: a request that is written answers the next arrivals. -/
theorem readPosition_scripted {r : List Byte} {ws : List WriteDraw} {rs : List (List Byte)}
    (hw : s.env.writes = .ok :: ws) (hr : s.env.arrivals = r :: rs) :
    (readPosition id s).1 = responseAnswer r ∧ (readPosition id s).2.env.arrivals = rs := by
  obtain ⟨hanswer, _, henv, _⟩ := readPosition_ok id s (State.nextWrite_cons hw)
  rw [hanswer, henv, hr]
  exact ⟨congrArg responseAnswer (State.nextArrivals_cons (s := s.popWrite) hr), rfl⟩

end

/-! ## The two exchanges of `CAL_RUN` and its endings -/

/-- The exchange of the yaw axis (R202). -/
def State.yawExchange (s : State) : Option Deg × State := readPosition s.cfg.yaw.id (s.accept.enter .crYaw)

/-- The state in which the exchange of the pitch axis begins: the inter-command gap has been waited for (R202, R301). -/
def State.beforePitch (s : State) : State := (s.yawExchange.2.delay params.tCmdGap).enter .crPitch

/-- The exchange of the pitch axis (R202). -/
def State.pitchExchange (s : State) : Option Deg × State := readPosition s.cfg.pitch.id s.beforePitch

/-- Both positions become the offsets (R202). -/
def State.calibrated (y p : Deg) (s : State) : State := { (s.enter .crCommit).setCaloff y p with calFail := false }

/-- The end of `CAL_RUN` when an axis did not answer (R202, R260). -/
def State.uncalibrated (yawNone pitchNone : Bool) (s : State) : State :=
  (({ (s.enter .crCommit).setCaloff 0 0 with calFail := true }.absorb .calibrationFailed).emit
    (.calibrationFailed yawNone pitchNone)).deliver .calibrationFailed (.degPair 0 0)

section

variable {s : State} {y p : Deg}

theorem opCalRun_of_answered (hb : s.busOpen = true) (hy : s.yawExchange.1 = some y)
    (hp : s.pitchExchange.1 = some p) :
    opCalRun s = (calSave y p (s.pitchExchange.2.calibrated y p)).complete (.degPair y p) := by
  unfold State.pitchExchange State.beforePitch at *
  unfold State.yawExchange at *
  rw [opCalRun, s.needBus_open _ hb]
  simp only [hy, hp]
  rfl

theorem opCalRun_of_unanswered (hb : s.busOpen = true) (h : s.yawExchange.1 = none ∨ s.pitchExchange.1 = none) :
    opCalRun s = s.pitchExchange.2.uncalibrated s.yawExchange.1.isNone s.pitchExchange.1.isNone := by
  unfold State.pitchExchange State.beforePitch at *
  unfold State.yawExchange at *
  rw [opCalRun, s.needBus_open _ hb]
  dsimp only
  split
  case h_1 hy hp => simp [hy, hp] at h
  case h_2 => rfl

/-- R202: every way through `CAL_RUN` on an open channel: saved, not saved, not answered. -/
theorem opCalRun_cases (hb : s.busOpen = true) :
    (∃ y p, s.yawExchange.1 = some y ∧ s.pitchExchange.1 = some p ∧
      (opCalRun s = ((s.pitchExchange.2.calibrated y p).saved y p).complete (.degPair y p) ∨
        ∃ left, opCalRun s = ((s.pitchExchange.2.calibrated y p).saveFailed left).complete (.degPair y p))) ∨
    ((s.yawExchange.1 = none ∨ s.pitchExchange.1 = none) ∧
      opCalRun s = s.pitchExchange.2.uncalibrated s.yawExchange.1.isNone s.pitchExchange.1.isNone) := by
  cases hy : s.yawExchange.1 with
  | none => exact .inr ⟨.inl rfl, hy ▸ opCalRun_of_unanswered hb (.inl hy)⟩
  | some y =>
    cases hp : s.pitchExchange.1 with
    | none => exact .inr ⟨.inr rfl, hy ▸ hp ▸ opCalRun_of_unanswered hb (.inr hp)⟩
    | some p =>
      refine .inl ⟨y, p, rfl, rfl, ?_⟩
      rw [opCalRun_of_answered hb hy hp]
      cases hsave : (s.pitchExchange.2.calibrated y p).nextSave with
      | ok => exact .inl (by rw [calSave_of_saved hsave])
      | fail left => exact .inr ⟨left, by rw [calSave_of_failed hsave]⟩

/-- What the endings of `CAL_RUN` share (R202): `SEQ` is `IDLE`, and the wire and `TXQ` are those of the exchanges. -/
theorem opCalRun_ending (hb : s.busOpen = true) :
    (opCalRun s).seq = .idle ∧ (opCalRun s).txq = [] ∧ (opCalRun s).wire = s.pitchExchange.2.wire := by
  have hsent : s.pitchExchange.2.txq = [] := (readPosition_kept _ _).txq
  have hcases := opCalRun_cases hb
  generalize s.pitchExchange.2 = u at hsent hcases
  obtain ⟨y, p, _, _, h | ⟨left, h⟩⟩ | ⟨_, h⟩ := hcases <;> rw [h] <;> exact ⟨rfl, hsent, rfl⟩

/-- R31, R36, R43: what `CAL_RUN` never touches. -/
theorem opCalRun_frame (s : State) : (opCalRun s).cfg = s.cfg ∧ (opCalRun s).inbox = s.inbox ∧
    (opCalRun s).host = s.host ∧ (opCalRun s).busOpen = s.busOpen ∧ (opCalRun s).calStatus = s.calStatus := by
  obtain ⟨hhost, hinbox, hcfg⟩ := opCalRun_outside s
  have hbus : (opCalRun s).busOpen = s.busOpen := by
    obtain h | ⟨h, _⟩ | ⟨h, _⟩ := (opCalRun_ends s).busOpen
    · exact h
    · cases h
    · cases h
  exact ⟨hcfg, hinbox, hhost, hbus, (opCalRun_ends s).calibration.status nofun⟩

/-- The wire of the two exchanges (R202). -/
theorem State.exchanges_wire (s : State) : ∃ wy wp : List WireEvent,
    s.pitchExchange.2.wire = s.wire ++ wy ++ [.waited 1000] ++ wp ∧ exchanged s.cfg.yaw.id wy s.yawExchange.1 ∧
      exchanged s.cfg.pitch.id wp s.pitchExchange.1 := by
  obtain ⟨wy, hwy, hyaw⟩ := readPosition_exchanged s.cfg.yaw.id (s.accept.enter .crYaw)
  obtain ⟨wp, hwp, hpitch⟩ := readPosition_exchanged s.cfg.pitch.id s.beforePitch
  have hwait : s.beforePitch.wire = s.wire ++ wy ++ [.waited 1000] := by
    rw [State.beforePitch, State.enter_wire, State.delay_wire, State.yawExchange, hwy]
    rfl
  exact ⟨wy, wp, hwait ▸ hwp, hyaw, hpitch⟩

/-- The second exchange makes the second write. -/
theorem State.beforePitch_writes (s : State) : s.beforePitch.env.writes = s.env.writes.tail := by
  rw [State.beforePitch, State.enter_env, State.delay_env]
  exact readPosition_writes s.cfg.yaw.id (s.accept.enter .crYaw)

/-- The two exchanges leave the store, and add to the log. -/
theorem State.exchanges_kept (s : State) : s.ExchangeKept s.pitchExchange.2 := by
  have hyaw : (s.accept.enter .crYaw).ExchangeKept s.yawExchange.2 := readPosition_kept _ _
  have hwait : (s.accept.enter .crYaw).ExchangeKept s.beforePitch := hyaw.wait _ _
  have hpitch : s.beforePitch.ExchangeKept s.pitchExchange.2 := readPosition_kept _ _
  have hboth := hwait.trans hpitch
  generalize s.pitchExchange.2 = u at hboth
  exact { hboth with }

/-- R202: when both axes answer, exactly their positions are the offsets and the answer, and a save of them was
tried. -/
theorem opCalRun_answered (hb : s.busOpen = true) (hy : s.yawExchange.1 = some y) (hp : s.pitchExchange.1 = some p) :
    (opCalRun s).caloffYaw = y ∧ (opCalRun s).caloffPitch = p ∧ (opCalRun s).calFail = false ∧
      (opCalRun s).posValid = true ∧ (opCalRun s).resp = some ⟨(opCalRun s).statusWord, .none, .degPair y p⟩ ∧
      (((opCalRun s).saveFail = false ∧ (opCalRun s).err = s.err ∧ (opCalRun s).calmem = some (calText y p)) ∨
        ((opCalRun s).saveFail = true ∧ (opCalRun s).err = .calSaveFailure)) := by
  have hvalid : s.pitchExchange.2.posValid = true := by
    obtain ⟨hflag, _⟩ := readPosition_flags s.cfg.pitch.id s.beforePitch
    rw [State.pitchExchange, hflag, ← State.pitchExchange, hp]
    rfl
  have herr : s.pitchExchange.2.err = s.err := by
    rw [State.pitchExchange, readPosition_err_of_answered hp, State.beforePitch, State.enter_err, State.delay_err]
    exact readPosition_err_of_answered (s := s.accept.enter .crYaw) hy
  rw [opCalRun_of_answered hb hy hp]
  generalize s.pitchExchange.2 = u at hvalid herr
  cases hsave : (u.calibrated y p).nextSave with
  | ok => rw [calSave_of_saved hsave]; exact ⟨rfl, rfl, rfl, hvalid, rfl, .inl ⟨rfl, herr, rfl⟩⟩
  | fail left => rw [calSave_of_failed hsave]; exact ⟨rfl, rfl, rfl, hvalid, rfl, .inr ⟨rfl, rfl⟩⟩

/-- R202, R260: when either axis does not answer, neither offset is set and the store is left alone. -/
theorem opCalRun_unanswered (hb : s.busOpen = true) (h : s.yawExchange.1 = none ∨ s.pitchExchange.1 = none) :
    (opCalRun s).caloffYaw = 0 ∧ (opCalRun s).caloffPitch = 0 ∧ (opCalRun s).calFail = true ∧
      (opCalRun s).calmem = s.calmem ∧ (opCalRun s).saveFail = s.saveFail ∧ (opCalRun s).err = .calibrationFailed ∧
      (opCalRun s).resp = some ⟨(opCalRun s).statusWord, .calibrationFailed, .degPair 0 0⟩ ∧
      ∃ l, (opCalRun s).log =
        s.log ++ l ++ [⟨.warning, .calibrationFailed s.yawExchange.1.isNone s.pitchExchange.1.isNone⟩] := by
  obtain ⟨_, hmem, hflag, l, hlog⟩ := s.exchanges_kept
  rw [opCalRun_of_unanswered hb h]
  generalize s.pitchExchange.2 = u at hmem hflag hlog
  exact ⟨rfl, rfl, rfl, hmem, hflag, rfl, rfl, l, hlog ▸ rfl⟩

end

/-- Settles O19: the exchanges are on the wire, and each ending has its next state. -/
theorem calRunSetsBothOffsetsOrNone : Obligations.CalRunSetsBothOffsetsOrNone := by
  unfold Obligations.CalRunSetsBothOffsetsOrNone
  intro s hb
  obtain ⟨wy, wp, hwire, hyaw, hpitch⟩ := s.exchanges_wire
  obtain ⟨hidle, hsent, hrunWire⟩ := opCalRun_ending hb
  obtain ⟨hcfg, hinbox, hhost, hbus, hstatus⟩ := opCalRun_frame s
  refine ⟨opCalRun s, s.yawExchange.1, s.pitchExchange.1, wy, wp, rfl, hrunWire.trans hwire, hyaw, hpitch,
    fun y p hy hp => opCalRun_answered hb hy hp, fun h => opCalRun_unanswered hb h, fun k hw => ?yawFailed,
    fun d k ws hws => ?pitchFailed, fun a1 a2 ws rs hws hrs => ?written, ?frame⟩
  case yawFailed => exact (readPosition_fail _ (s.accept.enter .crYaw) k hw).1
  case pitchFailed =>
    have hw : s.beforePitch.env.writes = .fail k :: ws := by rw [s.beforePitch_writes, hws]; rfl
    exact (readPosition_fail _ s.beforePitch k (State.nextWrite_cons hw)).1
  case written =>
    have hw : s.beforePitch.env.writes = .ok :: ws := by rw [s.beforePitch_writes, hws]; rfl
    obtain ⟨hry, hr⟩ := readPosition_scripted (id := s.cfg.yaw.id) (s := s.accept.enter .crYaw) hws hrs
    exact ⟨hry, (readPosition_scripted (s := s.beforePitch) hw hr).1⟩
  case frame =>
    apply State.ext
    case seq => exact hidle
    case txq => exact hsent
    case cfg => exact hcfg
    case inbox => exact hinbox
    case host => exact hhost
    case busOpen => exact hbus
    case calStatus => exact hstatus
    all_goals rfl

/-! ## `CAL_RUN` with both requests answered -/

/-- What an exchange leaves when its request is written and `r`, of at least 7 bytes, arrives (R176; log entries 14 to
17): the phases of the exchange follow those walked before it. -/
def State.responseTaken (id : Byte) (r : List Byte) (s : State) : State :=
  { s.responded id r with
    seqTrace := s.seqTrace ++ [.rdFlush, .rdEnc, .rdWrite, .rdWait, .rdRead, .rdDecode]
    rspShort := false, posValid := true }

/-- The state in which an exchange waits for its response, its request being written (R176). -/
def State.requestWritten (id : Byte) (s : State) : State :=
  { s with seq := .rdWrite, seqTrace := s.seqTrace ++ [.rdFlush] ++ [.rdEnc] ++ [.rdWrite],
           txbuf := lineRequest id ++ s.txbuf.drop 7, txlen := 7, rxq := [], txq := [], tmrGap := .since 0,
           actMem := if s.lineClean = true then s.actMem else [],
           wire := s.wire ++ [.flushed] ++ [.wrote (lineRequest id)],
           rqWindow := carriesRequest (lineRequest id),
           env := { s.env with writes := s.env.writes.tail }, draws := s.draws + 1 }

section

variable {id : Byte} {r : List Byte} {s u : State}

/-- R176: an exchange whose request is written and answered with a position. -/
theorem readPosition_of_decoded {v : Raw} (h : (s.beforeRequest id).busWrite (frameRd id) = (true, u))
    (hd : decodeResponse u.readResponse.1 = some v) :
    readPosition id s = (some (rawToDeg v), u.storeResponse.setOutcome false) := by
  rw [State.beforeRequest] at h
  rw [State.readResponse] at hd
  simp only [readPosition, h, hd]
  rfl

/-- R136, R194: seven bytes carry a position, and cutting them to twelve does not change it. -/
theorem decodeResponse_take (h : 7 ≤ r.length) :
    ∃ v, decodeResponse (r.take 12) = some v ∧ rawToDeg v = responseDegrees r := by
  have hdec := decodeResponse_of_le (r := r.take 12) (by rw [List.length_take]; omega)
  have hanswer := (decodeResponse_answer (r.take 12)).trans (responseAnswer_take r)
  rw [hdec, responseAnswer, if_neg (Nat.not_lt_of_le h)] at hanswer
  exact ⟨_, hdec, Option.some.inj hanswer⟩

/-- R176, R82: the request of an exchange is a whole frame that changes nothing of the actuators. -/
theorem State.beforeRequest_written (hgap : s.tmrGap.atLeast params.tCmdGap = true) (hw : s.nextWrite = .ok) :
    (s.beforeRequest id).busWrite (frameRd id) = (true, s.requestWritten id) := by
  have hready : s.beforeRequest id =
      { s.requesting id with seqTrace := s.seqTrace ++ [.rdFlush] ++ [.rdEnc] ++ [.rdWrite] } := by
    rw [State.beforeRequest, frameRd_closed]
    rfl
  rw [hready, frameRd_closed]
  exact State.busWrite_wholeFrame (List.cons_ne_nil _ _) ((State.lineSpaced_iff _).mpr ⟨hgap, rfl⟩) rfl hw
    (actuatorEffect_request _ _ _)

/-- R176: the wait, the read and the store of a response that carries a position. -/
theorem State.requestWritten_answered (hr : s.popWrite.nextArrivals = r) :
    (s.requestWritten id).readResponse.1 = r.take 12 ∧
      (s.requestWritten id).storeResponse.setOutcome false = s.responseTaken id r := by
  have hread := State.readResponse_of_arrivals (u := s.requestWritten id) (r := r) rfl hr
  rw [State.storeResponse, hread]
  refine ⟨rfl, ?_⟩
  apply State.ext
  case wire | seqTrace | rxbuf =>
    simp [State.requestWritten, State.responseTaken, State.responded, State.setOutcome, State.setRx]
  case rxlen => exact List.length_take
  case tmrGap => exact (apply_ite GapTimer.since _ _ _).symm
  all_goals rfl

/-- R176: an exchange with the gap passed, its request written and enough bytes arriving. -/
theorem readPosition_of_answer (hgap : s.tmrGap.atLeast params.tCmdGap = true) (hw : s.nextWrite = .ok)
    (hr : s.popWrite.nextArrivals = r) (hlen : 7 ≤ r.length) :
    readPosition id s = (some (responseDegrees r), s.responseTaken id r) := by
  obtain ⟨v, hdec, hv⟩ := decodeResponse_take hlen
  obtain ⟨hread, hstore⟩ := State.requestWritten_answered (id := id) hr
  rw [← hread] at hdec
  rw [readPosition_of_decoded (State.beforeRequest_written hgap hw) hdec, hv, hstore]

/-- The state in which the pitch axis's exchange begins when `r` answered the yaw axis's (R202). -/
def State.yawAnswered (r : List Byte) (s : State) : State :=
  (((s.accept.enter .crYaw).responseTaken s.cfg.yaw.id r).delay params.tCmdGap).enter .crPitch

@[simp] theorem State.yawAnswered_env (r : List Byte) (s : State) : (s.yawAnswered r).env =
    { s.env with writes := s.env.writes.tail, arrivals := s.env.arrivals.tail } := rfl

/-- After a wait of `us` at least that time has passed. -/
theorem GapTimer.add_atLeast (g : GapTimer) (us : Nat) : (g.add us).atLeast us = true := by
  cases g with
  | expired => rfl
  | since e => exact decide_eq_true (Nat.le_add_left us e)

/-- R301: the wait between the exchanges keeps the inter-command gap. -/
theorem State.yawAnswered_gap (r : List Byte) (s : State) :
    (s.yawAnswered r).tmrGap.atLeast params.tCmdGap = true := by
  rw [State.yawAnswered, State.enter_tmrGap, State.delay_tmrGap]
  exact GapTimer.add_atLeast _ _

end

section

variable {s : State} {r1 r2 : List Byte} {ws : List WriteDraw} {rs : List (List Byte)}

theorem State.yawExchange_of_answer (hgap : s.tmrGap.atLeast params.tCmdGap = true) (hw : s.env.writes = .ok :: ws)
    (hr : s.env.arrivals = r1 :: rs) (hlen : 7 ≤ r1.length) : s.yawExchange =
      (some (responseDegrees r1), (s.accept.enter .crYaw).responseTaken s.cfg.yaw.id r1) :=
  readPosition_of_answer (s := s.accept.enter .crYaw) hgap (State.nextWrite_cons hw)
    (State.nextArrivals_cons (s := (s.accept.enter .crYaw).popWrite) hr) hlen

theorem State.pitchExchange_of_answer (hgap : s.tmrGap.atLeast params.tCmdGap = true)
    (hw : s.env.writes = .ok :: .ok :: ws) (hr : s.env.arrivals = r1 :: r2 :: rs) (hlen1 : 7 ≤ r1.length)
    (hlen2 : 7 ≤ r2.length) : s.pitchExchange =
      (some (responseDegrees r2), (s.yawAnswered r1).responseTaken s.cfg.pitch.id r2) := by
  have hwrites : (s.yawAnswered r1).env.writes = .ok :: ws := by rw [State.yawAnswered_env, hw]; rfl
  have harrivals : (s.yawAnswered r1).popWrite.env.arrivals = r2 :: rs := by
    rw [State.popWrite_env, State.yawAnswered_env, hr]; rfl
  have hstart : s.beforePitch = s.yawAnswered r1 := by
    rw [State.beforePitch, State.yawExchange_of_answer hgap hw hr hlen1]; rfl
  rw [State.pitchExchange, hstart]
  exact readPosition_of_answer (s.yawAnswered_gap r1) (State.nextWrite_cons hwrites)
    (State.nextArrivals_cons harrivals) hlen2

/-- R202: `CAL_RUN` when both axes answer and the save succeeds. -/
theorem opCalRun_of_answers {ss : List SaveDraw} (hb : s.busOpen = true) (hgap : s.tmrGap.atLeast params.tCmdGap = true)
    (hw : s.env.writes = .ok :: .ok :: ws) (hr : s.env.arrivals = r1 :: r2 :: rs) (hs : s.env.saves = .ok :: ss)
    (hlen1 : 7 ≤ r1.length) (hlen2 : 7 ≤ r2.length) : opCalRun s =
      State.complete (.degPair (responseDegrees r1) (responseDegrees r2))
        ((((s.yawAnswered r1).responseTaken s.cfg.pitch.id r2).calibrated (responseDegrees r1)
          (responseDegrees r2)).saved (responseDegrees r1) (responseDegrees r2)) := by
  have hyaw := State.yawExchange_of_answer hgap hw hr hlen1
  have hpitch := State.pitchExchange_of_answer hgap hw hr hlen1 hlen2
  rw [opCalRun_of_answered hb (congrArg Prod.fst hyaw) (congrArg Prod.fst hpitch), hpitch]
  exact congrArg _ (calSave_of_saved (State.nextSave_cons hs))

end

/-- Settles O20: the next state of `opCalRun_of_answers`, field by field. -/
theorem calRunCalibratesBothAxes : Obligations.CalRunCalibratesBothAxes := by
  unfold Obligations.CalRunCalibratesBothAxes
  intro s ws r1 r2 rs ss hb hgap hw hr hs hlen1 hlen2
  refine ⟨opCalRun s, rfl, ?_⟩
  rw [opCalRun_of_answers hb hgap hw hr hs hlen1 hlen2]
  refine ⟨?next, List.take_left' List.length_take⟩
  apply State.ext
  case resp => exact State.complete_resp _ _
  case actMem =>
    cases hclean : s.lineClean <;>
      simp [State.saved, State.calibrated, State.responseTaken, State.responded, State.yawAnswered, hclean]
  all_goals
    simp [State.saved, State.calibrated, State.setCaloff, State.responseTaken, State.responded, State.yawAnswered, hw,
      hr, hs, params, lineRequest, calText, lf]

end Sys2Proof.Machine
end

section
/-! PROOFS, family 48_host_control_loop: the actions that the host takes from its plan when nothing comes in between;
the start-up whose open fails, the calibration action, and a tick in `Running`. -/

namespace Sys2Proof.Machine

/-! ## A plan with nothing in between -/

/-- The host goes on with the plan `p`: the next events, if any, wait for its end (R235, log entry 48). -/
structure State.Planning (p : List HostAct) (s : State) : Prop where
  idle : s.seq = .idle
  plan : s.host.plan = p
  going : s.host.ended = false
  waits : ∀ e ∈ s.inbox.head?, e.waits = true

/-- The same state with the plan `p`. -/
def State.withPlan (p : List HostAct) (s : State) : State := { s with host := { s.host with plan := p } }

@[simp] theorem State.withPlan_withPlan (p q : List HostAct) (s : State) :
    (s.withPlan p).withPlan q = s.withPlan q := rfl

/-- A plan that begins when none is under way is all that the host has to do. -/
theorem State.plan_of_none {s : State} (h : s.host.plan = []) (acts : List HostAct) :
    s.plan acts = s.withPlan acts := by
  rw [State.plan, h, List.append_nil, State.withPlan]

theorem State.Planning.step {s : State} {a : HostAct} {p : List HostAct} (h : s.Planning (a :: p)) :
    step s = runAct a (s.withPlan p) :=
  step_act s _ a h.idle (s.hostTurn_waits a p h.plan h.waits) h.going

section

variable {s t : State} {r : Request} {g : Guard} {p : List HostAct} {i : Instr}

/-- The issuer of an operation that ends without an error goes on. -/
theorem State.Planning.step_completed (h : s.Planning (.issue r g :: p)) (hdec : decode (.request r) = .ok i)
    (hexec : exec i (s.withPlan p) = .next t) (hok : t.lastError = .none) : Machine.step s = .next t := by
  rw [h.step]
  simp only [runAct, issueRequest_decoded hdec, hexec, if_pos hok]

/-- The issuer of an operation that ends with an error follows its guard. -/
theorem State.Planning.step_failed (h : s.Planning (.issue r g :: p)) (hdec : decode (.request r) = .ok i)
    (hexec : exec i (s.withPlan p) = .next t) (herr : t.lastError ≠ .none) :
    Machine.step s = .next (t.guarded g r.op t.lastError) := by
  rw [h.step]
  simp only [runAct, issueRequest_decoded hdec, hexec, if_neg herr]

end

/-- A run of `m` steps, and then `n` more. -/
theorem core_run_add {m : Nat} {s t : State} (h : core.run m s = .next t) (n : Nat) :
    core.run (m + n) s = core.run n t := by
  induction m generalizing s with
  | zero =>
    cases h
    rw [Nat.zero_add]
  | succ m ih =>
    rw [Nat.succ_add]
    simp only [Host.Core.run] at h ⊢
    cases hstep : core.step s <;> rw [hstep] at h
    case next u => exact ih h
    case fault => cases h
    case refused => cases h

/-! ## The start-up whose open fails -/

/-- R151: an open that fails leaves the failure on record and in the response. -/
theorem opOpen_of_failed {s : State} (hb : s.busOpen = false) (hdraw : s.nextOpen = false) :
    (opOpen s).busOpen = false ∧ (opOpen s).err = .transportOpenFailure ∧
      (opOpen s).wire = s.wire ++ [.openFailed] ∧ (opOpen s).actMem = s.actMem ∧
      (opOpen s).lastError = .transportOpenFailure := by
  refine ⟨(opOpen_busOpen s hb).trans hdraw, ?_⟩
  rw [opOpen_of_closed hb, if_neg (Bool.eq_false_iff.mp hdraw)]
  exact ⟨rfl, rfl, rfl, rfl⟩

/-- R223: the failed open of a start-up ends the host. -/
theorem State.Planning.step_openFailed {s : State} {p : List HostAct}
    (h : s.Planning (.issue { op := 0x01 } .abort :: p)) (hb : s.busOpen = false) (hdraw : s.nextOpen = false) :
    ∃ t, Machine.step s = .next t ∧ t.inbox = s.inbox ∧ t.busOpen = false ∧ t.err = .transportOpenFailure ∧
      t.wire = s.wire ++ [.openFailed] ∧ t.actMem = s.actMem ∧
      t.host = { s.host with ended := true, error := some .transportOpenFailure,
                             log := s.host.log ++ [.openFatal], plan := [] } := by
  obtain ⟨hclosed, herr, hwire, hmem, hfailed⟩ := opOpen_of_failed (s := s.withPlan p) hb hdraw
  obtain ⟨hhost, hinbox, _⟩ := opOpen_outside (s.withPlan p)
  have hstep := h.step_failed (i := .bOpen) rfl rfl (by rw [hfailed]; nofun)
  rw [hfailed] at hstep
  refine ⟨_, hstep, hinbox, hclosed, herr, hwire, hmem, ?_⟩
  simp only [State.guarded, hhost]
  rfl

/-- R222: the start of the host plans `Initializing`. -/
theorem step_hostStart {s : State} {rest : List Event} (hidle : s.seq = .idle) (hplan : s.host.plan = [])
    (hin : s.inbox = .hostStart :: rest) (hloop : s.host.loop = .initializing) (hfresh : s.host.started = false)
    (hgo : s.host.ended = false) :
    step s =
      .next (State.withPlan (planInit s.cfg) { s with inbox := rest, host := { s.host with started := true } }) := by
  rw [step_event s _ rest hidle hin (.inl hplan), runEvent, if_pos ⟨hloop, hfresh, hgo⟩]
  exact congrArg _ (State.plan_of_none
    (s := { s with inbox := rest, host := { s.host with started := true } }) hplan _)

/-- Settles O58: the open is the first action of the start-up, and its guard drops the rest of the plan. -/
theorem openFailureAbortsStartUp : Obligations.OpenFailureAbortsStartUp := by
  unfold Obligations.OpenFailureAbortsStartUp
  intro s hidle hplan hin hloop hfresh hgo hb hdraw
  have hstart := step_hostStart hidle hplan hin hloop hfresh hgo
  have hnothing : ∀ e ∈ ([] : List Event).head?, e.waits = true := by simp
  obtain ⟨t, hopen, hinbox, hclosed, herr, hwire, hmem, hhost⟩ := State.Planning.step_openFailed
    (s := State.withPlan (planInit s.cfg) { s with inbox := [], host := { s.host with started := true } })
    ⟨hidle, rfl, hgo, hnothing⟩ hb hdraw
  refine ⟨t, (core_run_succ hstart 1).trans (core_run_succ hopen 0), hinbox, ?_⟩
  rw [hhost]
  exact ⟨rfl, rfl, hloop, rfl, hclosed, herr, hwire, hmem, rfl⟩

/-! ## The calibration action -/

/-- R236: where the calibration action is admitted. -/
theorem State.calibrate_admitted_iff (s : State) : s.host.mayIssue = true ∧ s.mayCalibrate = true ↔
    s.busOpen = true ∧ TorqueOn s.cfg.yaw.id s.wire ∧ TorqueOn s.cfg.pitch.id s.wire ∧
      s.host.loop = .initializing ∧ s.host.ended = false := by
  have hphase : s.host.mayIssue = true ∧ (s.host.loop = .initializing ∨ s.host.ended = true) ↔
      s.host.loop = .initializing ∧ s.host.ended = false := by
    cases hloop : s.host.loop <;> cases hended : s.host.ended <;> simp [HostState.mayIssue, hloop, hended]
  simp only [State.mayCalibrate, Bool.and_eq_true, Bool.or_eq_true, beq_iff_eq, s.torqueAllOn_iff]
  tauto

/-- R236: the calibration action plans `CAL_RUN` where it is admitted, and does nothing else. -/
theorem step_calibrate {s : State} {rest : List Event} (hidle : s.seq = .idle) (hplan : s.host.plan = [])
    (hin : s.inbox = .calibrate :: rest) :
    step s = .next (if s.host.mayIssue = true ∧ s.mayCalibrate = true
      then State.withPlan planCalibrate { s with inbox := rest } else { s with inbox := rest }) := by
  rw [step_event s _ rest hidle hin (.inl hplan), runEvent, State.plan_of_none (s := { s with inbox := rest }) hplan]
  rfl

/-- Settles O59: the action is admitted exactly where the rule puts it; a Free frame that is the last torque frame to an
axis leaves its torque off. -/
theorem calibrationKeepsItsPlace : Obligations.CalibrationKeepsItsPlace := by
  unfold Obligations.CalibrationKeepsItsPlace
  intro s rest hidle hplan hin
  have hstep := step_calibrate hidle hplan hin
  have hadmit := s.calibrate_admitted_iff
  have hdropped (hno : s.busOpen = false ∨ ¬TorqueOn s.cfg.yaw.id s.wire ∨ ¬TorqueOn s.cfg.pitch.id s.wire ∨
      s.host.loop ≠ .initializing ∨ s.host.ended = true) : step s = .next { s with inbox := rest } := by
    rw [hstep, if_neg]
    rw [hadmit]
    rintro ⟨hb, hyaw, hpitch, hloop, hgo⟩
    simp [hb, hyaw, hpitch, hloop, hgo] at hno
  refine ⟨fun hb hyaw hpitch hloop hgo => ?admitted, hdropped, fun id l r hid hwire hnormal => ?freed⟩
  case admitted =>
    rw [hstep, if_pos (hadmit.mpr ⟨hb, hyaw, hpitch, hloop, hgo⟩)]
    rfl
  case freed =>
    have hoff : ¬TorqueOn id s.wire := hwire ▸ not_torqueOn_of_free id l r hnormal
    obtain rfl | rfl := hid
    · exact hdropped (.inr (.inl hoff))
    · exact hdropped (.inr (.inr (.inl hoff)))

/-! ## A tick in `Running` -/

/-- What a tick plans for a sample (R225). -/
def State.samplePlan (c : ControlSample) (us : Nat) (s : State) : List HostAct :=
  s.planPipeline .yaw c.yaw .shutdown ++ s.planPipeline .pitch c.pitch .shutdown ++ [.decide c us]

theorem step_hostTick {s : State} {pose : Pose} {us : Nat} {rest : List Event} (hidle : s.seq = .idle)
    (hplan : s.host.plan = []) (hin : s.inbox = .hostTick pose us :: rest) (hloop : s.host.loop = .running)
    (hgo : s.host.ended = false) : step s = .next (tick pose us { s with inbox := rest }) := by
  rw [step_event s _ rest hidle hin (.inl hplan), runEvent, if_pos ⟨hloop, hgo⟩]

section

variable {s : State} (hplan : s.host.plan = []) (us : Nat)

include hplan

/-- R226: a failed poll leaves only the sleep. -/
theorem tick_failure (hstop : s.host.stopFlag = false) : tick .failure us s =
    State.withPlan [s.sleepAct us] { s with host := { s.host with sample := none } } := by
  refine (if_neg (by simp [hstop])).trans ?_
  exact State.plan_of_none (s := { s with host := { s.host with sample := none } }) hplan _

/-- R225: a sample goes through the pipeline of each axis and then to the deadband test. -/
theorem tick_sample (c : ControlSample) (hstop : s.host.stopFlag = false) : tick (.sample c) us s =
    State.withPlan (s.samplePlan c us) { s with host := { s.host with sample := some c } } := by
  refine (if_neg (by simp [hstop])).trans ?_
  exact State.plan_of_none (s := { s with host := { s.host with sample := some c } }) hplan _

/-- R230, R232: a stop that was latched begins the shutdown. -/
theorem tick_stop (pose : Pose) (hstop : s.host.stopFlag = true) : tick pose us s =
    State.withPlan (planShutdown s.cfg) { s with host := { s.host with loop := .shuttingDown, error := none } } := by
  refine (if_pos hstop).trans ?_
  exact State.plan_of_none (s := { s with host := { s.host with loop := .shuttingDown, error := none } }) hplan _

end

/-- R229: the sleep fills the tick up to `1/FREQ`. -/
theorem tickSleep_covers (freq : Rat) (us : Nat) : 1000000 / freq ≤ ((us + tickSleep freq us : Nat) : Rat) := by
  have hnat : ⌈1000000 / freq⌉ ≤ ((us + tickSleep freq us : Nat) : Int) := by
    rw [tickSleep, rat_ceil_eq]
    omega
  calc 1000000 / freq ≤ (⌈1000000 / freq⌉ : Rat) := Int.le_ceil _
    _ ≤ ((us + tickSleep freq us : Nat) : Rat) := by exact_mod_cast hnat

theorem axisOfSel_selOfAxis (a : Axis) : axisOfSel (selOfAxis a) = some a := by
  cases a <;> rfl

/-- What an operation that only answers leaves (R40, R114). -/
def State.withAnswer (resp : Option Response) (s : State) : State := { s with seqTrace := [.exec], resp := resp }

@[simp] theorem State.withAnswer_withAnswer (r₁ r₂ : Option Response) (s : State) :
    (s.withAnswer r₁).withAnswer r₂ = s.withAnswer r₂ := rfl

@[simp] theorem State.withAnswer_withPlan (resp : Option Response) (p : List HostAct) (s : State) :
    (s.withAnswer resp).withPlan p = (s.withPlan p).withAnswer resp := rfl

theorem State.answered_of_idle {s : State} (h : s.seq = .idle) (r : Result) :
    s.answered r = s.withAnswer (s.answered r).resp := by
  apply State.ext
  case seq => exact h.symm
  all_goals rfl

section

variable {s : State} {a : Axis} {d : Deg} {g : Guard} {p : List HostAct}

/-- An operation of the plan that only answered leaves the rest of the plan to go on with. -/
theorem State.Planning.withAnswer {x : HostAct} (h : s.Planning (x :: p)) (resp : Option Response) :
    ((s.withPlan p).withAnswer resp).Planning p := ⟨h.idle, rfl, h.going, h.waits⟩

/-- A request of the plan that is decoded to an operation that only answers. -/
theorem State.Planning.step_answered {r : Request} {i : Instr} {res : Result} (h : s.Planning (.issue r g :: p))
    (hdec : decode (.request r) = .ok i) (hexec : exec i (s.withPlan p) = .next ((s.withPlan p).answered res)) :
    ∃ resp, Machine.step s = .next ((s.withPlan p).withAnswer resp) := by
  have hstep := h.step_completed hdec hexec rfl
  rw [State.answered_of_idle (s := s.withPlan p) h.idle] at hstep
  exact ⟨_, hstep⟩

/-- R225: the two operations of an axis's pipeline only answer. -/
theorem State.Planning.run_pipeline {q : List HostAct} (h : s.Planning q) (hq : q = s.planPipeline a d g ++ p) :
    ∃ resp, core.run 2 s = .next ((s.withPlan p).withAnswer resp) ∧ ((s.withPlan p).withAnswer resp).Planning p := by
  subst hq
  have hsel := axisOfSel_selOfAxis a
  obtain ⟨resp₁, hoffset⟩ := State.Planning.step_answered h rfl (exec_calApply_of_sel hsel _ _)
  obtain ⟨resp₂, hmap⟩ := State.Planning.step_answered (h.withAnswer resp₁) rfl (exec_axMap_of_sel hsel _ _)
  exact ⟨resp₂, (core_run_succ hoffset 1).trans (core_run_succ hmap 0), h.idle, rfl, h.going, h.waits⟩

end

/-- R227: at the threshold a target is outside. -/
theorem outsideDeadband_some_iff {band ly lp vy vp : Deg} :
    outsideDeadband band (some (ly, lp)) vy vp = true ↔ band ≤ |vy - ly| ∨ band ≤ |vp - lp| := by
  simp [outsideDeadband]

/-- What the deadband test plans (R227 to R229). -/
def State.decidePlan (c : ControlSample) (us : Nat) (s : State) : List HostAct :=
  if outsideDeadband s.cfg.deadband s.host.loopState (s.pipeline .yaw c.yaw) (s.pipeline .pitch c.pitch) = true then
    planPositions s.cfg (s.pipeline .yaw c.yaw) (s.pipeline .pitch c.pitch) .shutdown ++
      [.commit (s.pipeline .yaw c.yaw) (s.pipeline .pitch c.pitch), s.sleepAct us]
  else [s.sleepAct us]

@[simp] theorem State.decidePlan_withPlan (p : List HostAct) (c : ControlSample) (us : Nat) (s : State) :
    (s.withPlan p).decidePlan c us = s.decidePlan c us := rfl

@[simp] theorem State.decidePlan_withAnswer (resp : Option Response) (c : ControlSample) (us : Nat) (s : State) :
    (s.withAnswer resp).decidePlan c us = s.decidePlan c us := rfl

theorem State.decideTick_eq {s : State} (hplan : s.host.plan = []) (c : ControlSample) (us : Nat) :
    s.decideTick c us = s.withPlan (s.decidePlan c us) := by
  simp only [State.decideTick, State.plan_of_none hplan, State.decidePlan]
  split <;> rfl

/-- R225 to R228: within the deadband on both axes only the sleep is planned. -/
theorem State.decidePlan_within {s : State} {c : ControlSample} {us : Nat} {ly lp : Deg}
    (hlast : s.host.loopState = some (ly, lp)) (hyaw : |s.pipeline .yaw c.yaw - ly| < s.cfg.deadband)
    (hpitch : |s.pipeline .pitch c.pitch - lp| < s.cfg.deadband) : s.decidePlan c us = [s.sleepAct us] := by
  rw [State.decidePlan, hlast, if_neg]
  rw [outsideDeadband_some_iff, not_or]
  exact ⟨not_le_of_gt hyaw, not_le_of_gt hpitch⟩

/-- R225 to R228: at or outside the deadband on either axis the two commands come first. -/
theorem State.decidePlan_outside {s : State} {c : ControlSample} {us : Nat} {ly lp : Deg}
    (hlast : s.host.loopState = some (ly, lp)) (hout : s.cfg.deadband ≤ |s.pipeline .yaw c.yaw - ly| ∨
      s.cfg.deadband ≤ |s.pipeline .pitch c.pitch - lp|) : s.decidePlan c us =
    planPositions s.cfg (s.pipeline .yaw c.yaw) (s.pipeline .pitch c.pitch) .shutdown ++
      [.commit (s.pipeline .yaw c.yaw) (s.pipeline .pitch c.pitch), s.sleepAct us] := by
  rw [State.decidePlan, hlast, if_pos (outsideDeadband_some_iff.mpr hout)]

theorem State.Planning.step_decide {s : State} {c : ControlSample} {us : Nat} (h : s.Planning [.decide c us]) :
    Machine.step s = .next (s.withPlan (s.decidePlan c us)) :=
  h.step.trans (congrArg Host.Outcome.next (State.decideTick_eq (s := s.withPlan []) rfl c us))

/-- R225, R227: the plan of a sample ends with the plan of its deadband test. -/
theorem State.Planning.run_samplePlan {s : State} {c : ControlSample} {us : Nat} (h : s.Planning (s.samplePlan c us)) :
    ∃ resp, core.run 5 s = .next ((s.withPlan (s.decidePlan c us)).withAnswer resp) := by
  obtain ⟨resp₁, hyaw, hnext⟩ := h.run_pipeline (a := .yaw) (List.append_assoc _ _ _)
  obtain ⟨resp₂, hpitch, hlast⟩ := hnext.run_pipeline (a := .pitch) (p := [.decide c us]) rfl
  have hdecide := hlast.step_decide
  simp only [State.withAnswer_withPlan, State.withPlan_withPlan, State.withAnswer_withAnswer,
    State.decidePlan_withAnswer, State.decidePlan_withPlan] at hpitch hdecide
  exact ⟨resp₂, (core_run_add hyaw 3).trans ((core_run_add hpitch 1).trans (core_run_succ hdecide 0))⟩

/-- Settles O55: a tick that polled a sample ends with the plan of its deadband test. -/
theorem ticksFollowTheDeadband : Obligations.TicksFollowTheDeadband := by
  unfold Obligations.TicksFollowTheDeadband
  intro s pose us rest hidle hplan hin hloop hgo hstop hwaits
  refine ⟨?failure, ?sample⟩
  case failure =>
    rintro rfl
    have htick := step_hostTick hidle hplan hin hloop hgo
    rw [tick_failure (s := { s with inbox := rest }) hplan us hstop] at htick
    exact ⟨tickSleep s.cfg.freq us, htick, tickSleep_covers _ _⟩
  case sample =>
    rintro c ly lp _ _ rfl hlast rfl rfl
    have htick := step_hostTick hidle hplan hin hloop hgo
    rw [tick_sample (s := { s with inbox := rest }) hplan us c hstop] at htick
    obtain ⟨resp, hrun⟩ := State.Planning.run_samplePlan (c := c) (us := us)
      (s := State.withPlan (s.samplePlan c us)
        { s with inbox := rest, host := { s.host with sample := some c } }) ⟨hidle, rfl, hgo, hwaits⟩
    exact ⟨_, tickSleep s.cfg.freq us, (core_run_succ htick 5).trans hrun, rfl, State.decidePlan_within hlast,
      State.decidePlan_outside hlast, tickSleep_covers _ _⟩

end Sys2Proof.Machine
end

section
/-! PROOFS, family 48_host_control_loop, the shutdown whose writes succeed: what an operation that succeeds leaves, and
the steps of the shutdown as they keep `CleanShutdown`. -/

namespace Sys2Proof.Machine

/-! ## Operations that succeed -/

/-- An operation that ended without an error and a fault and added `e` to the wire history: what it leaves between
operations; `isOpen` and `ws` are the channel and the draws of the writes to come after it. -/
structure State.Succeeds (e : WireEvent) (isOpen : Bool) (ws : List WriteDraw) (s t : State) : Prop where
  idle : t.seq = .idle
  outside : s.SameOutside t
  busOpen : t.busOpen = isOpen
  sent : t.txq = []
  window : t.rqWindow = s.rqWindow
  faults : t.faults = s.faults
  err : t.err = s.err
  answered : t.lastError = .none
  writes : t.env.writes = ws
  wire : t.wire = s.wire ++ [e]

section

variable {s : State} (hb : s.busOpen = true)

include hb

/-- R155: the close of an open channel. -/
theorem opClose_succeeds : s.Succeeds .closed false s.env.writes (opClose s) := by
  rw [opClose_of_open hb]
  exact ⟨rfl, ⟨rfl, rfl, rfl⟩, rfl, rfl, rfl, rfl, rfl, rfl, rfl, rfl⟩

variable (hspaced : s.lineSpaced = true) (hq : s.txq = []) (hw : s.nextWrite = .ok) (id : Byte)

include hspaced hq hw

/-- R175: `SETPOS` on a spaced line, its write succeeding. -/
theorem opSetpos_succeeds (d : Deg) : s.Succeeds (.wrote (linePosition id (setposRaw s.cfg.rawRound d))) true
    s.env.writes.tail (opSetpos id d s) := by
  rw [opSetpos_of_open hb, State.writeAndEnd_of_written (State.busWrite_position hspaced hq hw)]
  exact ⟨rfl, ⟨rfl, rfl, rfl⟩, hb, hq, rfl, rfl, rfl, rfl, rfl, rfl⟩

/-- R173: `TQ_OFF` on a spaced line, its write succeeding. -/
theorem opTqOff_succeeds : s.Succeeds (.wrote (lineFree id)) true s.env.writes.tail (opTqOff id s) := by
  rw [opTqOff_of_open hb, State.writeAndEnd_of_written (State.busWrite_free hspaced hq hw)]
  exact ⟨rfl, ⟨rfl, rfl, rfl⟩, hb, hq, rfl, rfl, rfl, rfl, rfl, rfl⟩

end

/-- With the configuration `c`, the request `r` sends the frame `f` whenever the channel is open, the line spaced and
the write succeeds. -/
def RequestSends (c : Deployment) (r : Request) (f : List Byte) : Prop :=
  ∀ s : State, s.cfg = c → s.busOpen = true → s.lineSpaced = true → s.txq = [] → s.nextWrite = .ok →
    ∃ i t, decode (.request r) = .ok i ∧ exec i s = .next t ∧ s.Succeeds (.wrote f) true s.env.writes.tail t

theorem setpos_sends (c : Deployment) (id : Byte) (d : Deg) :
    RequestSends c { op := 0x12, id := id, deg := d } (linePosition id (setposRaw c.rawRound d)) := by
  rintro s rfl hb hspaced hq hw
  exact ⟨.setpos id d, opSetpos id d s, rfl, rfl, opSetpos_succeeds hb hspaced hq hw id d⟩

theorem tqOff_sends (c : Deployment) (id : Byte) : RequestSends c { op := 0x11, id := id } (lineFree id) := by
  rintro s rfl hb hspaced hq hw
  exact ⟨.tqOff id, opTqOff id s, rfl, rfl, opTqOff_succeeds hb hspaced hq hw id⟩

/-! ## The steps of the shutdown -/

/-- A shutdown that began in `s₀` and has met no failure: `w` was added to the wire history since, `ws` are the draws of
the writes to come, `p` is left of the plan, and the events `rest` wait for its end. -/
structure CleanShutdown (s₀ : State) (rest : List Event) (isOpen : Bool) (w : List WireEvent) (ws : List WriteDraw)
    (p : List HostAct) (s : State) : Prop extends s.Planning p where
  cfg : s.cfg = s₀.cfg
  inbox : s.inbox = rest
  loop : s.host.loop = .shuttingDown
  busOpen : s.busOpen = isOpen
  sent : s.txq = []
  window : s.rqWindow = false
  faults : s.faults = s₀.faults
  err : s.err = s₀.err
  writes : s.env.writes = ws
  wire : s.wire = s₀.wire ++ w

/-- R301: after a wait of at least `T_CMD_GAP` the gap has passed. -/
theorem GapTimer.add_atLeast_of_le (g : GapTimer) {gap us : Nat} (h : gap ≤ us) : (g.add us).atLeast gap = true := by
  cases g with
  | expired => rfl
  | since e => simpa [GapTimer.add, GapTimer.atLeast] using Nat.le_add_left_of_le h

section

variable {s₀ s : State} {rest : List Event} {w : List WireEvent} {ws : List WriteDraw} {p : List HostAct}

/-- A wait of the shutdown. -/
theorem CleanShutdown.step_wait {us : Nat} (h : CleanShutdown s₀ rest true w ws (.wait us :: p) s) :
    ∃ t, Machine.step s = .next t ∧ CleanShutdown s₀ rest true (w ++ [.waited us]) ws p t ∧
      t.tmrGap = s.tmrGap.add us := by
  have hwire : s.wire ++ [.waited us] = s₀.wire ++ (w ++ [.waited us]) := by rw [h.wire, List.append_assoc]
  exact ⟨_, h.step, { h with plan := rfl, wire := hwire }, rfl⟩

/-- An operation of the shutdown that succeeds. -/
theorem CleanShutdown.step_issue {r : Request} {g : Guard} {i : Instr} {t : State} {e : WireEvent} {isOpen : Bool}
    {ws' : List WriteDraw} (h : CleanShutdown s₀ rest true w ws (.issue r g :: p) s)
    (hdec : decode (.request r) = .ok i) (hexec : exec i (s.withPlan p) = .next t)
    (ht : (s.withPlan p).Succeeds e isOpen ws' t) :
    Machine.step s = .next t ∧ CleanShutdown s₀ rest isOpen (w ++ [e]) ws' p t := by
  obtain ⟨hhost, hinbox, hcfg⟩ := ht.outside
  refine ⟨h.step_completed hdec hexec ht.answered, ?_⟩
  exact {
    idle := ht.idle
    plan := congrArg HostState.plan hhost
    going := (congrArg HostState.ended hhost).trans h.going
    waits := hinbox ▸ h.waits
    cfg := hcfg.trans h.cfg
    inbox := hinbox.trans h.inbox
    loop := (congrArg HostState.loop hhost).trans h.loop
    busOpen := ht.busOpen
    sent := ht.sent
    window := ht.window.trans h.window
    faults := ht.faults.trans h.faults
    err := ht.err.trans h.err
    writes := ht.writes
    wire := by rw [ht.wire, ← List.append_assoc, ← h.wire]; rfl }

/-- A command of the shutdown whose frame may follow and is written. -/
theorem CleanShutdown.step_send {r : Request} {g : Guard} {f : List Byte}
    (h : CleanShutdown s₀ rest true w (.ok :: ws) (.issue r g :: p) s) (hgap : s.tmrGap.atLeast params.tCmdGap = true)
    (hsends : RequestSends s₀.cfg r f) :
    ∃ t, Machine.step s = .next t ∧ CleanShutdown s₀ rest true (w ++ [.wrote f]) ws p t := by
  have hspaced : (s.withPlan p).lineSpaced = true := (State.lineSpaced_iff _).mpr ⟨hgap, h.window⟩
  obtain ⟨i, t, hdec, hexec, ht⟩ := hsends (s.withPlan p) h.cfg h.busOpen hspaced h.sent (State.nextWrite_cons h.writes)
  have hws : (s.withPlan p).env.writes.tail = ws := congrArg List.tail h.writes
  exact ⟨t, h.step_issue hdec hexec (hws ▸ ht)⟩

/-- R301, R312: the wait before a command lets the gap pass. -/
theorem CleanShutdown.run_wait_send {r : Request} {g : Guard} {f : List Byte} {us : Nat}
    (h : CleanShutdown s₀ rest true w (.ok :: ws) (.wait us :: .issue r g :: p) s) (hus : params.tCmdGap ≤ us)
    (hsends : RequestSends s₀.cfg r f) :
    ∃ t, core.run 2 s = .next t ∧ CleanShutdown s₀ rest true (w ++ [.waited us, .wrote f]) ws p t := by
  obtain ⟨u, hwait, hu, hgap⟩ := h.step_wait
  obtain ⟨t, hsend, ht⟩ := hu.step_send (hgap ▸ s.tmrGap.add_atLeast_of_le hus) hsends
  rw [List.append_assoc] at ht
  exact ⟨t, (core_run_succ hwait 1).trans (core_run_succ hsend 0), ht⟩

/-- R155, R232: the close. -/
theorem CleanShutdown.step_close (h : CleanShutdown s₀ rest true w ws shutdownEnd s) :
    ∃ t, Machine.step s = .next t ∧ CleanShutdown s₀ rest false (w ++ [.closed]) ws [.exit] t := by
  have hclose := opClose_succeeds (s := s.withPlan [.exit]) h.busOpen
  have hws : (s.withPlan [.exit]).env.writes = ws := h.writes
  exact ⟨_, h.step_issue (i := .bClose) rfl rfl (hws ▸ hclose)⟩

/-- R233: the end of the host. -/
theorem CleanShutdown.step_exit (h : CleanShutdown s₀ rest false w ws [.exit] s) :
    ∃ t, Machine.step s = .next t ∧ t.busOpen = false ∧ t.host.ended = true ∧ t.host.loop = .shuttingDown ∧
      t.host.plan = [] ∧ t.inbox = rest ∧ t.faults = s₀.faults ∧ t.err = s₀.err ∧ t.env.writes = ws ∧
      t.wire = s₀.wire ++ w :=
  ⟨_, h.step, h.busOpen, rfl, h.loop, rfl, h.inbox, h.faults, h.err, h.writes, h.wire⟩

end

/-- R230, R232: a stop seen by a tick begins the shutdown. -/
theorem step_hostTick_stop {s : State} {pose : Pose} {us : Nat} {rest : List Event} (hidle : s.seq = .idle)
    (hplan : s.host.plan = []) (hin : s.inbox = .hostTick pose us :: rest) (hloop : s.host.loop = .running)
    (hgo : s.host.ended = false) (hstop : s.host.stopFlag = true) : step s = .next (State.withPlan (planShutdown s.cfg)
      { s with inbox := rest, host := { s.host with loop := .shuttingDown, error := none } }) := by
  rw [step_hostTick hidle hplan hin hloop hgo, tick_stop (s := { s with inbox := rest }) hplan us pose hstop]

/-- Settles O56: the tick that sees the stop, the four commands with the wait before each, the close and the end. -/
theorem stopRunsTheShutdownSequence : Obligations.StopRunsTheShutdownSequence := by
  unfold Obligations.StopRunsTheShutdownSequence
  intro s pose us rest ws hidle hplan hin hloop hgo hstop hb hq hwindow hsettle hw hwaits
  have hstep := step_hostTick_stop hidle hplan hin hloop hgo hstop
  have hbegin : CleanShutdown s rest true [] (.ok :: .ok :: .ok :: .ok :: ws) (planShutdown s.cfg)
      (State.withPlan (planShutdown s.cfg)
        { s with inbox := rest, host := { s.host with loop := .shuttingDown, error := none } }) :=
    ⟨⟨hidle, rfl, hgo, hwaits⟩, rfl, rfl, rfl, hb, hq, hwindow, rfl, rfl, hw, (List.append_nil _).symm⟩
  obtain ⟨t₁, hyaw, h₁⟩ := hbegin.run_wait_send le_rfl (setpos_sends _ _ _)
  obtain ⟨t₂, hpitch, h₂⟩ := h₁.run_wait_send le_rfl (setpos_sends _ _ _)
  obtain ⟨t₃, hfreeYaw, h₃⟩ := h₂.run_wait_send hsettle (tqOff_sends _ _)
  obtain ⟨t₄, hfreePitch, h₄⟩ := h₃.run_wait_send le_rfl (tqOff_sends _ _)
  obtain ⟨t₅, hclose, h₅⟩ := h₄.step_close
  obtain ⟨t, hexit, hend⟩ := h₅.step_exit
  refine ⟨t, ?_, hend⟩
  calc core.run 11 s = core.run 10 _ := core_run_succ hstep 10
    _ = core.run 8 t₁ := core_run_add hyaw 8
    _ = core.run 6 t₂ := core_run_add hpitch 6
    _ = core.run 4 t₃ := core_run_add hfreeYaw 4
    _ = core.run 2 t₄ := core_run_add hfreePitch 2
    _ = core.run 1 t₅ := core_run_succ hclose 1
    _ = .next t := core_run_succ hexit 0

end Sys2Proof.Machine
end

section
/-! PROOFS, family 60_exceptions: each refusal as `State.refuse` of its code, what a write that breaks a rule of use does
before its bytes go out (`State.inBreach`), and that what it records stays to the end of its operation (`State.Breached`). -/

namespace Sys2Proof.Machine

/-! ## Refusals -/

/-- R115: the operation codes that are not reserved. -/
def definedOps : List Byte :=
  [0x01, 0x02, 0x03, 0x04, 0x05, 0x10, 0x11, 0x12, 0x13, 0x20, 0x21, 0x22, 0x23, 0x24, 0x25, 0x26, 0x30, 0x31, 0x32,
    0x33, 0x34]

/-- R116: the decoder names a reserved code; its own test is on the code's number. -/
theorem decodeRequest_reserved {r : Request} (h : r.op ∉ definedOps) : decodeRequest r = .error (.illegalOp r.op) := by
  have hnumber : r.op.toNat ∉ definedOps.map BitVec.toNat := fun hmem => by
    obtain ⟨op, hop, heq⟩ := List.mem_map.mp hmem
    exact h (BitVec.eq_of_toNat_eq heq ▸ hop)
  unfold decodeRequest
  split
  case h_22 => rfl
  all_goals
    rename_i hop
    rw [hop] at hnumber
    exact absurd (by decide) hnumber

/-- R262: a reserved code. -/
theorem issueRequest_reserved {r : Request} (h : r.op ∉ definedOps) (s : State) :
    issueRequest r s = .next (s.refuse .illegalOp) := by
  rw [issueRequest, decodeRequest_reserved h]

/-- R114: the selectors are 0 and 1. -/
theorem axisOfSel_eq_none {sel : Byte} (hyaw : sel ≠ 0) (hpitch : sel ≠ 1) : axisOfSel sel = none :=
  (if_neg hyaw).trans (if_neg hpitch)

theorem opAxMap_refused {sel : Byte} (h : axisOfSel sel = none) (d : Deg) (s : State) :
    opAxMap sel d s = s.refuse .illegalOperand := by
  simp only [opAxMap, h]

theorem opCalApply_refused {sel : Byte} (h : axisOfSel sel = none) (d : Deg) (s : State) :
    opCalApply sel d s = s.refuse .illegalOperand := by
  simp only [opCalApply, h]

/-- R199: the test of `CAL_SV` rejects a value that no power of ten makes an integer. -/
theorem finiteDecimal_eq_false {q : Deg} (h : ∀ k : Nat, ¬((10 : Rat) ^ k * q).isInt) : finiteDecimal q = false := by
  refine Bool.eq_false_iff.mpr fun hfinite => ?_
  obtain ⟨k, hk⟩ := finiteDecimal_isInt q hfinite
  exact h k hk

/-- R170: the operations that use the bus, with their operands. -/
def busInstrs (id n : Byte) (d : Deg) (bytes : List Byte) : List Instr :=
  [.bWrite bytes, .bRead n, .bFlush, .tqOn id, .tqOff id, .setpos id d, .rdpos id, .calRun]

/-- R170: each of them is guarded by the state of the channel. -/
theorem exec_of_mem_busInstrs {i : Instr} {id n : Byte} {d : Deg} {bytes : List Byte}
    (h : i ∈ busInstrs id n d bytes) (s : State) : ∃ run : State → State, exec i s = .next (s.needBus run) := by
  simp only [busInstrs, List.mem_cons, List.not_mem_nil, or_false] at h
  obtain rfl | rfl | rfl | rfl | rfl | rfl | rfl | rfl := h <;> exact ⟨_, rfl⟩

/-- Settles O39: each request is refused with its code, and a refusal is all that happens. -/
theorem refusalsChangeNothing : Obligations.RefusalsChangeNothing := by
  unfold Obligations.RefusalsChangeNothing
  intro s
  refine ⟨fun r hop => issueRequest_reserved hop s,
    fun id mode hfree hnormal => exec_encTq_refused s (modeOfByte_eq_none hfree hnormal) id,
    fun sel d hyaw hpitch => ?selector, fun y p h => ?decimal, fun hclosed id n d bytes i hi => ?closed,
    fun hopen => congrArg Host.Outcome.next (opOpen_of_open hopen)⟩
  case selector =>
    have hnone := axisOfSel_eq_none hyaw hpitch
    exact ⟨congrArg Host.Outcome.next (opAxMap_refused hnone d s),
      congrArg Host.Outcome.next (opCalApply_refused hnone d s)⟩
  case decimal =>
    exact congrArg Host.Outcome.next (opCalSv_refused (h.imp finiteDecimal_eq_false finiteDecimal_eq_false) s)
  case closed =>
    obtain ⟨run, hrun⟩ := exec_of_mem_busInstrs hi s
    rw [hrun, s.needBus_closed run hclosed]
    rfl

/-! ## A write that breaks a rule of use -/

/-- The faults of a write in `s`: the gap is too short, a request still awaits its read (R261, R300, R301). -/
def State.breaches (s : State) : List Fault :=
  (if s.tmrGap.atLeast params.tCmdGap = true then [] else [.gapViolation .spacing]) ++
    (if s.rqWindow = true then [.gapViolation .window] else [])

/-- The state in which the bytes of such a write go out: its faults are recorded and nothing is known of the actuators
(U9; log entries 14 and 15). -/
def State.inBreach (s : State) : State :=
  { s with faults := s.faults ++ s.breaches, actMem := [], lineClean := false }

section

variable {s : State} {bytes : List Byte}

theorem GapTimer.atLeast_of_lt {g : GapTimer} {us e : Nat} (h : g = .since e ∧ e < us) : g.atLeast us = false := by
  obtain ⟨rfl, hlt⟩ := h
  exact decide_eq_false (not_le.mpr hlt)

/-- R300, R301: the two ways in which a write comes too early. -/
theorem State.lineSpaced_eq_false {us : Nat} (h : (s.tmrGap = .since us ∧ us < 1000) ∨ s.rqWindow = true) :
    s.lineSpaced = false := by
  rw [State.lineSpaced, Bool.and_eq_false_iff]
  exact h.imp GapTimer.atLeast_of_lt (congrArg not)

theorem State.breaches_ne_nil (h : s.lineSpaced = false) : s.breaches ≠ [] := by
  unfold State.breaches
  rw [State.lineSpaced, Bool.and_eq_false_iff] at h
  obtain hgap | hwindow := h
  · simp [hgap]
  · simp [Bool.not_eq_eq_eq_not.mp hwindow]

theorem State.inBreach_faults_ne (h : s.lineSpaced = false) : s.inBreach.faults ≠ s.faults :=
  fun heq => s.breaches_ne_nil h (List.append_right_eq_self.mp heq)

theorem State.inBreach_faults (s : State) : s.inBreach.faults = s.faults ++
    (if s.tmrGap.atLeast 1000 = true then [] else [.gapViolation .spacing]) ++
    (if s.rqWindow = true then [.gapViolation .window] else []) := (List.append_assoc _ _ _).symm

/-- What the check of a write does on a line that is not spaced. -/
theorem State.checkGap_of_unspaced (h : s.lineSpaced = false) : s.checkGap = s.inBreach := by
  obtain ⟨_, hgap, hwindow⟩ | ⟨_, hmem, hclean⟩ := s.checkGap_cases
  · exact absurd (s.lineSpaced_iff.mpr ⟨hgap, hwindow⟩) (by simp [h])
  · rw [State.checkGap_frame, State.checkGap_faults, hmem, hclean, List.append_assoc]
    rfl

/-- On a line that is not clean a write leaves nothing known of the actuators. -/
theorem State.actuate_of_unclean (hc : s.lineClean = false) : s.actuate bytes = { s with actMem := [] } := by
  simp only [State.actuate, hc, Bool.false_eq_true, if_false]

/-- What a `BusWrite` in breach leaves when it succeeds (R152). -/
def State.breachWritten (bytes : List Byte) (s : State) : State :=
  { s.inBreach with
    wire := s.wire ++ [.wrote bytes], tmrGap := .since 0, rqWindow := s.rqWindow || carriesRequest bytes
    env := { s.env with writes := s.env.writes.tail }, draws := s.draws + 1 }

/-- What a `BusWrite` in breach leaves when it fails after `part` (R152, U14). -/
def State.breachCut (part : List Byte) (s : State) : State :=
  { s.inBreach with
    wire := s.wire ++ [.cut part], txq := [], err := .busWriteFailure
    tmrGap := if part = [] then s.tmrGap else .since 0, rqWindow := s.rqWindow || carriesRequest part
    env := { s.env with writes := s.env.writes.tail }, draws := s.draws + 1 }

theorem State.busWrite_breachWritten (hspaced : s.lineSpaced = false) (hbytes : bytes ≠ []) (hq : s.txq = [])
    (hw : s.nextWrite = .ok) : s.busWrite bytes = (true, s.breachWritten bytes) := by
  rw [s.busWrite_ok bytes hbytes hw, State.checkGap_of_unspaced hspaced, State.transmit, State.actuate_of_unclean rfl]
  simp only [State.breachWritten, State.inBreach, State.popWrite, hq, List.nil_append]

theorem State.busWrite_breachCut {k : Nat} (hspaced : s.lineSpaced = false) (hbytes : bytes ≠ [])
    (hw : s.nextWrite = .fail k) :
    s.busWrite bytes = (false, s.breachCut (bytes.take (min k (bytes.length - 1)))) := by
  rw [s.busWrite_fail bytes k hbytes hw, State.checkGap_of_unspaced hspaced, State.cutWrite_eq]
  simp only [State.breachCut, State.inBreach, State.popWrite, ite_self, Bool.false_and]

theorem State.busWrite_breachEmpty (hspaced : s.lineSpaced = false) : s.busWrite [] = (true, s.inBreach) := by
  rw [s.busWrite_nil, State.checkGap_of_unspaced hspaced]

/-- R300: a window is open after a write when one was, or when the bytes on the line hold a whole request. -/
theorem window_or_request_iff (window : Bool) (bytes : List Byte) : (window || carriesRequest bytes) = true ↔
    window = true ∨
      ∃ (l r : List Byte) (id sum : Byte), bytes = l ++ [0x07, 0x03, 0x00, id, 0x2C, 0x02, sum] ++ r := by
  rw [Bool.or_eq_true, carriesRequest_iff]

end

/-! ## What is recorded stays -/

/-- Since the record was `base` a write broke a rule of use: at least one fault was added and nothing is known of the
actuators. -/
structure State.Breached (base : List Fault) (s : State) : Prop where
  recorded : ∃ l, l ≠ [] ∧ s.faults = base ++ l
  unknown : s.actMem = []
  unclean : s.lineClean = false

section

variable {base : List Fault} {i : Instr} {s t : State}

/-- R261: a write on a line that is not spaced, whatever it writes and whatever is drawn. -/
theorem State.busWrite_breached (hspaced : s.lineSpaced = false) (bytes : List Byte) :
    (s.busWrite bytes).2.Breached s.faults := by
  have hcheck := State.checkGap_of_unspaced hspaced
  obtain ⟨hmem, hclean⟩ := s.busWrite_dirty bytes (by rw [hcheck]; rfl) (by rw [hcheck]; rfl)
  exact ⟨⟨s.breaches, s.breaches_ne_nil hspaced, by rw [State.busWrite_faults, hcheck]; rfl⟩, hmem, hclean⟩

/-- A later write only adds to the record, and cannot make the line clean again. -/
theorem State.Breached.busWrite (h : s.Breached base) (bytes : List Byte) : (s.busWrite bytes).2.Breached base := by
  cases hspaced : s.lineSpaced with
  | false =>
    obtain ⟨⟨l, hl, hrec⟩, hmem, hclean⟩ := State.busWrite_breached hspaced bytes
    obtain ⟨l₀, _, hbase⟩ := h.recorded
    exact ⟨⟨l₀ ++ l, List.append_ne_nil_of_right_ne_nil _ hl, by rw [hrec, hbase, List.append_assoc]⟩, hmem, hclean⟩
  | true =>
    obtain ⟨hgap, hwindow⟩ := s.lineSpaced_iff.mp hspaced
    have hcheck := s.checkGap_spaced hgap hwindow
    obtain ⟨hmem, hclean⟩ := s.busWrite_dirty bytes (hcheck.symm ▸ h.unknown) (hcheck.symm ▸ h.unclean)
    exact ⟨by rw [State.busWrite_faults, hcheck]; exact h.recorded, hmem, hclean⟩

theorem State.Breached.busRead (h : s.Breached base) (n : Nat) : (s.busRead n).2.Breached base := by
  rw [State.busRead_frame]
  exact { h with }

/-- R176: the wait for a response and its read. -/
theorem State.Breached.storeResponse (h : s.Breached base) : s.storeResponse.Breached base := by
  have hread : s.readResponse.2.Breached base :=
    State.Breached.busRead (s := ((s.enter .rdWait).delay params.tPostWrite).enter .rdRead) { h with } _
  rw [State.storeResponse]
  generalize s.readResponse = a at hread
  exact { hread with }

/-- No update but a write touches the record or what is known of the actuators. -/
theorem Effect.breached (h : Effect i s t) (hs : s.Breached base) : t.Breached base := by
  cases h
  case write bs => exact hs.busWrite bs
  case read n _ => exact hs.busRead n
  case save b _ => rw [State.memWrite_frame]; exact { hs with }
  case popRead => unfold State.popRead; split <;> exact { hs with }
  all_goals exact { hs with }

theorem Effects.breached (h : Effects i s t) (hs : s.Breached base) : t.Breached base := by
  induction h with
  | refl => exact hs
  | tail _ hstep ih => exact hstep.breached ih

/-! ## The servo commands in breach -/

/-- The end of a command adds nothing to what its last write left. -/
theorem State.writeAndEnd_breached {f : List Byte} (hwrite : (s.busWrite f).2.Breached base) :
    (s.writeAndEnd f).Breached base := by
  obtain ⟨_, he⟩ | ⟨_, he⟩ := s.writeAndEnd_cases f <;> rw [he]
  all_goals exact { hwrite with }

theorem opTqOff_breached (hb : s.busOpen = true) (hspaced : s.lineSpaced = false) (id : Byte) :
    (opTqOff id s).Breached s.faults := by
  rw [opTqOff_of_open hb]
  exact State.writeAndEnd_breached (State.busWrite_breached (s := s.beforeFree id) hspaced _)

theorem opSetpos_breached (hb : s.busOpen = true) (hspaced : s.lineSpaced = false) (id : Byte) (d : Deg) :
    (opSetpos id d s).Breached s.faults := by
  rw [opSetpos_of_open hb]
  exact State.writeAndEnd_breached (State.busWrite_breached (s := s.beforePosition _) hspaced _)

/-- R172: from the written Free frame to the write of the Normal frame, on any line. -/
def State.towardNormal (id : Byte) (t : State) : State :=
  ((((t.enter .tqWait).delay params.tTorque).enter .tqEncNormal).setTx (lineNormal id)).enter .tqWrNormal

theorem State.towardNormal_effects (id : Byte) (t : State) : Effects (.tqOn id) t (t.towardNormal id) :=
  ((((Relation.ReflTransGen.single (.enter .tqWait)).tail (.delay params.tTorque)).tail (.enter .tqEncNormal)).tail
    (.setTx _ (.inr (.inl rfl)))).tail (.enter .tqWrNormal)

theorem opTqOn_of_freeFailed {id : Byte} (hb : s.busOpen = true)
    (h : (s.beforeFree id).busWrite (lineFree id) = (false, t)) : opTqOn id s = t.raise .busWriteFailure := by
  rw [opTqOn, s.needBus_open _ hb, frameTq_free]
  simp only [State.beforeFree_eq, h]

theorem opTqOn_of_freeWritten {id : Byte} (hb : s.busOpen = true)
    (h : (s.beforeFree id).busWrite (lineFree id) = (true, t)) :
    opTqOn id s = (t.towardNormal id).writeAndEnd (lineNormal id) := by
  rw [opTqOn, s.needBus_open _ hb, frameTq_free, frameTq_normal]
  simp only [State.beforeFree_eq, h, State.towardNormal]

/-- R172: the first write is in breach, and the second, if there is one, adds to its record. -/
theorem opTqOn_breached (hb : s.busOpen = true) (hspaced : s.lineSpaced = false) (id : Byte) :
    (opTqOn id s).Breached s.faults := by
  have hfree : ((s.beforeFree id).busWrite (lineFree id)).2.Breached s.faults :=
    State.busWrite_breached (s := s.beforeFree id) hspaced _
  rcases hwrite : (s.beforeFree id).busWrite (lineFree id) with ⟨written, t⟩
  rw [hwrite] at hfree
  cases written with
  | false =>
    rw [opTqOn_of_freeFailed hb hwrite]
    exact { hfree with }
  | true =>
    rw [opTqOn_of_freeWritten hb hwrite]
    exact State.writeAndEnd_breached (((t.towardNormal_effects id).breached hfree).busWrite _)

/-! ## The exchange in breach -/

/-- R176: the flush closes an open window, but a request that comes too early is in breach all the same. -/
theorem State.beforeRequest_unspaced (hgap : s.tmrGap.atLeast params.tCmdGap = false) (id : Byte) :
    (s.beforeRequest id).lineSpaced = false :=
  Bool.and_eq_false_iff.mpr (.inl hgap)

theorem readPosition_breached (hgap : s.tmrGap.atLeast params.tCmdGap = false) (id : Byte) :
    (readPosition id s).2.Breached s.faults := by
  have hrequest : ((s.beforeRequest id).busWrite (frameRd id)).2.Breached s.faults :=
    State.busWrite_breached (State.beforeRequest_unspaced hgap id) _
  have hcases := readPosition_cases id s _ rfl
  generalize ((s.beforeRequest id).busWrite (frameRd id)).2 = u at hrequest hcases
  have hstore := hrequest.storeResponse
  generalize u.storeResponse = v at hstore hcases
  obtain h | ⟨_, h⟩ | h := hcases <;> rw [h]
  · exact { hrequest with }
  all_goals exact { hstore with }

theorem opRdpos_breached (hb : s.busOpen = true) (hgap : s.tmrGap.atLeast params.tCmdGap = false) (id : Byte) :
    (opRdpos id s).Breached s.faults := by
  rw [opRdpos, s.needBus_open _ hb]
  exact { readPosition_breached (s := s.accept) hgap id with }

/-- R202: the first exchange is in breach, and all that follows it only adds to its record. -/
theorem opCalRun_breached (hb : s.busOpen = true) (hgap : s.tmrGap.atLeast params.tCmdGap = false) :
    (opCalRun s).Breached s.faults := by
  have hyaw : s.yawExchange.2.Breached s.faults := readPosition_breached (s := s.accept.enter .crYaw) hgap _
  have hopen : s.yawExchange.2.busOpen = true :=
    ((Effects.start .calRun s .crYaw).readPosition (.inr rfl) hb s.cfg.yaw.id).stillOpen (.inr rfl) hb
  have hpitch : s.pitchExchange.2.Breached s.faults :=
    (Effects.readPosition ((Relation.ReflTransGen.single (.delay params.tCmdGap)).tail (.enter .crPitch)) (.inr rfl)
      hopen s.cfg.pitch.id : Effects .calRun _ _).breached hyaw
  have hcases := opCalRun_cases hb
  generalize s.pitchExchange.2 = u at hpitch hcases
  obtain ⟨y, p, _, _, h | ⟨left, h⟩⟩ | ⟨_, h⟩ := hcases <;> rw [h]
  all_goals exact { hpitch with }

/-- R261, R300, R301: every servo command whose first write breaks a rule of use. -/
theorem exec_breached {id : Byte} {d : Deg} (hb : s.busOpen = true)
    (h : s.lineSpaced = false ∧ i ∈ [.tqOn id, .tqOff id, .setpos id d] ∨
      s.tmrGap.atLeast params.tCmdGap = false ∧ i ∈ [.rdpos id, .calRun]) :
    ∃ t : State, exec i s = .next t ∧ t.Breached s.faults := by
  simp only [List.mem_cons, List.not_mem_nil, or_false] at h
  obtain ⟨hspaced, rfl | rfl | rfl⟩ | ⟨hgap, rfl | rfl⟩ := h
  · exact ⟨_, rfl, opTqOn_breached hb hspaced id⟩
  · exact ⟨_, rfl, opTqOff_breached hb hspaced id⟩
  · exact ⟨_, rfl, opSetpos_breached hb hspaced id d⟩
  · exact ⟨_, rfl, opRdpos_breached hb hgap id⟩
  · exact ⟨_, rfl, opCalRun_breached hb hgap⟩

end

/-- Settles O40: a `B_WRITE` in breach is `busWrite` from `State.inBreach`, whole, cut or empty; a servo command is
`exec_breached`. -/
theorem gapViolationsAreRecorded : Obligations.GapViolationsAreRecorded := by
  unfold Obligations.GapViolationsAreRecorded
  refine ⟨fun s bytes us hb hbytes hq hw hbreach => ?whole, fun s bytes us k hb hbytes hw hbreach => ?cut,
    fun s us hb hbreach => ?empty, fun s id d us i hb h => ?servo⟩
  case whole =>
    have hspaced := State.lineSpaced_eq_false hbreach
    have hwrite := State.busWrite_breachWritten (s := s.accept.enter .writing) hspaced hbytes hq hw
    have hop := (opWrite_of_open hb bytes).trans (State.writeAndEnd_of_written hwrite)
    refine ⟨opWrite bytes s, rfl, ?_⟩
    rw [hop]
    refine ⟨?_, State.inBreach_faults_ne hspaced, window_or_request_iff s.rqWindow bytes⟩
    rw [← State.inBreach_faults]
    rfl
  case cut =>
    have hspaced := State.lineSpaced_eq_false hbreach
    have hwrite := State.busWrite_breachCut (s := s.accept.enter .writing) hspaced hbytes hw
    have hop := (opWrite_of_open hb bytes).trans (State.writeAndEnd_of_failed hwrite)
    refine ⟨opWrite bytes s, bytes.take (min k (bytes.length - 1)), rfl, List.take_prefix _ _,
      length_take_cut_lt hbytes k, fun hk => by rw [List.length_take]; omega, ?_⟩
    rw [hop]
    refine ⟨?_, State.inBreach_faults_ne hspaced, window_or_request_iff s.rqWindow _⟩
    rw [← State.inBreach_faults]
    rfl
  case empty =>
    have hspaced := State.lineSpaced_eq_false hbreach
    have hwrite := State.busWrite_breachEmpty (s := s.accept.enter .writing) hspaced
    have hop := (opWrite_of_open hb []).trans (State.writeAndEnd_of_written hwrite)
    refine ⟨opWrite [] s, rfl, ?_⟩
    rw [hop]
    refine ⟨?_, State.inBreach_faults_ne hspaced⟩
    rw [← State.inBreach_faults]
    rfl
  case servo =>
    obtain ⟨t, hexec, hrecorded, hmem, hclean⟩ := exec_breached hb
      (h.imp (And.imp_left State.lineSpaced_eq_false) (And.imp_left GapTimer.atLeast_of_lt))
    obtain ⟨l, hl, hfaults⟩ := hrecorded
    exact ⟨t, l, hexec, hl, hfaults, hmem, hclean⟩

end Sys2Proof.Machine
end

section
/-! PROOFS, family 70_reset_and_hazards: what the configuration check accepts, and which configurations have a state
after reset. -/

namespace Sys2Proof.Machine

/-! ## The configuration check -/

/-- R31: the check of one axis. -/
theorem AxisConfig.ok_iff (c : AxisConfig) : AxisConfig.ok c = true ↔ c.min ≤ c.center ∧ c.center ≤ c.max := by
  simp only [AxisConfig.ok, Bool.and_eq_true, decide_eq_true_eq]

/-- R9, R31, R293: the check of a configuration, both axes, their ids and the host's parameters. -/
theorem Deployment.ok_iff (c : Deployment) :
    Deployment.ok c = true ↔
      (c.yaw.min ≤ c.yaw.center ∧ c.yaw.center ≤ c.yaw.max) ∧
        (c.pitch.min ≤ c.pitch.center ∧ c.pitch.center ≤ c.pitch.max) ∧
        c.yaw.id ≠ c.pitch.id ∧ 0 < c.freq ∧ 0 ≤ c.deadband := by
  simp only [Deployment.ok, Bool.and_eq_true, AxisConfig.ok_iff, bne_iff_ne, decide_eq_true_eq, and_assoc]

/-! ## Reset by the outcome of the check -/

/-- R293: a configuration that passes its check resets to its power-on state. -/
theorem State.resetWith_of_ok {c : Deployment} (h : Deployment.ok c = true) (store : Option (List Byte)) :
    State.resetWith c store = some (State.powerOn c store) := if_pos h

/-- R293: a configuration that fails its check has no state after reset. -/
theorem State.resetWith_of_not_ok {c : Deployment} (h : ¬ Deployment.ok c = true) (store : Option (List Byte)) :
    State.resetWith c store = none := if_neg h

/-- Settles O52: each broken clause contradicts one part of `Deployment.ok_iff`; with all of them kept the state after
reset is `State.powerOn`, which has the invariant. -/
theorem badConfigurationsHaveNoReset : Obligations.BadConfigurationsHaveNoReset := by
  unfold Obligations.BadConfigurationsHaveNoReset
  refine fun c store => ⟨fun hbroken => ?broken, fun hy hy' hp hp' hid hfreq hdead => ?kept⟩
  case broken =>
    refine State.resetWith_of_not_ok (fun hok => ?_) store
    obtain ⟨⟨hy, hy'⟩, ⟨hp, hp'⟩, hid, -, -⟩ := (Deployment.ok_iff c).mp hok
    obtain h | h | h | h | h := hbroken
    · exact h.not_ge hy
    · exact h.not_ge hy'
    · exact h.not_ge hp
    · exact h.not_ge hp'
    · exact hid h
  case kept =>
    have hok : Deployment.ok c = true := (Deployment.ok_iff c).mpr ⟨⟨hy, hy'⟩, ⟨hp, hp'⟩, hid, hfreq, hdead⟩
    exact ⟨State.powerOn c store, State.resetWith_of_ok hok store, State.powerOn_inv hok store⟩

end Sys2Proof.Machine
end
